-- ==== Sys2Proof/Word.lean ====
section
/-! DEFINITION. The widths of the core: bits, bytes, 32-bit integers, 64-bit command words and byte
sequences (spec/00_scope.md rules R8, R11, R12). -/

namespace Sys2Proof

/-- A byte `u8`: 8 bits, unsigned, 0 to 255 (00_scope R8, R11). -/
abbrev Byte := BitVec 8

/-- A 32-bit word `u32`; an `i32` is the same bits read as two's complement (00_scope R11). -/
abbrev Word32 := BitVec 32

/-- A 64-bit command word (30_encoding R80). -/
abbrev Word64 := BitVec 64

/-- A 4-bit slot field of a command word, SA or SB (30_encoding R81). -/
abbrev SlotNo := BitVec 4

/-- A finite sequence of bytes (00_scope R11). -/
abbrev Bytes := List Byte

/-- A finite sequence of bits, the earliest first (00_scope R11). -/
abbrev Bits := List Bool

end Sys2Proof
end

