-- ==== Sys2Proof/Config.lean ====
section
/-! DEFINITION. The implementation parameters of spec/00_scope.md section 4 and
spec/92_eei_decisions.md ("Parameters a model takes as arguments"), each at this hardware's value.
The definitions of the machine take them as an argument `p : Params`, which stands for this hardware's values
where it is not given. No value of this machine is left open, so there is no free value here (INVENTORY.md). -/

namespace Sys2Proof

/-- The number of buffer slots (00_scope R6): 4 on this hardware. -/
def Config.NSLOT : Nat := 4

/-- The largest number of bytes a slot's `data` may hold (00_scope R7): 2^31 - 1 on this hardware. -/
def Config.MAX_LEN : Nat := 0x7FFFFFFF

/-- A Huffman tree: a leaf holds one byte value, an internal node two subtrees. The tree carries no
frequency: the sentinel of a parsed tree is never observable (44_huffman R200). -/
inductive HufTree where
  | leaf (v : Byte)
  | internal (left right : HufTree)
deriving DecidableEq, Repr

/-- An entry of the tree builder's priority queue: a node with its key (f, seq) (44_huffman R203). -/
structure QEntry where
  freq : Nat
  seq : Nat
  node : HufTree
deriving DecidableEq, Repr

/-- HUF_TIE_ORDER (44_huffman R203, 92_eei_decisions D23): which of two queue entries of equal frequency
leaves first, and whether the entry that leaves first becomes the left child. -/
structure TieOrder where
  before : QEntry → QEntry → Bool
  firstIsLeft : Bool

/-- This hardware's tie order: the smaller insertion number first, and the first dequeued node is the
left child (44_huffman R203). -/
def Config.hufTieOrder : TieOrder where
  before := fun e₁ e₂ => decide (e₁.seq < e₂.seq)
  firstIsLeft := true

/-- HUF_TIE_ORDER's range: a total order on the queue's entries of equal frequency, which have different
insertion numbers (92_eei_decisions, "Parameters a model takes as arguments"). -/
def TieOrder.isTotal (tie : TieOrder) : Prop :=
  (∀ e, tie.before e e = false) ∧
  (∀ e₁ e₂ e₃, e₁.freq = e₂.freq → e₂.freq = e₃.freq → tie.before e₁ e₂ = true →
    tie.before e₂ e₃ = true → tie.before e₁ e₃ = true) ∧
  (∀ e₁ e₂, e₁.freq = e₂.freq → e₁.seq ≠ e₂.seq → tie.before e₁ e₂ = true ∨ tie.before e₂ e₁ = true)

/-- The parameters a model takes (00_scope R6, R7; 92_eei_decisions D23): the number of slots, the largest
number of bytes of a slot's `data`, and the Huffman tie order. -/
structure Params where
  nslot : Nat
  maxLen : Nat
  tieOrder : TieOrder

/-- The ranges of the parameters: 1 <= NSLOT <= 16 (00_scope R6), 8 <= MAX_LEN <= 2^31 - 1 (R7), and a total
tie order (92_eei_decisions D23). -/
def Params.inRange (p : Params) : Prop :=
  1 ≤ p.nslot ∧ p.nslot ≤ 16 ∧ 8 ≤ p.maxLen ∧ p.maxLen ≤ 0x7FFFFFFF ∧ p.tieOrder.isTotal

/-- This hardware's parameters (00_scope R6, R7; 44_huffman R203). -/
def Config.params : Params where
  nslot := Config.NSLOT
  maxLen := Config.MAX_LEN
  tieOrder := Config.hufTieOrder

end Sys2Proof
end

