-- ==== Sys2Proof/Syntax.lean ====
section
/-! DEFINITION. The commands of the core, one constructor per row of spec/opcode_table.json
(spec/30_encoding.md rule R83). -/

namespace Sys2Proof

/-- A command with its operands (30_encoding R81 to R83). `a` is the slot in SA, `b` the slot in SB,
both as the 4-bit fields the word carries; `WellFormed.lean` says which of them are slots. -/
inductive Instr where
  /-- NEW: create an empty buffer (41_bitbuffer R100). -/
  | new (a : SlotNo)
  /-- WRBIT: write one bit (R105). -/
  | wrbit (a : SlotNo) (bit : Bool)
  /-- WRBYTE: write one byte (R106). -/
  | wrbyte (a : SlotNo) (v : Byte)
  /-- WRBYTES: write the bytes of slot b (R107). -/
  | wrbytes (a b : SlotNo)
  /-- WRINT: write a 32-bit integer, big-endian (R108). -/
  | wrint (a : SlotNo) (w : Word32)
  /-- FLUSH: append the pending bits as a final byte (R109). -/
  | flush (a : SlotNo)
  /-- RDBIT: read one bit (R111). -/
  | rdbit (a : SlotNo)
  /-- RDBYTE: read one byte (R112). -/
  | rdbyte (a : SlotNo)
  /-- RDINT: read a 32-bit big-endian integer (R113). -/
  | rdint (a : SlotNo)
  /-- RSTPOS: rewind the read position (R114). -/
  | rstpos (a : SlotNo)
  /-- EOD: test for end of data (R118). -/
  | eod (a : SlotNo)
  /-- GETB: read one byte by index (R119). -/
  | getb (a : SlotNo) (i : Word32)
  /-- SETB: write one byte by index (R120). -/
  | setb (a : SlotNo) (i : Word32) (v : Byte)
  /-- LEN: read the length of `data` (R121). -/
  | len (a : SlotNo)
  /-- BWT: forward Burrows-Wheeler transform (42_bwt R150). -/
  | bwt (a b : SlotNo)
  /-- IBWT: inverse Burrows-Wheeler transform (42_bwt R156). -/
  | ibwt (a b : SlotNo)
  /-- MTFE: move-to-front encode (43_mtf R181). -/
  | mtfe (a b : SlotNo)
  /-- MTFD: move-to-front decode (43_mtf R182). -/
  | mtfd (a b : SlotNo)
  /-- HUFC: Huffman compress (44_huffman R208). -/
  | hufc (a b : SlotNo)
  /-- HUFX: Huffman expand (44_huffman R212). -/
  | hufx (a b : SlotNo)
  /-- RLEE: run-length encode (45_rle R244). -/
  | rlee (a b : SlotNo)
  /-- RLED: run-length decode (45_rle R245). -/
  | rled (a b : SlotNo)
  /-- CLRF: clear the recorded fault (60_exceptions R280). -/
  | clrf
deriving DecidableEq, Repr

/-- The mnemonic of spec/opcode_table.json (30_encoding R83). -/
def Instr.mnemonic : Instr → String
  | .new _ => "NEW"
  | .wrbit _ _ => "WRBIT"
  | .wrbyte _ _ => "WRBYTE"
  | .wrbytes _ _ => "WRBYTES"
  | .wrint _ _ => "WRINT"
  | .flush _ => "FLUSH"
  | .rdbit _ => "RDBIT"
  | .rdbyte _ => "RDBYTE"
  | .rdint _ => "RDINT"
  | .rstpos _ => "RSTPOS"
  | .eod _ => "EOD"
  | .getb _ _ => "GETB"
  | .setb _ _ _ => "SETB"
  | .len _ => "LEN"
  | .bwt _ _ => "BWT"
  | .ibwt _ _ => "IBWT"
  | .mtfe _ _ => "MTFE"
  | .mtfd _ _ => "MTFD"
  | .hufc _ _ => "HUFC"
  | .hufx _ _ => "HUFX"
  | .rlee _ _ => "RLEE"
  | .rled _ _ => "RLED"
  | .clrf => "CLRF"

end Sys2Proof
end

