-- ==== Sys2Proof/WellFormed.lean ====
section
/-! DEFINITION. Which commands are legal: every slot field the opcode uses names a slot of the core
(spec/30_encoding.md rule R88). The other checks of rule R84 concern fields that `Instr` does not carry;
`Decode.lean` makes them. -/

namespace Sys2Proof

/-- A slot field names a slot: its number is below NSLOT (30_encoding R88). -/
def slotOk (a : SlotNo) (p : Params := Config.params) : Bool := decide (a.toNat < p.nslot)

/-- The slot fields a command uses: SA for every command but CLRF, and SB for WRBYTES and the
transforms (30_encoding R88). -/
def Instr.slotFields : Instr → List SlotNo
  | .new a => [a]
  | .wrbit a _ => [a]
  | .wrbyte a _ => [a]
  | .wrbytes a b => [a, b]
  | .wrint a _ => [a]
  | .flush a => [a]
  | .rdbit a => [a]
  | .rdbyte a => [a]
  | .rdint a => [a]
  | .rstpos a => [a]
  | .eod a => [a]
  | .getb a _ => [a]
  | .setb a _ _ => [a]
  | .len a => [a]
  | .bwt a b => [a, b]
  | .ibwt a b => [a, b]
  | .mtfe a b => [a, b]
  | .mtfd a b => [a, b]
  | .hufc a b => [a, b]
  | .hufx a b => [a, b]
  | .rlee a b => [a, b]
  | .rled a b => [a, b]
  | .clrf => []

/-- A command is well-formed when every slot field it uses is below NSLOT (30_encoding R88). -/
def Instr.wellFormed (i : Instr) (p : Params := Config.params) : Bool := i.slotFields.all fun a => slotOk a p

end Sys2Proof
end

