-- ==== Sys2Proof/Decode.lean ====
section
/-! DEFINITION. The encoding of spec/30_encoding.md rules R80 to R89: the fields of a command word, the
total decoder, the encoder, and the rows of spec/opcode_table.json. -/

namespace Sys2Proof

/-- The six fields of a command word (30_encoding R81). -/
structure Fields where
  op : Byte
  sa : SlotNo
  sb : SlotNo
  imm8 : Byte
  rsv : Byte
  opnd : Word32
deriving DecidableEq, Repr

/-- The fields of the word `w`: OP = w[7:0], SA = w[11:8], SB = w[15:12], IMM8 = w[23:16],
RSV = w[31:24], OPND = w[63:32] (30_encoding R81). -/
def fieldsOf (w : Word64) : Fields where
  op := w.extractLsb' 0 8
  sa := w.extractLsb' 8 4
  sb := w.extractLsb' 12 4
  imm8 := w.extractLsb' 16 8
  rsv := w.extractLsb' 24 8
  opnd := w.extractLsb' 32 32

/-- The word with the given fields, OPND at the top and OP at the bottom (30_encoding R81). -/
def wordOf (f : Fields) : Word64 :=
  (f.opnd ++ f.rsv ++ f.imm8 ++ f.sb ++ f.sa ++ f.op : BitVec (32 + 8 + 8 + 4 + 4 + 8))

/-- The fields SB, IMM8, OPND and RSV are zero: a row that carries SA alone (30_encoding R83, R84). -/
def onlySA (f : Fields) : Bool := f.sb == 0 && f.imm8 == 0 && f.opnd == 0 && f.rsv == 0

/-- IMM8, OPND and RSV are zero: a row that carries SA and SB (30_encoding R83, R84). -/
def onlySASB (f : Fields) : Bool := f.imm8 == 0 && f.opnd == 0 && f.rsv == 0

/-- SB, OPND and RSV are zero: a row that carries SA and IMM8 (30_encoding R83, R84). -/
def onlySAImm (f : Fields) : Bool := f.sb == 0 && f.opnd == 0 && f.rsv == 0

/-- SB, IMM8 and RSV are zero: a row that carries SA and OPND (30_encoding R83, R84). -/
def onlySAOpnd (f : Fields) : Bool := f.sb == 0 && f.imm8 == 0 && f.rsv == 0

/-- The row of 30_encoding R83 that the fields select, with the fields the row marks 0 checked (R84) and
every other OP value refused (R85). Slot numbers are checked by `decode`. -/
def decodeFields (f : Fields) : Option Instr :=
  match f.op with
  | 0x01#8 => if onlySA f then some (.new f.sa) else none
  | 0x02#8 =>
    if onlySAImm f && (f.imm8 == 0 || f.imm8 == 1) then some (.wrbit f.sa (f.imm8.getLsbD 0)) else none
  | 0x03#8 => if onlySAImm f then some (.wrbyte f.sa f.imm8) else none
  | 0x04#8 => if onlySASB f then some (.wrbytes f.sa f.sb) else none
  | 0x05#8 => if onlySAOpnd f then some (.wrint f.sa f.opnd) else none
  | 0x06#8 => if onlySA f then some (.flush f.sa) else none
  | 0x07#8 => if onlySA f then some (.rdbit f.sa) else none
  | 0x08#8 => if onlySA f then some (.rdbyte f.sa) else none
  | 0x09#8 => if onlySA f then some (.rdint f.sa) else none
  | 0x0A#8 => if onlySA f then some (.rstpos f.sa) else none
  | 0x0B#8 => if onlySA f then some (.eod f.sa) else none
  | 0x0C#8 => if onlySAOpnd f then some (.getb f.sa f.opnd) else none
  | 0x0D#8 => if f.sb == 0 && f.rsv == 0 then some (.setb f.sa f.opnd f.imm8) else none
  | 0x0E#8 => if onlySA f then some (.len f.sa) else none
  | 0x10#8 => if onlySASB f then some (.bwt f.sa f.sb) else none
  | 0x11#8 => if onlySASB f then some (.ibwt f.sa f.sb) else none
  | 0x20#8 => if onlySASB f then some (.mtfe f.sa f.sb) else none
  | 0x21#8 => if onlySASB f then some (.mtfd f.sa f.sb) else none
  | 0x30#8 => if onlySASB f then some (.hufc f.sa f.sb) else none
  | 0x31#8 => if onlySASB f then some (.hufx f.sa f.sb) else none
  | 0x40#8 => if onlySASB f then some (.rlee f.sa f.sb) else none
  | 0x41#8 => if onlySASB f then some (.rled f.sa f.sb) else none
  | 0xF0#8 => if onlySA f && f.sa == 0 then some .clrf else none
  | _ => none

/-- `decode w` is one command of 30_encoding R83, or `none` for ILLEGAL (30_encoding R87, R88). -/
def decode (w : Word64) (p : Params := Config.params) : Option Instr :=
  (decodeFields (fieldsOf w)).filter fun i => i.wellFormed p

/-- The fields of a command's word, from the rows of 30_encoding R83. -/
def encodeFields : Instr → Fields
  | .new a => ⟨0x01, a, 0, 0, 0, 0⟩
  | .wrbit a bit => ⟨0x02, a, 0, if bit then 1 else 0, 0, 0⟩
  | .wrbyte a v => ⟨0x03, a, 0, v, 0, 0⟩
  | .wrbytes a b => ⟨0x04, a, b, 0, 0, 0⟩
  | .wrint a w => ⟨0x05, a, 0, 0, 0, w⟩
  | .flush a => ⟨0x06, a, 0, 0, 0, 0⟩
  | .rdbit a => ⟨0x07, a, 0, 0, 0, 0⟩
  | .rdbyte a => ⟨0x08, a, 0, 0, 0, 0⟩
  | .rdint a => ⟨0x09, a, 0, 0, 0, 0⟩
  | .rstpos a => ⟨0x0A, a, 0, 0, 0, 0⟩
  | .eod a => ⟨0x0B, a, 0, 0, 0, 0⟩
  | .getb a i => ⟨0x0C, a, 0, 0, 0, i⟩
  | .setb a i v => ⟨0x0D, a, 0, v, 0, i⟩
  | .len a => ⟨0x0E, a, 0, 0, 0, 0⟩
  | .bwt a b => ⟨0x10, a, b, 0, 0, 0⟩
  | .ibwt a b => ⟨0x11, a, b, 0, 0, 0⟩
  | .mtfe a b => ⟨0x20, a, b, 0, 0, 0⟩
  | .mtfd a b => ⟨0x21, a, b, 0, 0, 0⟩
  | .hufc a b => ⟨0x30, a, b, 0, 0, 0⟩
  | .hufx a b => ⟨0x31, a, b, 0, 0, 0⟩
  | .rlee a b => ⟨0x40, a, b, 0, 0, 0⟩
  | .rled a b => ⟨0x41, a, b, 0, 0, 0⟩
  | .clrf => ⟨0xF0, 0, 0, 0, 0, 0⟩

/-- The command word of a command (30_encoding R81, R83). -/
def encode (i : Instr) : Word64 := wordOf (encodeFields i)

/-- A row of spec/opcode_table.json: the word matches it when `w &&& mask = pattern` (30_encoding R87). -/
structure OpcodeRow where
  mnemonic : String
  pattern : Word64
  mask : Word64
deriving DecidableEq, Repr

/-- A row whose word carries SA alone. -/
def rowSA (mnemonic : String) (op : Word64) : OpcodeRow := ⟨mnemonic, op, 0xFFFFFFFFFFFFF0FF⟩

/-- A row whose word carries SA and SB. -/
def rowSASB (mnemonic : String) (op : Word64) : OpcodeRow := ⟨mnemonic, op, 0xFFFFFFFFFFFF00FF⟩

/-- A row whose word carries SA and OPND. -/
def rowSAOpnd (mnemonic : String) (op : Word64) : OpcodeRow := ⟨mnemonic, op, 0x00000000FFFFF0FF⟩

/-- The rows of spec/opcode_table.json, in its order (30_encoding R83, R87). -/
def opcodeRows : List OpcodeRow :=
  [rowSA "NEW" 0x01, ⟨"WRBIT", 0x02, 0xFFFFFFFFFFFEF0FF⟩, ⟨"WRBYTE", 0x03, 0xFFFFFFFFFF00F0FF⟩,
    rowSASB "WRBYTES" 0x04, rowSAOpnd "WRINT" 0x05, rowSA "FLUSH" 0x06, rowSA "RDBIT" 0x07,
    rowSA "RDBYTE" 0x08, rowSA "RDINT" 0x09, rowSA "RSTPOS" 0x0A, rowSA "EOD" 0x0B,
    rowSAOpnd "GETB" 0x0C, ⟨"SETB", 0x0D, 0x00000000FF00F0FF⟩, rowSA "LEN" 0x0E] ++
  [rowSASB "BWT" 0x10, rowSASB "IBWT" 0x11, rowSASB "MTFE" 0x20, rowSASB "MTFD" 0x21,
    rowSASB "HUFC" 0x30, rowSASB "HUFX" 0x31, rowSASB "RLEE" 0x40, rowSASB "RLED" 0x41,
    ⟨"CLRF", 0xF0, 0xFFFFFFFFFFFFFFFF⟩]

/-- The word has the row's fixed bits (30_encoding R87). -/
def OpcodeRow.isMatch (r : OpcodeRow) (w : Word64) : Bool := w &&& r.mask == r.pattern

/-- The instruction the decoder reads from a table word of `nbits` bits, the bits above them zero. A
command is one 64-bit word, handed over whole (30_encoding R80). -/
def decodeTableWord (nbits w : Nat) : Option Instr := decode (BitVec.ofNat 64 (w % 2 ^ nbits))

end Sys2Proof
end

