-- ==== Sys2Proof/Machine/State.lean ====
section
/-! DEFINITION. The architectural state of the core (spec/10_state.md), the host's side of the interface
(spec/20_memory.md rule R56), the reasons a step can stop, and the state after reset (rule R35). -/

namespace Sys2Proof.Machine

open Sys2Proof

/-- A Bit Buffer state: `data`, the encode state `pend` and `npend`, and the decode state `cursor`, `cur`
and `rem` (10_state R21). `pend` is right-justified, its earliest bit the most significant. -/
structure BitBuffer where
  data : Bytes
  pend : Byte
  npend : Nat
  cursor : Nat
  cur : Byte
  rem : Nat
deriving DecidableEq, Repr

/-- The buffer `empty()` (10_state R23). -/
def BitBuffer.empty : BitBuffer where
  data := []
  pend := 0
  npend := 0
  cursor := 0
  cur := 0
  rem := 0

/-- The fault codes 1 to 5 that a command can raise; code 0 is "no fault recorded" (60_exceptions R270). -/
inductive FaultCode where
  | outOfData
  | indexRange
  | format
  | capacity
  | illegal
deriving DecidableEq, Repr

/-- The host-visible registers (10_state R26 to R28). -/
inductive HostReg where
  | res
  | status
  | fcmd
deriving DecidableEq, Repr

/-- The five kinds of host action (20_memory R54 to R56, 70_reset R300). -/
inductive HostAction where
  /-- ISSUE(w): hand a command word to the core. -/
  | issue (w : Word64)
  /-- READREG: read a host-visible register. -/
  | readReg (r : HostReg)
  /-- RESET. -/
  | reset
  /-- HOST_LOAD(a, bs): replace slot a with a buffer pre-loaded from bs. -/
  | load (a : Nat) (bs : Bytes)
  /-- HOST_READ(a): read the byte sequence of slot a. -/
  | read (a : Nat)
deriving DecidableEq, Repr

/-- What a READREG or a HOST_READ returns to the host (20_memory R55, R56). -/
inductive HostReply where
  /-- Nothing has been returned yet. -/
  | nothing
  /-- The value of RES or STATUS. -/
  | word (v : Word32)
  /-- The value of FCMD. -/
  | command (w : Word64)
  /-- The `data` of a slot. -/
  | bytes (bs : Bytes)
deriving DecidableEq, Repr

/-- The state of the core, and the host's pending actions.
The core's own state is `slots`, `res`, `status` and `fcmd` (10_state R20, R26 to R28). `slots` holds slot 0
to slot NSLOT - 1, in order; the parameter NSLOT (00_scope R6) is its length, which nothing changes.
DESIGN CHOICE (notes/assumptions 1 to 4; unsafe only where an entry says so): `hostQueue`, `hostReply` and
`issued` are the model's own and stand for the host. -/
structure State where
  slots : List BitBuffer
  res : Word32
  status : Word32
  fcmd : Word64
  hostQueue : List HostAction
  hostReply : HostReply
  issued : Nat
deriving DecidableEq, Repr

/-- The machine never stops with a fault: every fault of the spec is recorded in STATUS and FCMD and is a
next state (60_exceptions R271, R274). So there is no reason to list here. Safe: there is none to raise. -/
inductive Fault
deriving DecidableEq, Repr

/-- The reasons a step is refused. -/
inductive Refusal where
  /-- Raised by `exec` for a command without a meaning, by its mnemonic; no arm raises it. Safe. -/
  | notModelled (mnemonic : String)
  /-- Raised by HOST_LOAD with a slot number >= NSLOT or a sequence longer than MAX_LEN, which is "outside
  this spec's contract (the model has no move for it)" (20_memory R54). Safe. -/
  | hostLoadOutsideContract
  /-- Raised by HOST_READ with a slot number >= NSLOT (20_memory R55, 93_implementation_defined U19). Safe. -/
  | hostReadOutsideContract
deriving DecidableEq, Repr

/-- The machine with the parameters `p` after RESET: every one of its NSLOT slots `empty()`, RES, STATUS and
FCMD zero (10_state R35, 70_reset R300).
DESIGN CHOICE (notes/assumptions/4): no host action is pending, none has been taken. -/
def State.resetFor (p : Params) : State where
  slots := List.replicate p.nslot BitBuffer.empty
  res := 0
  status := 0
  fcmd := 0
  hostQueue := []
  hostReply := .nothing
  issued := 0

/-- This hardware after RESET (10_state R35). -/
def State.reset : State := State.resetFor Config.params

end Sys2Proof.Machine
end

