-- ==== Sys2Proof/Machine/Operands.lean ====
section
/-! DEFINITION. Operand assembly and the number conversions of the rules (spec/30_encoding.md rule R82,
spec/00_scope.md rule R11), and the bits of a byte in the order of spec/20_memory.md rule R53. -/

namespace Sys2Proof.Machine

open Sys2Proof

/-- The slot number of a slot field, zero-extended (30_encoding R82). -/
def slotIndex (a : SlotNo) : Nat := a.toNat

/-- OPND as an unsigned byte index (30_encoding R82). -/
def byteIndex (opnd : Word32) : Nat := opnd.toNat

/-- `as_i32`: a 32-bit pattern read as two's complement (00_scope R11). -/
def asI32 (w : Word32) : Int := if w.toNat < 2 ^ 31 then (w.toNat : Int) else (w.toNat : Int) - 2 ^ 32

/-- `as_u32`: the 32-bit pattern of an integer (00_scope R11). -/
def asU32 (i : Int) : Word32 := BitVec.ofInt 32 i

/-- A bit as a `u32` (`zext_32`, 41_bitbuffer R102). -/
def bitToWord (b : Bool) : Word32 := if b then 1 else 0

/-- A byte as a `u32` (`zext_32`, 41_bitbuffer R102). -/
def byteToWord (v : Byte) : Word32 := v.setWidth 32

/-- A bit as a byte, 0 or 1. -/
def bitToByte (b : Bool) : Byte := if b then 1 else 0

/-- `v * 2 + b`: the bit `b` shifted in below the bits of `v` (41_bitbuffer R105, R112). -/
def shiftInBit (v : Byte) (b : Bool) : Byte := v * 2 + bitToByte b

/-- The eight bits of a byte, bit 7 first (00_scope R10, 20_memory R53). -/
def byteBits (v : Byte) : Bits :=
  [v.getLsbD 7, v.getLsbD 6, v.getLsbD 5, v.getLsbD 4, v.getLsbD 3, v.getLsbD 2, v.getLsbD 1, v.getLsbD 0]

/-- The four bytes of a 32-bit integer, most significant first (20_memory R52). -/
def wordBytes (w : Word32) : Bytes :=
  [w.extractLsb' 24 8, w.extractLsb' 16 8, w.extractLsb' 8 8, w.extractLsb' 0 8]

/-- The 32-bit pattern of four bytes, most significant first (20_memory R52, 41_bitbuffer R113). -/
def wordOfBytes (b0 b1 b2 b3 : Byte) : Word32 :=
  BitVec.ofNat 32 (b0.toNat * 2 ^ 24 + b1.toNat * 2 ^ 16 + b2.toNat * 2 ^ 8 + b3.toNat)

end Sys2Proof.Machine
end

