-- ==== Sys2Proof/Machine/BitStream.lean ====
section
/-! DEFINITION. The Bit Buffer operations as pure functions on a Bit Buffer state, under the names of the
rules' pseudocode (spec/41_bitbuffer.md rules R101 to R118; spec/10_state.md rule R23). The buffer commands
apply them to a slot, and the transforms to their internal reader and writer (R104). -/

namespace Sys2Proof.Machine

open Sys2Proof

/-- `preloaded(bs)` (10_state R23). -/
def preloaded (bs : Bytes) : BitBuffer where
  data := bs
  pend := 0
  npend := 0
  cursor := 0
  cur := 0
  rem := 0

/-- `bb_append`: the append primitive (41_bitbuffer R101). -/
def bbAppend (st : BitBuffer) (v : Byte) : BitBuffer := { st with data := st.data ++ [v] }

/-- `bb_writeBit` (41_bitbuffer R105). -/
def bbWriteBit (st : BitBuffer) (bit : Bool) : BitBuffer :=
  let p := shiftInBit st.pend bit
  if st.npend + 1 = 8 then bbAppend { st with pend := 0, npend := 0 } p
  else { st with pend := p, npend := st.npend + 1 }

/-- A run of `bb_writeBit`, the first bit first. -/
def bbWriteBits (st : BitBuffer) (bits : Bits) : BitBuffer := bits.foldl bbWriteBit st

/-- `bb_writeByte`: the fast path with nothing pending, else eight bit writes, bit 7 first
(41_bitbuffer R106). -/
def bbWriteByte (st : BitBuffer) (v : Byte) : BitBuffer :=
  if st.npend = 0 then bbAppend st v else bbWriteBits st (byteBits v)

/-- `bb_writeBytes` (41_bitbuffer R107). -/
def bbWriteBytes (st : BitBuffer) (bs : Bytes) : BitBuffer := bs.foldl bbWriteByte st

/-- `bb_writeInt`: four bytes, most significant first (41_bitbuffer R108, 20_memory R52). -/
def bbWriteInt (st : BitBuffer) (w : Word32) : BitBuffer := bbWriteBytes st (wordBytes w)

/-- `bb_flush`: the pending bits, left-justified and padded with zeros, as a final byte
(41_bitbuffer R109). -/
def bbFlush (st : BitBuffer) : BitBuffer :=
  if st.npend = 0 then st
  else bbAppend { st with pend := 0, npend := 0 } (st.pend <<< (8 - st.npend))

/-- `bb_readBit`: the next bit; a fresh byte is pulled when `rem = 0` (41_bitbuffer R110, R111). -/
def bbReadBit (st : BitBuffer) : Except FaultCode (BitBuffer × Bool) :=
  if st.rem = 0 then
    match st.data[st.cursor]? with
    | none => .error .outOfData
    | some v => .ok ({ st with cur := v, cursor := st.cursor + 1, rem := 7 }, v.getLsbD 7)
  else .ok ({ st with rem := st.rem - 1 }, st.cur.getLsbD (st.rem - 1))

/-- `k` bit reads, shifted in after `v` (the splice of 41_bitbuffer R112). -/
def bbReadBitsInto : Nat → BitBuffer → Byte → Except FaultCode (BitBuffer × Byte)
  | 0, st, v => .ok (st, v)
  | k + 1, st, v =>
    match bbReadBit st with
    | .error x => .error x
    | .ok (st', b) => bbReadBitsInto k st' (shiftInBit v b)

/-- `bb_readByte`: the fast path when byte-aligned, else eight bit reads (41_bitbuffer R112). -/
def bbReadByte (st : BitBuffer) : Except FaultCode (BitBuffer × Byte) :=
  if st.rem = 0 then
    match st.data[st.cursor]? with
    | none => .error .outOfData
    | some v => .ok ({ st with cursor := st.cursor + 1 }, v)
  else bbReadBitsInto 8 st 0

/-- `k` byte reads, in order. -/
def bbReadBytes : Nat → BitBuffer → Except FaultCode (BitBuffer × Bytes)
  | 0, st => .ok (st, [])
  | k + 1, st =>
    match bbReadByte st with
    | .error x => .error x
    | .ok (st', v) =>
      match bbReadBytes k st' with
      | .error x => .error x
      | .ok (st'', vs) => .ok (st'', v :: vs)

/-- `bb_readInt`: four byte reads, assembled big-endian and read as an `i32` (41_bitbuffer R113). -/
def bbReadInt (st : BitBuffer) : Except FaultCode (BitBuffer × Int) :=
  match bbReadByte st with
  | .error x => .error x
  | .ok (st1, b0) =>
    match bbReadByte st1 with
    | .error x => .error x
    | .ok (st2, b1) =>
      match bbReadByte st2 with
      | .error x => .error x
      | .ok (st3, b2) =>
        match bbReadByte st3 with
        | .error x => .error x
        | .ok (st4, b3) => .ok (st4, asI32 (wordOfBytes b0 b1 b2 b3))

/-- `bb_resetPosition` (41_bitbuffer R114). -/
def bbResetPosition (st : BitBuffer) : BitBuffer := { st with cursor := 0, rem := 0, cur := 0 }

/-- `bb_isEndOfData`: the read cursor is at the end of `data`, counted in bytes (41_bitbuffer R118). -/
def bbIsEndOfData (st : BitBuffer) : Bool := decide (st.cursor = st.data.length)

end Sys2Proof.Machine
end

