-- ==== Sys2Proof/Machine/Flags.lean ====
section
/-! DEFINITION. The status register: its only flag FAULT, the fault code FCODE, and the reserved bits
(spec/10_state.md rules R27, R31; spec/60_exceptions.md rule R270). No command sets a flag as a side effect
of computing (10_state R31), so these are all the flag rules there are. -/

namespace Sys2Proof.Machine

open Sys2Proof

/-- The number of a fault code (60_exceptions R270). -/
def FaultCode.code : FaultCode → Byte
  | .outOfData => 1
  | .indexRange => 2
  | .format => 3
  | .capacity => 4
  | .illegal => 5

/-- STATUS.FAULT, bit 0 (10_state R27). -/
def statusFault (st : Word32) : Bool := st.getLsbD 0

/-- STATUS.FCODE, bits 15:8 (10_state R27). -/
def statusFcode (st : Word32) : Byte := st.extractLsb' 8 8

/-- The reserved bits 7:1 and 31:16 of STATUS, which are hardwired 0 (10_state R27). -/
def statusReserved (st : Word32) : Word32 := st &&& 0xFFFF00FE

/-- The value a fault writes to STATUS: `(X << 8) | 1` (60_exceptions R271). -/
def faultStatus (x : FaultCode) : Word32 := (x.code.setWidth 32 <<< 8) ||| 1

/-- A fault is recorded: STATUS.FAULT = 1 (10_state R27, R31). -/
def State.faulted (s : State) : Bool := statusFault s.status

end Sys2Proof.Machine
end

