-- ==== Sys2Proof/Machine/Ops.lean ====
section
/-! DEFINITION. The named operations over slots, memory and registers: slot access, MemRead and MemWrite
(spec/20_memory.md rule R51), fault entry and fault return (spec/60_exceptions.md rules R271, R280), and the
execution of a command as one atomic step (spec/30_encoding.md rule R90). -/

namespace Sys2Proof.Machine

open Sys2Proof

/-- The Bit Buffer of slot `n`, for `n` below NSLOT (10_state R20). No command that runs names another number. -/
def State.slot (s : State) (n : Nat) : BitBuffer := (s.slots[n]?).getD BitBuffer.empty

/-- `S[n] <- st` (00_scope R13). Slots are not aliased (10_state R20). -/
def State.setSlot (s : State) (n : Nat) (st : BitBuffer) : State :=
  { s with slots := s.slots.set n st }

/-- `RES <- v` (00_scope R13, 10_state R26). -/
def State.setRes (s : State) (v : Word32) : State := { s with res := v }

/-- MemRead(n, i, 1): the byte at index `i` of slot `n`'s `data`; no value past the end (20_memory R51). -/
def memRead (s : State) (n i : Nat) : Option Byte := (s.slot n).data[i]?

/-- MemWrite(n, i, 1, v): the byte at index `i` replaced, the length unchanged (20_memory R51). -/
def memWrite (s : State) (n i : Nat) (v : Byte) : State :=
  s.setSlot n { s.slot n with data := (s.slot n).data.set i v }

/-- The (index, byte) cells of a slot's space: index `i` holds `data[i]` (20_memory R50). -/
def memCells (s : State) (n : Nat) : List Host.Cell := (s.slot n).data.zipIdx.map fun p => (p.2, p.1)

/-- The form of the memory: no slot's `data` is longer than MAX_LEN (00_scope R7, 10_state R21). A slot's
space has no holes, because `data` is the dense list of its bytes (notes/assumptions/5). -/
def Memory.wf (s : State) (p : Params := Config.params) : Bool :=
  s.slots.all fun st => decide (st.data.length ≤ p.maxLen)

/-- The legal values of a slot's fields (10_state R21, R22). -/
def BitBuffer.wf (st : BitBuffer) (p : Params := Config.params) : Bool :=
  decide (st.data.length ≤ p.maxLen) && decide (st.npend ≤ 7) && decide (st.pend.toNat < 2 ^ st.npend) &&
    decide (st.cursor ≤ st.data.length) && decide (st.rem ≤ 7)

/-- Fault entry: STATUS <- (X << 8) | 1 and FCMD <- the command word; no slot and no RES is written
(60_exceptions R271, 10_state R27, R28). -/
def takeFault (x : FaultCode) (w : Word64) (s : State) : State :=
  { s with status := faultStatus x, fcmd := w }

/-- Fault return: STATUS <- 0, FCMD <- 0, nothing else is restored (60_exceptions R280). -/
def clearFault (s : State) : State := { s with status := 0, fcmd := 0 }

/-- No slot's `data` is longer than `maxLen` (30_encoding R90, the CAPACITY check). -/
def withinCapacity (maxLen : Nat) (s : State) : Bool :=
  s.slots.all fun st => decide (st.data.length ≤ maxLen)

/-- One command as one atomic step, of a core with the parameters `p` (30_encoding R90; 60_exceptions R271 to
R273): discarded while a fault is recorded; ILLEGAL if a used slot field names no slot; the fault its own
rule raises; CAPACITY if the candidate state is too long; else the candidate state is committed.
DEDUCED (notes/assumptions/10): FCMD receives `encode i`, which is the issued word. -/
def runCommand (i : Instr) (body : State → Except FaultCode State) (s : State) (p : Params := Config.params) :
    Host.Outcome State Fault Refusal :=
  if s.faulted then .next s
  else if i.wellFormed p then
    match body s with
    | .error x => .next (takeFault x (encode i) s)
    | .ok s' => if withinCapacity p.maxLen s' then .next s' else .next (takeFault .capacity (encode i) s)
  else .next (takeFault .illegal (encode i) s)

/-- The template of a Bit Buffer operation that returns no value (41_bitbuffer R102). -/
def writeBody (op : BitBuffer → BitBuffer) (a : SlotNo) (s : State) : Except FaultCode State :=
  .ok (s.setSlot (slotIndex a) (op (s.slot (slotIndex a))))

/-- The template of a Bit Buffer operation that returns a value to RES, given as the `u32` it writes
(41_bitbuffer R102). -/
def readBody (op : BitBuffer → Except FaultCode (BitBuffer × Word32)) (a : SlotNo) (s : State) :
    Except FaultCode State :=
  match op (s.slot (slotIndex a)) with
  | .error x => .error x
  | .ok (st, v) => .ok ((s.setSlot (slotIndex a) st).setRes v)

/-- The template of a query: a value to RES, no slot field changes (41_bitbuffer R118, R121). -/
def queryBody (q : BitBuffer → Word32) (a : SlotNo) (s : State) : Except FaultCode State :=
  .ok (s.setRes (q (s.slot (slotIndex a))))

/-- A transform `OP a, b`: the destination becomes `preloaded(f(S[b].data))`; of the source only `data` is
read (30_encoding R90). -/
def transformBody (f : Bytes → Except FaultCode Bytes) (a b : SlotNo) (s : State) : Except FaultCode State :=
  match f (s.slot (slotIndex b)).data with
  | .error x => .error x
  | .ok out => .ok (s.setSlot (slotIndex a) (preloaded out))

end Sys2Proof.Machine
end

