-- ==== Sys2Proof/Machine/BufferCommands.lean ====
section
/-! DEFINITION. The Bit Buffer commands (spec/41_bitbuffer.md): each applies its operation of
`BitStream.lean` to a slot by the templates of rule R102. -/

namespace Sys2Proof.Machine

open Sys2Proof

/-- NEW (41_bitbuffer R100). -/
def execNew (a : SlotNo) (s : State) (p : Params := Config.params) :
    Host.Outcome State Fault Refusal :=
  runCommand (.new a) (writeBody (fun _ => BitBuffer.empty) a) s p

/-- WRBIT (41_bitbuffer R105). -/
def execWrbit (a : SlotNo) (bit : Bool) (s : State) (p : Params := Config.params) :
    Host.Outcome State Fault Refusal :=
  runCommand (.wrbit a bit) (writeBody (fun st => bbWriteBit st bit) a) s p

/-- WRBYTE (41_bitbuffer R106). -/
def execWrbyte (a : SlotNo) (v : Byte) (s : State) (p : Params := Config.params) :
    Host.Outcome State Fault Refusal :=
  runCommand (.wrbyte a v) (writeBody (fun st => bbWriteByte st v) a) s p

/-- The sequence of WRBYTES is `S[b].data` at the start of the command, for a = b too (41_bitbuffer R107). -/
def wrbytesBody (a b : SlotNo) (s : State) : Except FaultCode State :=
  writeBody (fun st => bbWriteBytes st (s.slot (slotIndex b)).data) a s

/-- WRBYTES (41_bitbuffer R107). -/
def execWrbytes (a b : SlotNo) (s : State) (p : Params := Config.params) :
    Host.Outcome State Fault Refusal :=
  runCommand (.wrbytes a b) (wrbytesBody a b) s p

/-- WRINT (41_bitbuffer R108). -/
def execWrint (a : SlotNo) (w : Word32) (s : State) (p : Params := Config.params) :
    Host.Outcome State Fault Refusal :=
  runCommand (.wrint a w) (writeBody (fun st => bbWriteInt st w) a) s p

/-- FLUSH (41_bitbuffer R109). -/
def execFlush (a : SlotNo) (s : State) (p : Params := Config.params) :
    Host.Outcome State Fault Refusal :=
  runCommand (.flush a) (writeBody bbFlush a) s p

/-- The value RDBIT returns: the bit, zero-extended (41_bitbuffer R111). -/
def rdbitValue (st : BitBuffer) : Except FaultCode (BitBuffer × Word32) :=
  match bbReadBit st with
  | .error x => .error x
  | .ok (st', b) => .ok (st', bitToWord b)

/-- RDBIT (41_bitbuffer R111). -/
def execRdbit (a : SlotNo) (s : State) (p : Params := Config.params) :
    Host.Outcome State Fault Refusal :=
  runCommand (.rdbit a) (readBody rdbitValue a) s p

/-- The value RDBYTE returns: the byte, zero-extended (41_bitbuffer R112). -/
def rdbyteValue (st : BitBuffer) : Except FaultCode (BitBuffer × Word32) :=
  match bbReadByte st with
  | .error x => .error x
  | .ok (st', v) => .ok (st', byteToWord v)

/-- RDBYTE (41_bitbuffer R112). -/
def execRdbyte (a : SlotNo) (s : State) (p : Params := Config.params) :
    Host.Outcome State Fault Refusal :=
  runCommand (.rdbyte a) (readBody rdbyteValue a) s p

/-- The value RDINT returns: the 32-bit pattern of the `i32` read (41_bitbuffer R113). -/
def rdintValue (st : BitBuffer) : Except FaultCode (BitBuffer × Word32) :=
  match bbReadInt st with
  | .error x => .error x
  | .ok (st', v) => .ok (st', asU32 v)

/-- RDINT (41_bitbuffer R113). -/
def execRdint (a : SlotNo) (s : State) (p : Params := Config.params) :
    Host.Outcome State Fault Refusal :=
  runCommand (.rdint a) (readBody rdintValue a) s p

/-- RSTPOS (41_bitbuffer R114). -/
def execRstpos (a : SlotNo) (s : State) (p : Params := Config.params) :
    Host.Outcome State Fault Refusal :=
  runCommand (.rstpos a) (writeBody bbResetPosition a) s p

/-- EOD (41_bitbuffer R118). -/
def execEod (a : SlotNo) (s : State) (p : Params := Config.params) :
    Host.Outcome State Fault Refusal :=
  runCommand (.eod a) (queryBody (fun st => bitToWord (bbIsEndOfData st)) a) s p

/-- GETB's rule: INDEX_RANGE past the end, else the byte to RES (41_bitbuffer R119). -/
def getbBody (a : SlotNo) (i : Word32) (s : State) : Except FaultCode State :=
  match memRead s (slotIndex a) (byteIndex i) with
  | none => .error .indexRange
  | some v => .ok (s.setRes (byteToWord v))

/-- GETB (41_bitbuffer R119). -/
def execGetb (a : SlotNo) (i : Word32) (s : State) (p : Params := Config.params) :
    Host.Outcome State Fault Refusal :=
  runCommand (.getb a i) (getbBody a i) s p

/-- SETB's rule: INDEX_RANGE past the end, else the byte replaced (41_bitbuffer R120). -/
def setbBody (a : SlotNo) (i : Word32) (v : Byte) (s : State) : Except FaultCode State :=
  match memRead s (slotIndex a) (byteIndex i) with
  | none => .error .indexRange
  | some _ => .ok (memWrite s (slotIndex a) (byteIndex i) v)

/-- SETB (41_bitbuffer R120). -/
def execSetb (a : SlotNo) (i : Word32) (v : Byte) (s : State) (p : Params := Config.params) :
    Host.Outcome State Fault Refusal :=
  runCommand (.setb a i v) (setbBody a i v) s p

/-- LEN (41_bitbuffer R121). -/
def execLen (a : SlotNo) (s : State) (p : Params := Config.params) :
    Host.Outcome State Fault Refusal :=
  runCommand (.len a) (queryBody (fun st => BitVec.ofNat 32 st.data.length) a) s p

end Sys2Proof.Machine
end

