-- ==== Sys2Proof/Machine/Bwt.lean ====
section
/-! DEFINITION. The BWT engine (spec/42_bwt.md): the forward transform (rules R150 to R155), the inverse
(rules R156 to R159), and the commands BWT and IBWT. -/

namespace Sys2Proof.Machine

open Sys2Proof

/-- `rot(s)`: the cyclic rotation of `x` that starts at offset `s` (42_bwt R151). -/
def rotation (x : Bytes) (s : Nat) : Bytes :=
  (List.range x.length).map fun k => x.getD ((s + k) % x.length) 0

/-- Lexicographic order of byte sequences of one length, bytes compared as unsigned values: the first
difference decides, and equal sequences are in order (42_bwt R151). -/
def lexLe : Bytes → Bytes → Bool
  | [], _ => true
  | _ :: _, [] => false
  | u :: us, v :: vs => if u.toNat < v.toNat then true else if v.toNat < u.toNat then false else lexLe us vs

/-- `order`: the offsets 0 to n - 1 in the stable sort by rotation, so that tied rotations stand in the
order of their offsets (42_bwt R150 to R152). Insertion sort is stable; any sort with the same output would
do (R155). -/
def bwtOrder (x : Bytes) : List Nat :=
  (List.range x.length).insertionSort fun s t => lexLe (rotation x s) (rotation x t) = true

/-- `startIndex`: the position of offset 0 in `order` (42_bwt R153). -/
def bwtStart (x : Bytes) : Nat := (bwtOrder x).idxOf 0

/-- The transform column: the last byte of each sorted rotation (42_bwt R150, R154). -/
def bwtColumn (x : Bytes) : Bytes :=
  (bwtOrder x).map fun o => x.getD ((o + x.length - 1) % x.length) 0

/-- `bwt(x)` (42_bwt R150): startIndex as a 4-byte integer, then the transform column. For the empty input
the integer is 0 and the column empty (R153, 90_conflicts C3). -/
def bwt (x : Bytes) : Bytes :=
  if x.length = 0 then (bbFlush (bbWriteInt BitBuffer.empty 0)).data
  else
    (bbFlush (bbWriteBytes (bbWriteInt BitBuffer.empty (BitVec.ofNat 32 (bwtStart x))) (bwtColumn x))).data

/-- The inverse's list of (original position, byte) pairs, in read order (42_bwt R156, R157). -/
def ibwtPairs (bytes : Bytes) : List (Nat × Byte) := bytes.zipIdx.map fun p => (p.2, p.1)

/-- The pairs sorted by byte value only, ties in read order: insertion sort is stable (42_bwt R157). -/
def ibwtSorted (bytes : Bytes) : List (Nat × Byte) :=
  (ibwtPairs bytes).insertionSort fun p q => p.2.toNat ≤ q.2.toNat

/-- The reconstruction loop, run exactly `k` times (42_bwt R158, 90_conflicts C1). Every index it follows is
a position of the table, so the default pair is never used. -/
def ibwtChase (sorted : List (Nat × Byte)) : Nat → Nat → Bytes
  | 0, _ => []
  | k + 1, next => (sorted.getD next (0, 0)).2 :: ibwtChase sorted k (sorted.getD next (0, 0)).1

/-- `ibwt(bs)` (42_bwt R156, R159). -/
def ibwt (bs : Bytes) : Except FaultCode Bytes :=
  match bbReadInt (preloaded bs) with
  | .error x => .error x
  | .ok (inp, start) =>
    if bs.length - 4 = 0 then .ok []
    else
      match bbReadBytes (bs.length - 4) inp with
      | .error x => .error x
      | .ok (_, bytes) =>
        if start < 0 ∨ (bs.length - 4 : Nat) ≤ start then .error .format
        else
          .ok (bbFlush (bbWriteBytes BitBuffer.empty
            (ibwtChase (ibwtSorted bytes) (bs.length - 4) start.toNat))).data

/-- BWT (42_bwt R150). -/
def execBwt (a b : SlotNo) (s : State) (p : Params := Config.params) :
    Host.Outcome State Fault Refusal :=
  runCommand (.bwt a b) (transformBody (fun x => .ok (bwt x)) a b) s p

/-- IBWT (42_bwt R156). -/
def execIbwt (a b : SlotNo) (s : State) (p : Params := Config.params) :
    Host.Outcome State Fault Refusal :=
  runCommand (.ibwt a b) (transformBody ibwt a b) s p

end Sys2Proof.Machine
end

