-- ==== Sys2Proof/Machine/Control.lean ====
section
/-! DEFINITION. The control command CLRF (spec/60_exceptions.md rule R280). -/

namespace Sys2Proof.Machine

open Sys2Proof

/-- CLRF: the only command accepted while a fault is recorded; with none recorded it changes nothing
visible (60_exceptions R272, R280). -/
def execClrf (s : State) : Host.Outcome State Fault Refusal := .next (clearFault s)

end Sys2Proof.Machine
end

