-- ==== Sys2Proof/Machine/Huffman.lean ====
section
/-! DEFINITION. The Huffman unit (spec/44_huffman.md): frequencies and tree building (rules R201 to R203),
serialization and codes (R204, R205), parsing and symbol decoding (R206, R207), compress and expand (R208,
R209, R212, R213), and the commands HUFC and HUFX. -/

namespace Sys2Proof.Machine

open Sys2Proof

/-- `freq[v]` (44_huffman R201). -/
def hufFreq (x : Bytes) (v : Byte) : Nat := x.count v

/-- The byte values with `freq[v] > 0`, ascending (44_huffman R202). -/
def hufAlphabet (x : Bytes) : Bytes :=
  ((List.range 256).map (BitVec.ofNat 8)).filter fun v => decide (0 < hufFreq x v)

/-- The queue at the start: one leaf for each value of the alphabet, seq in ascending value
(44_huffman R203). -/
def hufLeaves (x : Bytes) : List QEntry :=
  (hufAlphabet x).zipIdx.map fun p => ⟨hufFreq x p.1, p.2, .leaf p.1⟩

/-- `e₁` leaves the queue before `e₂`: the smaller frequency first, then the tie order
(44_huffman R203). -/
def hufBefore (tie : TieOrder) (e₁ e₂ : QEntry) : Bool :=
  decide (e₁.freq < e₂.freq) || (decide (e₁.freq = e₂.freq) && tie.before e₁ e₂)

/-- Remove the least element of the queue (44_huffman R203). -/
def hufTakeLeast (tie : TieOrder) : List QEntry → Option (QEntry × List QEntry)
  | [] => none
  | e :: es =>
    match hufTakeLeast tie es with
    | none => some (e, [])
    | some (m, rest) => if hufBefore tie m e then some (m, e :: rest) else some (e, es)

/-- The parent of the two dequeued nodes, with the summed frequency and the next seq (44_huffman R203). -/
def hufParent (tie : TieOrder) (n1 n2 : QEntry) (nextSeq : Nat) : QEntry :=
  ⟨n1.freq + n2.freq, nextSeq,
    if tie.firstIsLeft then .internal n1.node n2.node else .internal n2.node n1.node⟩

/-- The building loop: while two elements are left, dequeue two and enqueue their parent. It runs once for
each element of the queue at most, so the queue's length is `fuel` enough (44_huffman R203). -/
def hufMerge (tie : TieOrder) : Nat → Nat → List QEntry → Option HufTree
  | 0, _, _ => none
  | fuel + 1, nextSeq, q =>
    match hufTakeLeast tie q with
    | none => none
    | some (n1, q1) =>
      match hufTakeLeast tie q1 with
      | none => some n1.node
      | some (n2, q2) => hufMerge tie fuel (nextSeq + 1) (q2 ++ [hufParent tie n1 n2 nextSeq])

/-- `build(freq)` under a tie order; an empty input has no tree (44_huffman R202, R203, R209). -/
def hufBuild (tie : TieOrder) (x : Bytes) : Option HufTree :=
  hufMerge tie (hufLeaves x).length (hufLeaves x).length (hufLeaves x)

/-- `serialize` (44_huffman R204). -/
def hufSerialize : BitBuffer → HufTree → BitBuffer
  | out, .leaf v => bbWriteByte (bbWriteBit out true) v
  | out, .internal l r => hufSerialize (hufSerialize (bbWriteBit out false) l) r

/-- `codes`: the code table, by a depth-first walk; 0 descends left, 1 right (44_huffman R205). -/
def hufCodes : HufTree → Bits → List (Byte × Bits)
  | .leaf v, p => [(v, p)]
  | .internal l r, p => hufCodes l (p ++ [false]) ++ hufCodes r (p ++ [true])

/-- `code[v]`: defined for the leaves' values, which are the bytes of the input (44_huffman R205). -/
def hufCode (root : HufTree) (v : Byte) : Bits := ((hufCodes root []).lookup v).getD []

/-- `huf_compress(x)` under a tie order, this hardware's where none is given (44_huffman R208, R209). The empty
input has no tree and gives the length alone. -/
def hufCompress (x : Bytes) (tie : TieOrder := Config.hufTieOrder) : Bytes :=
  match hufBuild tie x with
  | none => (bbFlush (bbWriteInt BitBuffer.empty (BitVec.ofNat 32 x.length))).data
  | some root =>
    (bbFlush (x.foldl (fun out v => bbWriteBits out (hufCode root v))
      (hufSerialize (bbWriteInt BitBuffer.empty (BitVec.ofNat 32 x.length)) root))).data

/-- `parse` (44_huffman R206), to a depth of `fuel`. Every level reads a bit, so no tree is deeper than the
bits of the input, and a parse that is cut off has run out of data (notes/assumptions/13). -/
def hufParse : Nat → BitBuffer → Except FaultCode (BitBuffer × HufTree)
  | 0, _ => .error .outOfData
  | fuel + 1, inp =>
    match bbReadBit inp with
    | .error x => .error x
    | .ok (inp1, true) =>
      match bbReadByte inp1 with
      | .error x => .error x
      | .ok (inp2, v) => .ok (inp2, .leaf v)
    | .ok (inp1, false) =>
      match hufParse fuel inp1 with
      | .error x => .error x
      | .ok (inp2, l) =>
        match hufParse fuel inp2 with
        | .error x => .error x
        | .ok (inp3, r) => .ok (inp3, .internal l r)

/-- A depth that no parse of `bs` exceeds: one more than the bits of `bs` (44_huffman R206). -/
def hufParseFuel (bs : Bytes) : Nat := 8 * bs.length + 1

/-- `decode_symbol`: descend right on 1, left on 0, to a leaf (44_huffman R207). -/
def hufDecodeSymbol : HufTree → BitBuffer → Except FaultCode (BitBuffer × Byte)
  | .leaf v, inp => .ok (inp, v)
  | .internal l r, inp =>
    match bbReadBit inp with
    | .error x => .error x
    | .ok (inp1, bit) => if bit then hufDecodeSymbol r inp1 else hufDecodeSymbol l inp1

/-- The symbol loop: `k` symbols decoded from `inp` and appended to `out` (44_huffman R212). -/
def hufDecodeLoop (root : HufTree) : Nat → BitBuffer → BitBuffer → Except FaultCode BitBuffer
  | 0, _, out => .ok out
  | k + 1, inp, out =>
    match hufDecodeSymbol root inp with
    | .error x => .error x
    | .ok (inp1, v) => hufDecodeLoop root k inp1 (bbWriteByte out v)

/-- `huf_expand(bs)` (44_huffman R212, R213). Bits after the last symbol are ignored. -/
def hufExpand (bs : Bytes) : Except FaultCode Bytes :=
  match bbReadInt (preloaded bs) with
  | .error x => .error x
  | .ok (inp, length) =>
    if length < 0 then .error .format
    else if length = 0 then .ok []
    else
      match hufParse (hufParseFuel bs) inp with
      | .error x => .error x
      | .ok (inp1, root) =>
        match hufDecodeLoop root length.toNat inp1 BitBuffer.empty with
        | .error x => .error x
        | .ok out => .ok (bbFlush out).data

/-- HUFC (44_huffman R208). -/
def execHufc (a b : SlotNo) (s : State) (p : Params := Config.params) :
    Host.Outcome State Fault Refusal :=
  runCommand (.hufc a b) (transformBody (fun x => .ok (hufCompress x p.tieOrder)) a b) s p

/-- HUFX (44_huffman R212). -/
def execHufx (a b : SlotNo) (s : State) (p : Params := Config.params) :
    Host.Outcome State Fault Refusal :=
  runCommand (.hufx a b) (transformBody hufExpand a b) s p

end Sys2Proof.Machine
end

