-- ==== Sys2Proof/Machine/Mtf.lean ====
section
/-! DEFINITION. The MTF unit (spec/43_mtf.md): the recency list (rules R180, R183), encode and decode (rules
R181, R182), and the commands MTFE and MTFD. -/

namespace Sys2Proof.Machine

open Sys2Proof

/-- The recency list at the start of every command: the identity of 0 to 255 (43_mtf R180). -/
def mtfIdentity : Bytes := (List.range 256).map (BitVec.ofNat 8)

/-- `mtf_move`: the entry at `c` moves to the front, those before it one place right (43_mtf R183). -/
def mtfMove (arr : Bytes) (c : Nat) : Bytes := arr.getD c 0 :: (arr.take c ++ arr.drop (c + 1))

/-- The indices MTFE emits from the list `arr` on: for each byte, its least index (43_mtf R181). -/
def mtfIndices : Bytes → Bytes → Bytes
  | _, [] => []
  | arr, v :: vs => BitVec.ofNat 8 (arr.idxOf v) :: mtfIndices (mtfMove arr (arr.idxOf v)) vs

/-- `mtf_encode(x)` (43_mtf R181). -/
def mtfEncode (x : Bytes) : Bytes :=
  (bbFlush (bbWriteBytes BitBuffer.empty (mtfIndices mtfIdentity x))).data

/-- The bytes MTFD emits from the list `arr` on: for each index, the entry there (43_mtf R182). -/
def mtfEntries : Bytes → Bytes → Bytes
  | _, [] => []
  | arr, c :: cs => arr.getD c.toNat 0 :: mtfEntries (mtfMove arr c.toNat) cs

/-- `mtf_decode(y)` (43_mtf R182). -/
def mtfDecode (y : Bytes) : Bytes :=
  (bbFlush (bbWriteBytes BitBuffer.empty (mtfEntries mtfIdentity y))).data

/-- MTFE (43_mtf R181). -/
def execMtfe (a b : SlotNo) (s : State) (p : Params := Config.params) :
    Host.Outcome State Fault Refusal :=
  runCommand (.mtfe a b) (transformBody (fun x => .ok (mtfEncode x)) a b) s p

/-- MTFD (43_mtf R182). -/
def execMtfd (a b : SlotNo) (s : State) (p : Params := Config.params) :
    Host.Outcome State Fault Refusal :=
  runCommand (.mtfd a b) (transformBody (fun y => .ok (mtfDecode y)) a b) s p

end Sys2Proof.Machine
end

