-- ==== Sys2Proof/Machine/Rle.lean ====
section
/-! DEFINITION. The RLE unit (spec/45_rle.md): the block header (rule R240), grouping, merging and splitting
(R241 to R243), encode (R244), decode (R245, R246), and the commands RLEE and RLED. -/

namespace Sys2Proof.Machine

open Sys2Proof

/-- The largest count of a block (45_rle R240, 00_scope R8). -/
def rleMaxBlock : Nat := 16383

/-- A maximal run of equal consecutive bytes (45_rle R241). -/
structure RleGroup where
  start : Nat
  len : Nat
  val : Byte
deriving DecidableEq, Repr

/-- A span of the input with its repeating-run flag: a repeating group, a literal span, or one block of
either (45_rle R242, R243). -/
structure RleSpan where
  start : Nat
  count : Nat
  rep : Bool
deriving DecidableEq, Repr

/-- The maximal runs of the input from position `p` on (45_rle R241). -/
def rleGroups : Nat → Bytes → List RleGroup
  | _, [] => []
  | p, v :: vs =>
    match rleGroups (p + 1) vs with
    | [] => [⟨p, 1, v⟩]
    | g :: gs => if g.val = v then ⟨p, g.len + 1, v⟩ :: gs else ⟨p, 1, v⟩ :: g :: gs

/-- A group longer than 2 is a repeating span, and consecutive shorter groups merge into one literal span
(45_rle R241, R242). -/
def rleSpans : List RleGroup → List RleSpan
  | [] => []
  | g :: gs =>
    if 2 < g.len then ⟨g.start, g.len, true⟩ :: rleSpans gs
    else
      match rleSpans gs with
      | [] => [⟨g.start, g.len, false⟩]
      | sp :: sps =>
        if sp.rep then ⟨g.start, g.len, false⟩ :: sp :: sps
        else ⟨g.start, g.len + sp.count, false⟩ :: sps

/-- A span of L bytes as ceil(L / 16383) blocks with its flag, full blocks first (45_rle R243). -/
def rleSplit (sp : RleSpan) : List RleSpan :=
  (List.range ((sp.count + (rleMaxBlock - 1)) / rleMaxBlock)).map fun k =>
    ⟨sp.start + rleMaxBlock * k, min rleMaxBlock (sp.count - rleMaxBlock * k), sp.rep⟩

/-- The blocks of the input, in input order (45_rle R241 to R243). -/
def rleBlocks (x : Bytes) : List RleSpan := (rleSpans (rleGroups 0 x)).flatMap rleSplit

/-- `rle_header`: one byte for a count up to 63, else two (45_rle R240). -/
def rleHeader (out : BitBuffer) (c : Nat) (rep : Bool) : BitBuffer :=
  let flag : Nat := if rep then 0x80 else 0
  if c ≤ 63 then bbWriteByte out (BitVec.ofNat 8 (flag + c))
  else bbWriteByte (bbWriteByte out (BitVec.ofNat 8 (flag + 0x40 + c / 256))) (BitVec.ofNat 8 (c % 256))

/-- One block of the output: its header, then the repeated byte or the literal bytes (45_rle R244). -/
def rleEmit (x : Bytes) (out : BitBuffer) (blk : RleSpan) : BitBuffer :=
  let out1 := rleHeader out blk.count blk.rep
  if blk.rep then bbWriteByte out1 (x.getD blk.start 0)
  else bbWriteBytes out1 ((List.range blk.count).map fun k => x.getD (blk.start + k) 0)

/-- `rle_encode(x)` (45_rle R244). -/
def rleEncode (x : Bytes) : Bytes := (bbFlush ((rleBlocks x).foldl (rleEmit x) BitBuffer.empty)).data

/-- The count of a block: from the header byte `h`, and for a large block a second byte
(45_rle R240, R245). -/
def rleReadCount (h : Byte) (inp : BitBuffer) : Except FaultCode (BitBuffer × Nat) :=
  if h.getLsbD 6 then
    match bbReadByte inp with
    | .error x => .error x
    | .ok (inp1, lo) => .ok (inp1, (h.extractLsb' 0 6).toNat * 256 + lo.toNat)
  else .ok (inp, (h.extractLsb' 0 6).toNat)

/-- The bytes of a block: a repeated byte `c` times, read even for c = 0, or `c` literal bytes
(45_rle R245, R246). -/
def rleReadBlock (rep : Bool) (c : Nat) (inp : BitBuffer) : Except FaultCode (BitBuffer × Bytes) :=
  if rep then
    match bbReadByte inp with
    | .error x => .error x
    | .ok (inp1, v) => .ok (inp1, List.replicate c v)
  else bbReadBytes c inp

/-- The decoding loop of 45_rle R245. Every round reads a byte, so the input's length is `fuel` enough
(notes/assumptions/13). -/
def rleDecodeLoop : Nat → BitBuffer → BitBuffer → Except FaultCode BitBuffer
  | 0, inp, out => if bbIsEndOfData inp then .ok out else .error .outOfData
  | fuel + 1, inp, out =>
    if bbIsEndOfData inp then .ok out
    else
      match bbReadByte inp with
      | .error x => .error x
      | .ok (inp1, h) =>
        match rleReadCount h inp1 with
        | .error x => .error x
        | .ok (inp2, c) =>
          match rleReadBlock (h.getLsbD 7) c inp2 with
          | .error x => .error x
          | .ok (inp3, vs) => rleDecodeLoop fuel inp3 (bbWriteBytes out vs)

/-- `rle_decode(bs)` (45_rle R245). -/
def rleDecode (bs : Bytes) : Except FaultCode Bytes :=
  match rleDecodeLoop bs.length (preloaded bs) BitBuffer.empty with
  | .error x => .error x
  | .ok out => .ok (bbFlush out).data

/-- RLEE (45_rle R244). -/
def execRlee (a b : SlotNo) (s : State) (p : Params := Config.params) :
    Host.Outcome State Fault Refusal :=
  runCommand (.rlee a b) (transformBody (fun x => .ok (rleEncode x)) a b) s p

/-- RLED (45_rle R245). -/
def execRled (a b : SlotNo) (s : State) (p : Params := Config.params) :
    Host.Outcome State Fault Refusal :=
  runCommand (.rled a b) (transformBody rleDecode a b) s p

end Sys2Proof.Machine
end

