-- ==== Sys2Proof/Machine/Dispatch.lean ====
section
/-! DEFINITION. The meaning of every command: one arm per constructor (spec/30_encoding.md rule R83). -/

namespace Sys2Proof.Machine

open Sys2Proof

/-- What issuing the command `i` does to the core (30_encoding R90). -/
def exec (i : Instr) (s : State) : Host.Outcome State Fault Refusal :=
  match i with
  | .new a => Sys2Proof.Machine.execNew a s
  | .wrbit a bit => Sys2Proof.Machine.execWrbit a bit s
  | .wrbyte a v => Sys2Proof.Machine.execWrbyte a v s
  | .wrbytes a b => Sys2Proof.Machine.execWrbytes a b s
  | .wrint a w => Sys2Proof.Machine.execWrint a w s
  | .flush a => Sys2Proof.Machine.execFlush a s
  | .rdbit a => Sys2Proof.Machine.execRdbit a s
  | .rdbyte a => Sys2Proof.Machine.execRdbyte a s
  | .rdint a => Sys2Proof.Machine.execRdint a s
  | .rstpos a => Sys2Proof.Machine.execRstpos a s
  | .eod a => Sys2Proof.Machine.execEod a s
  | .getb a k => Sys2Proof.Machine.execGetb a k s
  | .setb a k v => Sys2Proof.Machine.execSetb a k v s
  | .len a => Sys2Proof.Machine.execLen a s
  | .bwt a b => Sys2Proof.Machine.execBwt a b s
  | .ibwt a b => Sys2Proof.Machine.execIbwt a b s
  | .mtfe a b => Sys2Proof.Machine.execMtfe a b s
  | .mtfd a b => Sys2Proof.Machine.execMtfd a b s
  | .hufc a b => Sys2Proof.Machine.execHufc a b s
  | .hufx a b => Sys2Proof.Machine.execHufx a b s
  | .rlee a b => Sys2Proof.Machine.execRlee a b s
  | .rled a b => Sys2Proof.Machine.execRled a b s
  | .clrf => Sys2Proof.Machine.execClrf s

end Sys2Proof.Machine
end

