-- ==== Sys2Proof/Machine/ExecFor.lean ====
section
/-! DEFINITION. The meaning of every command on a core with the parameters `p` (spec/00_scope.md rules R6, R7;
spec/92_eei_decisions.md, "Parameters a model takes as arguments"). `exec` is its instance at this hardware's
parameters. -/

namespace Sys2Proof.Machine

open Sys2Proof

/-- What issuing the command `i` does to a core with the parameters `p` (30_encoding R90). -/
def execFor (p : Params) (i : Instr) (s : State) : Host.Outcome State Fault Refusal :=
  match i with
  | .new a => execNew a s p
  | .wrbit a bit => execWrbit a bit s p
  | .wrbyte a v => execWrbyte a v s p
  | .wrbytes a b => execWrbytes a b s p
  | .wrint a w => execWrint a w s p
  | .flush a => execFlush a s p
  | .rdbit a => execRdbit a s p
  | .rdbyte a => execRdbyte a s p
  | .rdint a => execRdint a s p
  | .rstpos a => execRstpos a s p
  | .eod a => execEod a s p
  | .getb a k => execGetb a k s p
  | .setb a k v => execSetb a k v s p
  | .len a => execLen a s p
  | .bwt a b => execBwt a b s p
  | .ibwt a b => execIbwt a b s p
  | .mtfe a b => execMtfe a b s p
  | .mtfd a b => execMtfd a b s p
  | .hufc a b => execHufc a b s p
  | .hufx a b => execHufx a b s p
  | .rlee a b => execRlee a b s p
  | .rled a b => execRled a b s p
  | .clrf => execClrf s

end Sys2Proof.Machine
end

