-- ==== Sys2Proof/Machine/HostActions.lean ====
section
/-! DEFINITION. The host's actions on the core (spec/20_memory.md rules R54 to R56, spec/70_reset_and_hazards.md
rule R300), and the fetch of the next one from the host's queue. -/

namespace Sys2Proof.Machine

open Sys2Proof

/-- ISSUE(w): a legal word runs its command; any other word raises ILLEGAL, or is discarded while a fault is
recorded (30_encoding R86, R90; 60_exceptions R272). The command index advances in every case
(10_state R30). -/
def issue (w : Word64) (s : State) (p : Params := Config.params) : Host.Outcome State Fault Refusal :=
  let s1 := { s with issued := s.issued + 1 }
  match decode w p with
  | some i => execFor p i s1
  | none => if s1.faulted then .next s1 else .next (takeFault .illegal w s1)

/-- The value of a register as the host reads it; the reserved bits of STATUS read 0
(10_state R26 to R28, 20_memory R56). -/
def regValue (r : HostReg) (s : State) : HostReply :=
  match r with
  | .res => .word s.res
  | .status => .word (s.status &&& 0x0000FF01)
  | .fcmd => .command s.fcmd

/-- READREG: the value is returned and the core does not change (20_memory R56). -/
def readReg (r : HostReg) (s : State) : Host.Outcome State Fault Refusal :=
  .next { s with hostReply := regValue r s }

/-- RESET: the core as after power-on (70_reset R300). DESIGN CHOICE (notes/assumptions/4; safe): the host's own
side keeps its place. -/
def hostReset (s : State) (p : Params := Config.params) : Host.Outcome State Fault Refusal :=
  .next { State.resetFor p with hostQueue := s.hostQueue, hostReply := s.hostReply, issued := s.issued }

/-- HOST_LOAD(a, bs), within its contract (20_memory R54). -/
def hostLoad (a : Nat) (bs : Bytes) (s : State) (p : Params := Config.params) :
    Host.Outcome State Fault Refusal :=
  if a < p.nslot ∧ bs.length ≤ p.maxLen then .next (s.setSlot a (preloaded bs))
  else .refused .hostLoadOutsideContract

/-- HOST_READ(a), within its contract: `data` is returned, without the pending bits (20_memory R55). -/
def hostRead (a : Nat) (s : State) (p : Params := Config.params) : Host.Outcome State Fault Refusal :=
  if a < p.nslot then .next { s with hostReply := .bytes (s.slot a).data }
  else .refused .hostReadOutsideContract

/-- One host action (20_memory R56). -/
def hostAct (act : HostAction) (s : State) (p : Params := Config.params) : Host.Outcome State Fault Refusal :=
  match act with
  | .issue w => issue w s p
  | .readReg r => readReg r s
  | .reset => hostReset s p
  | .load a bs => hostLoad a bs s p
  | .read a => hostRead a s p

/-- The host's next action and the state with it taken from the queue; none when the host has not acted
(20_memory R56, R63; notes/assumptions/1). -/
def nextAction (s : State) : Option (HostAction × State) :=
  match s.hostQueue with
  | [] => none
  | act :: rest => some (act, { s with hostQueue := rest })

end Sys2Proof.Machine
end

