-- ==== Sys2Proof/Machine/Step.lean ====
section
/-! DEFINITION. One step of the machine: the host's next action (spec/20_memory.md rules R56, R63). -/

namespace Sys2Proof.Machine

open Sys2Proof

/-- One step of a core with the parameters `p`: the host's next action is taken whole. With no action pending
the core is idle and keeps its state (60_exceptions R288, 70_reset R301; 00_scope R6, R7). -/
def stepFor (p : Params) (s : State) : Host.Outcome State Fault Refusal :=
  match nextAction s with
  | none => .next s
  | some (act, s') => hostAct act s' p

/-- One step of this hardware: NSLOT = 4, MAX_LEN = 2^31 - 1 and its own tie order (00_scope R6, R7). -/
def step (s : State) : Host.Outcome State Fault Refusal := stepFor Config.params s

/-- The state in which the host's next action is ISSUE of the word `w` (20_memory R56). The core fetches
nothing (10_state R30), so this stands for the host handing the word over (notes/assumptions/1). -/
def State.withFetchWord (s : State) (nbits w : Nat) : State :=
  { s with hostQueue := .issue (BitVec.ofNat 64 (w % 2 ^ nbits)) :: s.hostQueue }

end Sys2Proof.Machine
end

