-- ==== Sys2Proof/Machine/Assembler.lean ====
section
/-! DEFINITION. The assembler of the spec's listings (spec/30_encoding.md rules R91 to R93): a line of text,
as its characters, becomes the host actions it stands for. It is the host's tool and no part of a step. -/

namespace Sys2Proof.Machine

open Sys2Proof

/-- An operand of a listing: a slot `s<n>` or a number (30_encoding R91). -/
inductive AsmOperand where
  | slot (n : Nat)
  | num (z : Int)
deriving DecidableEq, Repr

/-- A blank of a line. -/
def asmBlank (c : Char) : Bool := c == ' ' || c == '\t'

/-- The text without blanks at its two ends. -/
def asmTrim (cs : List Char) : List Char := ((cs.dropWhile asmBlank).reverse.dropWhile asmBlank).reverse

/-- The text before a comment: a `;` outside a quoted string starts one (30_encoding R91). The spec gives no way
to write a double quote inside a string. DESIGN CHOICE (notes/assumptions/14; safe): there is no escape, and every
double quote opens or closes a string here. -/
def asmUncomment : Bool → List Char → List Char
  | _, [] => []
  | quoted, c :: cs =>
    if c = ';' ∧ quoted = false then [] else c :: asmUncomment (if c = '"' then !quoted else quoted) cs

/-- The parts of a text between the commas (30_encoding R91). -/
def asmSplit : List Char → List (List Char)
  | [] => [[]]
  | c :: cs =>
    if c = ',' then [] :: asmSplit cs
    else
      match asmSplit cs with
      | [] => [[c]]
      | p :: ps => (c :: p) :: ps

/-- The numerals of a listing's numbers, in the order of their values (30_encoding R91). -/
def asmNumerals : List Char := "0123456789abcdef".toList

/-- The value of a numeral, its place among the first `base` of them; a capital letter counts as its small one
(notes/assumptions/14). -/
def asmDigit (base : Nat) (c : Char) : Option Nat := (asmNumerals.take base).findIdx? (· == c.toLower)

/-- The number that digits after `acc` denote. -/
def asmDigits (base : Nat) : Nat → List Char → Option Nat
  | acc, [] => some acc
  | acc, c :: cs =>
    match asmDigit base c with
    | none => none
    | some d => asmDigits base (acc * base + d) cs

/-- A number in decimal or `0x` hexadecimal (30_encoding R91). -/
def asmNat : List Char → Option Nat
  | [] => none
  | '0' :: 'x' :: c :: cs => asmDigits 16 0 (c :: cs)
  | c :: cs => asmDigits 10 0 (c :: cs)

/-- An operand (30_encoding R91). -/
def asmOperand (cs : List Char) : Option AsmOperand :=
  match asmTrim cs with
  | 's' :: ds => (asmDigits 10 0 ds).bind fun n => if ds.length = 0 then none else some (.slot n)
  | '-' :: ds => (asmNat ds).map fun n => .num (-(n : Int))
  | ds => (asmNat ds).map fun n => .num n

/-- A slot operand, `s0` to `s15` (30_encoding R91). Whether it names a slot is the decoder's check. -/
def asmSlot : AsmOperand → Option SlotNo
  | .slot n => if n < 16 then some (BitVec.ofNat 4 n) else none
  | .num _ => none

/-- A number operand from `lo` to `hi`. -/
def asmNum (lo hi : Int) : AsmOperand → Option Int
  | .num z => if lo ≤ z ∧ z ≤ hi then some z else none
  | .slot _ => none

/-- The bit of WRBIT (30_encoding R91). -/
def asmBit (o : AsmOperand) : Option Bool := (asmNum 0 1 o).map fun z => decide (z = 1)

/-- A byte operand, 0 to 255 (30_encoding R91). -/
def asmByte (o : AsmOperand) : Option Byte := (asmNum 0 255 o).map fun z => BitVec.ofInt 8 z

/-- The integer of WRINT; a negative value is encoded as `as_u32` (30_encoding R91). -/
def asmInt (o : AsmOperand) : Option Word32 := (asmNum (-2147483648) 4294967295 o).map asU32

/-- The index of GETB and SETB (30_encoding R91). -/
def asmIndex (o : AsmOperand) : Option Word32 := (asmNum 0 4294967295 o).map asU32

/-- A command with one slot operand. -/
def asmOneSlot (f : SlotNo → Instr) : List AsmOperand → Option (List Instr)
  | [x] => (asmSlot x).map fun a => [f a]
  | _ => none

/-- A command with a slot and an operand read by `p`. -/
def asmSlotAnd {α : Type} (p : AsmOperand → Option α) (f : SlotNo → α → Instr) :
    List AsmOperand → Option (List Instr)
  | [x, y] =>
    match asmSlot x, p y with
    | some a, some v => some [f a v]
    | _, _ => none
  | _ => none

/-- SETB sA, index, byte (30_encoding R91). -/
def asmSetb : List AsmOperand → Option (List Instr)
  | [x, y, z] =>
    match asmSlot x, asmIndex y, asmByte z with
    | some a, some i, some v => some [.setb a i v]
    | _, _, _ => none
  | _ => none

/-- The pseudo-instruction COPY sD, sS: NEW sD and WRBYTES sD, sS, refused for D = S (30_encoding R92). -/
def copyCommands (d sNo : SlotNo) : Option (List Instr) :=
  if d = sNo then none else some [.new d, .wrbytes d sNo]

/-- COPY's operands (30_encoding R92). -/
def asmCopy : List AsmOperand → Option (List Instr)
  | [x, y] =>
    match asmSlot x, asmSlot y with
    | some d, some sNo => copyCommands d sNo
    | _, _ => none
  | _ => none

/-- The forms of the commands, by mnemonic (30_encoding R91, R92). A transform's destination is first. -/
def asmForms : List (List Char × (List AsmOperand → Option (List Instr))) :=
  [(['N', 'E', 'W'], asmOneSlot .new),
    (['W', 'R', 'B', 'I', 'T'], asmSlotAnd asmBit .wrbit),
    (['W', 'R', 'B', 'Y', 'T', 'E'], asmSlotAnd asmByte .wrbyte),
    (['W', 'R', 'B', 'Y', 'T', 'E', 'S'], asmSlotAnd asmSlot .wrbytes),
    (['W', 'R', 'I', 'N', 'T'], asmSlotAnd asmInt .wrint),
    (['F', 'L', 'U', 'S', 'H'], asmOneSlot .flush),
    (['R', 'D', 'B', 'I', 'T'], asmOneSlot .rdbit),
    (['R', 'D', 'B', 'Y', 'T', 'E'], asmOneSlot .rdbyte),
    (['R', 'D', 'I', 'N', 'T'], asmOneSlot .rdint),
    (['R', 'S', 'T', 'P', 'O', 'S'], asmOneSlot .rstpos),
    (['E', 'O', 'D'], asmOneSlot .eod),
    (['G', 'E', 'T', 'B'], asmSlotAnd asmIndex .getb)] ++
  [(['S', 'E', 'T', 'B'], asmSetb),
    (['L', 'E', 'N'], asmOneSlot .len),
    (['B', 'W', 'T'], asmSlotAnd asmSlot .bwt),
    (['I', 'B', 'W', 'T'], asmSlotAnd asmSlot .ibwt),
    (['M', 'T', 'F', 'E'], asmSlotAnd asmSlot .mtfe),
    (['M', 'T', 'F', 'D'], asmSlotAnd asmSlot .mtfd),
    (['H', 'U', 'F', 'C'], asmSlotAnd asmSlot .hufc),
    (['H', 'U', 'F', 'X'], asmSlotAnd asmSlot .hufx),
    (['R', 'L', 'E', 'E'], asmSlotAnd asmSlot .rlee),
    (['R', 'L', 'E', 'D'], asmSlotAnd asmSlot .rled),
    (['C', 'L', 'R', 'F'], fun ops => if ops.length = 0 then some [.clrf] else none),
    (['C', 'O', 'P', 'Y'], asmCopy)]

/-- All the answers of a list, if every one is there. -/
def asmAll {α β : Type} (f : α → Option β) : List α → Option (List β)
  | [] => some []
  | x :: xs =>
    match f x, asmAll f xs with
    | some y, some ys => some (y :: ys)
    | _, _ => none

/-- The operands of a line, separated by commas. -/
def asmOperands (cs : List Char) : Option (List AsmOperand) :=
  if (asmTrim cs).length = 0 then some [] else asmAll asmOperand (asmSplit cs)

/-- The bytes of a `.load`: a list of bytes in brackets, or a quoted string of 8-bit ASCII characters, one
byte each (30_encoding R93). DESIGN CHOICE (notes/assumptions/14; safe): a string ends at the line's last double
quote, and one inside it is the byte 0x22; a character from 0x80 to 0xFF, to which ASCII gives no byte, is the
byte of its code point, and a string with a character above 0xFF is refused. -/
def asmBytes (cs : List Char) : Option Bytes :=
  match asmTrim cs with
  | '[' :: rest =>
    match rest.reverse with
    | ']' :: inner => (asmOperands inner.reverse).bind (asmAll asmByte)
    | _ => none
  | '"' :: rest =>
    match rest.reverse with
    | '"' :: inner => asmAll (fun c => if c.toNat < 256 then some (BitVec.ofNat 8 c.toNat) else none) inner.reverse
    | _ => none
  | _ => none

/-- `.load sA, …` is HOST_LOAD (30_encoding R93). -/
def asmLoad (cs : List Char) : Option (List HostAction) :=
  match asmOperand (cs.takeWhile (· ≠ ',')), asmBytes ((cs.dropWhile (· ≠ ',')).drop 1) with
  | some (.slot n), some bs => some [.load n bs]
  | _, _ => none

/-- `.read sA` is HOST_READ (30_encoding R93). -/
def asmRead (cs : List Char) : Option (List HostAction) :=
  match asmOperand cs with
  | some (.slot n) => some [.read n]
  | _ => none

/-- `.reg RES|STATUS|FCMD` is READREG (30_encoding R93). -/
def asmReg (cs : List Char) : Option (List HostAction) :=
  let name := asmTrim cs
  if name = ['R', 'E', 'S'] then some [.readReg .res]
  else if name = ['S', 'T', 'A', 'T', 'U', 'S'] then some [.readReg .status]
  else if name = ['F', 'C', 'M', 'D'] then some [.readReg .fcmd]
  else none

/-- The host directives, by name (30_encoding R93). -/
def asmDirectives : List (List Char × (List Char → Option (List HostAction))) :=
  [(['.', 'l', 'o', 'a', 'd'], asmLoad), (['.', 'r', 'e', 'a', 'd'], asmRead), (['.', 'r', 'e', 'g'], asmReg),
    (['.', 'r', 'e', 's', 'e', 't'], fun cs => if (asmTrim cs).length = 0 then some [.reset] else none)]

/-- The host actions of a line: none for a blank or comment line, ISSUE of the word of each command, or the
action a directive names; no answer for a line that is none of these (30_encoding R91 to R93). -/
def asmLine (line : List Char) : Option (List HostAction) :=
  let text := asmTrim (asmUncomment false line)
  let name := text.takeWhile fun c => !asmBlank c
  let rest := text.dropWhile fun c => !asmBlank c
  if text.length = 0 then some []
  else
    match asmForms.lookup name with
    | some form => ((asmOperands rest).bind form).map fun is => is.map fun i => .issue (encode i)
    | none => (asmDirectives.lookup name).bind fun d => d rest

end Sys2Proof.Machine
end

