-- ==== Sys2Proof/Safety.lean ====
section
/-! DEFINITION. What a legal state is and what a safe run is, and the views of a Bit Buffer as a stream of
bits, in the words the statements use. -/

namespace Sys2Proof.Machine

open Sys2Proof

/-- The legal values of STATUS and FCMD: the reserved bits are 0, FCODE is 0 to 5, FCODE = 0 exactly when
FAULT = 0, and FCMD = 0 when no fault is recorded (10_state R27, R28; 60_exceptions R270, R280). -/
def State.statusOk (s : State) : Bool :=
  statusReserved s.status == 0 && decide ((statusFcode s.status).toNat ≤ 5) &&
    (decide (statusFcode s.status = 0) == !s.faulted) && (s.faulted || s.fcmd == 0)

/-- The invariant of the machine with the parameters `p`: it has NSLOT slots, every slot has legal field values,
and so have STATUS and FCMD (10_state R20, R21, R22, R27, R28). -/
abbrev State.Inv (s : State) (p : Params := Config.params) : Prop :=
  s.slots.length = p.nslot ∧ (∀ n, n < p.nslot → (s.slot n).wf p = true) ∧ s.statusOk = true

/-- A legal state with no fault recorded, in which the core takes any command (60_exceptions R272). -/
abbrev State.Ready (s : State) (p : Params := Config.params) : Prop := s.Inv p ∧ s.faulted = false

/-- The step is the ISSUE of the word `w`, with `rest` the host's later actions. -/
abbrev State.NextIsIssue (s : State) (w : Word64) (rest : List HostAction) : Prop :=
  s.hostQueue = .issue w :: rest

/-- The state from which the command issued next runs: its action taken, the command index advanced
(10_state R30). -/
def State.issuing (s : State) (rest : List HostAction) : State :=
  { s with hostQueue := rest, issued := s.issued + 1 }

/-- The `k` low bits of a byte, the highest of them first. -/
def lowBits (v : Byte) (k : Nat) : Bits := (byteBits v).drop (8 - k)

/-- The bits written to a buffer: those of `data`, then the pending ones (20_memory R53, R60). -/
def streamBits (st : BitBuffer) : Bits := st.data.flatMap byteBits ++ lowBits st.pend st.npend

/-- The bits a buffer has left to read: those of the current decode byte, then those of the bytes from the
cursor on (20_memory R53, 41_bitbuffer R110). -/
def unreadBits (st : BitBuffer) : Bits := lowBits st.cur st.rem ++ (st.data.drop st.cursor).flatMap byteBits

/-- The number a sequence of bits denotes, the first bit the most significant. -/
def bitsValue (bits : Bits) : Nat := bits.foldl (fun n b => 2 * n + b.toNat) 0

/-- The byte values at the leaves of a tree, left to right (44_huffman R200). -/
def leafValues : HufTree → Bytes
  | .leaf v => [v]
  | .internal l r => leafValues l ++ leafValues r

/-- The node reached by a path from the root: 0 descends left, 1 right (44_huffman R205, R207). -/
def hufWalk : HufTree → Bits → Option HufTree
  | t, [] => some t
  | .leaf _, _ :: _ => none
  | .internal l r, bit :: bits => hufWalk (if bit then r else l) bits

/-- `m` leaves the queue before `e`: the lesser frequency, then the lesser seq (44_huffman R203). -/
def hufPrecedes (m e : QEntry) : Prop := m.freq < e.freq ∨ (m.freq = e.freq ∧ m.seq < e.seq)

/-- `build` of 44_huffman R203 as a relation: from a queue, with the seq of the next node, to the tree. While two
or more entries are left, the two least leave, and their parent enters with the summed frequency and the next
seq, the first of them as its left child. -/
inductive HufBuilds : Nat → List QEntry → HufTree → Prop
  | done (seq : Nat) (e : QEntry) : HufBuilds seq [e] e.node
  | merge (seq : Nat) (q rest : List QEntry) (n1 n2 : QEntry) (root : HufTree) (hq : q.Perm (n1 :: n2 :: rest))
      (h1 : ∀ e ∈ n2 :: rest, hufPrecedes n1 e) (h2 : ∀ e ∈ rest, hufPrecedes n2 e)
      (hr : HufBuilds (seq + 1) (⟨n1.freq + n2.freq, seq, .internal n1.node n2.node⟩ :: rest) root) :
      HufBuilds seq q root

/-- `root` is the tree of 44_huffman R203 for the input `x`: the leaves enter in ascending byte value, one for each
value of `x`, with its frequency and seq 0, 1, 2, … (R201, R202). -/
def IsHufTreeOf (x : Bytes) (root : HufTree) : Prop :=
  ∃ alphabet : Bytes, alphabet.Pairwise (fun u v => u.toNat < v.toNat) ∧ (∀ v, v ∈ alphabet ↔ v ∈ x) ∧
    HufBuilds alphabet.length (alphabet.zipIdx.map fun q => ⟨x.count q.1, q.2, .leaf q.1⟩) root

/-- The bits of a serialized tree: 1 and the value for a leaf, 0 and the two subtrees for an internal node
(44_huffman R204). -/
def hufTreeBits : HufTree → Bits
  | .leaf v => true :: byteBits v
  | .internal l r => false :: (hufTreeBits l ++ hufTreeBits r)

/-- A write of the stream: a bit, a byte or an integer (20_memory R60, 41_bitbuffer R116). -/
inductive StreamWrite where
  | bit (b : Bool)
  | byte (v : Byte)
  | int (w : Word32)
deriving DecidableEq, Repr

/-- The bits a write emits, in order (20_memory R52, R53). -/
def StreamWrite.bits : StreamWrite → Bits
  | .bit b => [b]
  | .byte v => byteBits v
  | .int w => (wordBytes w).flatMap byteBits

/-- A write applied to a buffer (41_bitbuffer R105, R106, R108). -/
def StreamWrite.apply (st : BitBuffer) : StreamWrite → BitBuffer
  | .bit b => bbWriteBit st b
  | .byte v => bbWriteByte st v
  | .int w => bbWriteInt st w

/-- A read of the stream: a bit, a byte or an integer (41_bitbuffer R116). -/
inductive StreamRead where
  | bit
  | byte
  | int
deriving DecidableEq, Repr

/-- How many bits a read takes. -/
def StreamRead.width : StreamRead → Nat
  | .bit => 1
  | .byte => 8
  | .int => 32

/-- A read applied to a buffer, with the value as RES holds it (41_bitbuffer R111 to R113). -/
def StreamRead.apply (st : BitBuffer) : StreamRead → Except FaultCode (BitBuffer × Word32)
  | .bit => rdbitValue st
  | .byte => rdbyteValue st
  | .int => rdintValue st

/-- Reads in order, with the values they return. -/
def streamReads : List StreamRead → BitBuffer → Except FaultCode (BitBuffer × List Word32)
  | [], st => .ok (st, [])
  | r :: rs, st =>
    match r.apply st with
    | .error x => .error x
    | .ok (st1, v) =>
      match streamReads rs st1 with
      | .error x => .error x
      | .ok (st2, vs) => .ok (st2, v :: vs)

/-- The values that reads of these widths take from a sequence of bits. -/
def readValues : List StreamRead → Bits → List Word32
  | [], _ => []
  | r :: rs, bits => BitVec.ofNat 32 (bitsValue (bits.take r.width)) :: readValues rs (bits.drop r.width)

/-- A host action within the contract of 20_memory R54 and R55. -/
def HostAction.inContract (act : HostAction) (p : Params := Config.params) : Bool :=
  match act with
  | .load a bs => decide (a < p.nslot) && decide (bs.length ≤ p.maxLen)
  | .read a => decide (a < p.nslot)
  | .issue _ => true
  | .readReg _ => true
  | .reset => true

/-- The outcome is a next state. -/
def IsNext (o : Host.Outcome State Fault Refusal) : Prop := ∃ t, o = .next t

/-- A safe run: `k` steps from `s`, each of which gives a next state. -/
def SafeRun : Nat → State → Prop
  | 0, _ => True
  | k + 1, s => ∃ t, step s = .next t ∧ SafeRun k t

end Sys2Proof.Machine
end

