-- ==== Sys2Proof/Certificates/Slice0/Obligations.lean ====
section
/-! DEFINITION. The statements for the provers, each with the rule of spec/ it formalises. -/

open Sys2Proof Sys2Proof.Machine

/-! ## Encoding (spec/30_encoding.md) -/

/-- Decoding the word of a well-formed command gives the command back, with every operand at every value, for
every value of the parameter NSLOT (30_encoding, sections 1 to 3). -/
def Obligations.DecodeOfEncodeIsIdentity : Prop :=
  ∀ (p : Params) (i : Instr), i.wellFormed p = true → decode (encode i) p = some i

/-- Every legal word is the word of the command it decodes to, so no bit of a word is dropped and each
command has one word, for every value of the parameter NSLOT (30_encoding, sections 1 to 3). -/
def Obligations.EncodeOfDecodeIsIdentity : Prop :=
  ∀ (p : Params) (w : Word64) (i : Instr), decode w p = some i → i.wellFormed p = true ∧ encode i = w

/-- A word decodes exactly when it matches a row of the opcode table and each slot field that the row's mask
leaves free is below NSLOT, and then to a command of that row; no word matches two rows. For every value of the
parameter NSLOT (30_encoding, section 3). -/
def Obligations.DecodeFollowsOpcodeTable : Prop :=
  (∀ (p : Params) (w : Word64) (i : Instr), decode w p = some i →
    ∃ r ∈ opcodeRows, r.mnemonic = i.mnemonic ∧ r.isMatch w = true ∧
      (r.mask.extractLsb' 8 4 = 0 → (fieldsOf w).sa.toNat < p.nslot) ∧
      (r.mask.extractLsb' 12 4 = 0 → (fieldsOf w).sb.toNat < p.nslot)) ∧
  (∀ (p : Params) (w : Word64) (r : OpcodeRow), r ∈ opcodeRows → r.isMatch w = true →
    (r.mask.extractLsb' 8 4 = 0 → (fieldsOf w).sa.toNat < p.nslot) →
    (r.mask.extractLsb' 12 4 = 0 → (fieldsOf w).sb.toNat < p.nslot) →
    ∃ i, decode w p = some i ∧ i.mnemonic = r.mnemonic) ∧
  (∀ (w : Word64) (r r' : OpcodeRow), r ∈ opcodeRows → r' ∈ opcodeRows → r.isMatch w = true →
    r'.isMatch w = true → r = r') ∧
  (∀ r ∈ opcodeRows, (r.mask.extractLsb' 8 4 = 0 ↔ r.mnemonic ≠ "CLRF") ∧
    (r.mask.extractLsb' 12 4 = 0 ↔ r.mnemonic ∈ ["WRBYTES", "BWT", "IBWT", "MTFE", "MTFD", "HUFC", "HUFX",
      "RLEE", "RLED"]))

/-- R84, R85: a non-zero RSV, a non-zero field that the opcode's row marks 0, or a WRBIT whose IMM8 is not 0
or 1 makes a word illegal; so does an OP value outside the opcode map, and the all-zero word is illegal. -/
def Obligations.BadFieldOrOpcodeIsIllegal : Prop :=
  (∀ w : Word64, let f := fieldsOf w
    (f.rsv ≠ 0 → decode w = none) ∧
    (f.op.toNat ∈ [0x01, 0x06, 0x07, 0x08, 0x09, 0x0A, 0x0B, 0x0E] →
      (f.sb ≠ 0 ∨ f.imm8 ≠ 0 ∨ f.opnd ≠ 0) → decode w = none) ∧
    (f.op.toNat = 0x02 → (f.sb ≠ 0 ∨ 1 < f.imm8.toNat ∨ f.opnd ≠ 0) → decode w = none) ∧
    (f.op.toNat = 0x03 → (f.sb ≠ 0 ∨ f.opnd ≠ 0) → decode w = none) ∧
    (f.op.toNat ∈ [0x05, 0x0C] → (f.sb ≠ 0 ∨ f.imm8 ≠ 0) → decode w = none) ∧
    (f.op.toNat = 0x0D → f.sb ≠ 0 → decode w = none) ∧
    (f.op.toNat ∈ [0x04, 0x10, 0x11, 0x20, 0x21, 0x30, 0x31, 0x40, 0x41] →
      (f.imm8 ≠ 0 ∨ f.opnd ≠ 0) → decode w = none) ∧
    (f.op.toNat = 0xF0 → (f.sa ≠ 0 ∨ f.sb ≠ 0 ∨ f.imm8 ≠ 0 ∨ f.opnd ≠ 0) → decode w = none)) ∧
  (∀ w : Word64, let op := (fieldsOf w).op.toNat
    (op = 0x00 ∨ op = 0x0F ∨ (0x12 ≤ op ∧ op ≤ 0x1F) ∨ (0x22 ≤ op ∧ op ≤ 0x2F) ∨ (0x32 ≤ op ∧ op ≤ 0x3F) ∨
      (0x42 ≤ op ∧ op ≤ 0xEF) ∨ (0xF1 ≤ op ∧ op ≤ 0xFF)) → decode w = none) ∧
  decode 0 = none

/-- R88: a used slot field of NSLOT or more is illegal, for every value of the parameter, and this hardware's
NSLOT is 4; SA may equal SB. -/
def Obligations.SlotFieldBeyondNslotIsIllegal : Prop :=
  Config.params.nslot = 4 ∧
  (∀ w : Word64, (fieldsOf w).op.toNat ≠ 0xF0 →
    (4 ≤ (fieldsOf w).sa.toNat → decode w = none) ∧
    ∀ p : Params, p.nslot ≤ (fieldsOf w).sa.toNat → decode w p = none) ∧
  (∀ w : Word64, (fieldsOf w).op.toNat ∈ [0x04, 0x10, 0x11, 0x20, 0x21, 0x30, 0x31, 0x40, 0x41] →
    (4 ≤ (fieldsOf w).sb.toNat → decode w = none) ∧
    ∀ p : Params, p.nslot ≤ (fieldsOf w).sb.toNat → decode w p = none) ∧
  (∀ a : SlotNo, a.toNat < 4 → ∀ i ∈ [Instr.wrbytes a a, .bwt a a, .ibwt a a, .mtfe a a, .mtfd a a,
    .hufc a a, .hufx a a, .rlee a a, .rled a a], decode (encode i) = some i)

/-- Words of the spec's table of legal and illegal words decode as it says (95_test_vectors, "Encoding and
decode"). -/
def Obligations.ListedWordsDecodeAsListed : Prop :=
  decode 0x0000000000000301 = some (.new 3) ∧
  decode 0x0000000000010202 = some (.wrbit 2 true) ∧
  decode 0x0000000000AA0003 = some (.wrbyte 0 0xAA) ∧
  decode 0x0000000000003104 = some (.wrbytes 1 3) ∧
  decode 0xFFFFFFFF00000005 = some (.wrint 0 0xFFFFFFFF) ∧
  decode 0x000000010062010D = some (.setb 1 1 0x62) ∧
  decode 0x0000000000001211 = some (.ibwt 2 1) ∧
  decode 0x00000000000000F0 = some .clrf ∧
  decode 0x0000000000020002 = none ∧
  decode 0x0000000000000401 = none

/-! ## Steps and host actions (spec/20_memory.md, spec/70_reset_and_hazards.md)
The list of the host's pending actions is the model's form of the host (notes/assumptions/1). -/

/-- A step whose action is the ISSUE of a legal word runs that word's command, from the state with the
action taken and the command index advanced; so it does on a core with other parameters, and this hardware's
`exec` and `step` are those of its own parameters (20_memory, section 3; 30_encoding, section 4). -/
def Obligations.StepRunsDecodedCommand : Prop :=
  (∀ (s : State) (w : Word64) (rest : List HostAction) (i : Instr), s.NextIsIssue w rest → decode w = some i →
    step s = exec i { s with hostQueue := rest, issued := s.issued + 1 }) ∧
  (∀ (p : Params) (s : State) (w : Word64) (rest : List HostAction) (i : Instr), s.NextIsIssue w rest →
    decode w p = some i → stepFor p s = execFor p i { s with hostQueue := rest, issued := s.issued + 1 }) ∧
  (∀ s : State, step s = stepFor Config.params s ∧ ∀ i, exec i s = execFor Config.params i s)

/-- R89: an illegal word writes no slot and no RES; it only records the fault. -/
def Obligations.IllegalWordOnlyRecordsFault : Prop :=
  ∀ (s : State) (w : Word64) (rest : List HostAction), s.NextIsIssue w rest → s.faulted = false →
    decode w = none → step s = .next { s.issuing rest with status := 0x501, fcmd := w }

/-- R272: while a fault is recorded every issued word but a legal CLRF is discarded, and HOST_LOAD, HOST_READ
and READREG remain available. -/
def Obligations.FaultedCoreDiscardsCommands : Prop :=
  ∀ (s : State) (rest : List HostAction), s.faulted = true →
    (∀ w, s.NextIsIssue w rest → decode w ≠ some .clrf → step s = .next (s.issuing rest)) ∧
    (∀ a bs, s.hostQueue = .load a bs :: rest → a < Config.NSLOT → bs.length ≤ Config.MAX_LEN →
      step s = .next ({ s with hostQueue := rest }.setSlot a (preloaded bs))) ∧
    (∀ a, s.hostQueue = .read a :: rest → a < Config.NSLOT →
      step s = .next { s with hostQueue := rest, hostReply := .bytes (s.slot a).data }) ∧
    (∀ r, s.hostQueue = .readReg r :: rest → s.Inv →
      step s = .next { s with hostQueue := rest, hostReply := match r with
        | .res => .word s.res
        | .status => .word s.status
        | .fcmd => .command s.fcmd })

/-- R35: after reset there are NSLOT slots, every one the empty buffer, and RES, STATUS and FCMD are 0. -/
def Obligations.ResetValuesAreTheSpecs : Prop :=
  State.reset.slots.length = Config.NSLOT ∧
  (∀ a, a < Config.NSLOT → State.reset.slot a = ⟨[], 0, 0, 0, 0, 0⟩) ∧
  State.reset.res = 0 ∧ State.reset.status = 0 ∧ State.reset.fcmd = 0

/-- RESET sets every slot, RES, STATUS and FCMD to the values they have at power-on, with or without a fault
recorded: every slot empty, every register 0 (70_reset_and_hazards, section 1). That the host's coming actions
stay (`t.hostQueue = rest`) is the model's choice (notes/assumptions/4). -/
def Obligations.ResetActionResetsTheCore : Prop :=
  ∀ (s : State) (rest : List HostAction), s.hostQueue = .reset :: rest →
    ∃ t, step s = .next t ∧ (∀ a, a < Config.NSLOT → t.slot a = ⟨[], 0, 0, 0, 0, 0⟩) ∧
      t.res = 0 ∧ t.status = 0 ∧ t.fcmd = 0 ∧ t.slots = State.reset.slots ∧ t.hostQueue = rest

/-- R54: HOST_LOAD within its contract replaces the slot and writes no register, with or without a fault;
outside it there is no move. -/
def Obligations.HostLoadReplacesSlot : Prop :=
  ∀ (s : State) (a : Nat) (bs : Bytes) (rest : List HostAction), s.hostQueue = .load a bs :: rest →
    (a < Config.NSLOT → bs.length ≤ Config.MAX_LEN →
      step s = .next ({ s with hostQueue := rest }.setSlot a ⟨bs, 0, 0, 0, 0, 0⟩)) ∧
    (Config.NSLOT ≤ a ∨ Config.MAX_LEN < bs.length → step s = .refused .hostLoadOutsideContract)

/-- HOST_READ returns the slot's `data` alone and changes no state of the core, with or without a fault
recorded; a slot number of NSLOT or more is refused (20_memory, section 3; 93_implementation_defined, U19). -/
def Obligations.HostReadReturnsData : Prop :=
  ∀ (s : State) (a : Nat) (rest : List HostAction), s.hostQueue = .read a :: rest →
    (a < Config.NSLOT →
      step s = .next { s with hostQueue := rest, hostReply := .bytes (s.slot a).data }) ∧
    (Config.NSLOT ≤ a → step s = .refused .hostReadOutsideContract)

/-- READREG returns the register's value and changes no state of the core (20_memory, section 3). -/
def Obligations.ReadRegReturnsValue : Prop :=
  ∀ (s : State) (r : HostReg) (rest : List HostAction), s.hostQueue = .readReg r :: rest → s.Inv →
    step s = .next { s with
      hostQueue := rest
      hostReply := match r with
        | .res => .word s.res
        | .status => .word s.status
        | .fcmd => .command s.fcmd }

/-- R288: with no host action pending the core is idle and all its state persists. -/
def Obligations.IdleCoreKeepsState : Prop :=
  ∀ s : State, s.hostQueue = [] → step s = .next s

/-- A run whose host keeps its contract never stops (70_reset_and_hazards, section 4; 20_memory, section 3). -/
def Obligations.HostInContractRunsForever : Prop :=
  ∀ (k : Nat) (s : State), (∀ act ∈ s.hostQueue, act.inContract = true) → SafeRun k s

/-! ## The invariant (spec/10_state.md) -/

/-- The machine after reset satisfies the invariant, for every value of the parameters (10_state, sections 1, 2
and 6). -/
def Obligations.ResetSatisfiesInv : Prop :=
  State.reset.Inv ∧ ∀ p : Params, (State.resetFor p).Inv p

/-- Every step keeps the invariant, for every value of the parameters: the number of slots stays, slot fields
stay at their legal values, the reserved bits of STATUS stay 0, FCODE = 0 exactly when FAULT = 0, and FCMD = 0
when no fault is recorded (10_state, sections 1 and 2). -/
def Obligations.StepKeepsInv : Prop :=
  (∀ s t : State, s.Inv → step s = .next t → t.Inv) ∧
  ∀ (p : Params) (s t : State), s.Inv p → stepFor p s = .next t → t.Inv p

/-! ## Faults (spec/60_exceptions.md) -/

/-- R271: a command that faults writes STATUS = (X << 8) | 1 and FCMD = the issued word, and no slot and no
RES. -/
def Obligations.FaultEntryIsPrecise : Prop :=
  ∀ (s t : State) (w : Word64) (rest : List HostAction), s.NextIsIssue w rest → s.faulted = false →
    step s = .next t → t.faulted = true →
    ∃ x : FaultCode, t = { s.issuing rest with status := (x.code.setWidth 32 <<< 8) ||| 1, fcmd := w }

/-- Each fault code is raised only by the commands whose own rules can raise it with this hardware's MAX_LEN:
OUT_OF_DATA by the reads and the decoders, INDEX_RANGE by the indexed accesses, FORMAT by the two checks of a
header, CAPACITY by the commands that can make `data` longer than MAX_LEN (NEW and SETB cannot, and IBWT, MTFE,
MTFD and HUFX cannot from a source that a slot holds), and ILLEGAL by no legal command (60_exceptions, section
1; the exceptions each command's own section lists). -/
def Obligations.FaultsComeFromTheirCommands : Prop :=
  ∀ (i : Instr) (s t : State) (x : FaultCode), s.Ready → i.wellFormed = true → exec i s = .next t →
    t.status = faultStatus x →
    match x with
    | .outOfData => i.mnemonic ∈ ["RDBIT", "RDBYTE", "RDINT", "IBWT", "HUFX", "RLED"]
    | .indexRange => i.mnemonic ∈ ["GETB", "SETB"]
    | .format => i.mnemonic ∈ ["IBWT", "HUFX"]
    | .capacity => i.mnemonic ∈ ["WRBIT", "WRBYTE", "WRBYTES", "WRINT", "FLUSH", "BWT", "HUFC", "RLEE", "RLED"]
    | .illegal => False

/-- R280: CLRF sets STATUS and FCMD to 0 and restores nothing; with no fault recorded it changes nothing;
a CLRF word with another field non-zero is ILLEGAL, or discarded while a fault is recorded. -/
def Obligations.ClrfClearsTheFaultRecord : Prop :=
  (∀ s : State, exec .clrf s = .next { s with status := 0, fcmd := 0 }) ∧
  (∀ s : State, s.Ready → exec .clrf s = .next s) ∧
  (∀ (s : State) (w : Word64) (rest : List HostAction), s.NextIsIssue w rest → (fieldsOf w).op = 0xF0 →
    w ≠ 0xF0 → (s.faulted = true → step s = .next (s.issuing rest)) ∧
      (s.faulted = false → step s = .next { s.issuing rest with status := 0x501, fcmd := w }))

/-- The CAPACITY check for every value of the parameter MAX_LEN: a candidate state with a slot longer than it
raises CAPACITY, and a candidate without one is committed; so WRBYTE on a slot of MAX_LEN bytes faults, and on
a shorter one with nothing pending it appends its byte. This hardware's parameters are in their ranges, and its
MAX_LEN is 2^31 - 1 (30_encoding, section 4; 00_scope, section 4). -/
def Obligations.CapacityCheckForEveryMaxLen : Prop :=
  (∀ (p : Params) (i : Instr) (body : State → Except FaultCode State) (s t : State), s.faulted = false →
    i.wellFormed p = true → body s = .ok t →
    ((∃ st ∈ t.slots, p.maxLen < st.data.length) →
      runCommand i body s p = .next { s with status := 0x401, fcmd := encode i }) ∧
    ((∀ st ∈ t.slots, st.data.length ≤ p.maxLen) → runCommand i body s p = .next t)) ∧
  (∀ (p : Params) (a : SlotNo) (v : Byte) (s : State), s.Ready p → a.toNat < p.nslot →
    let st := s.slot a.toNat
    (st.data.length = p.maxLen → execFor p (.wrbyte a v) s =
      .next { s with status := 0x401, fcmd := encode (.wrbyte a v) }) ∧
    (st.data.length < p.maxLen → st.npend = 0 → execFor p (.wrbyte a v) s =
      .next (s.setSlot a.toNat { st with data := st.data ++ [v] }))) ∧
  Config.params.inRange ∧ Config.params.maxLen = 2 ^ 31 - 1

/-! ## Frames (spec/10_state.md section 5) -/

/-- No command changes a slot other than the one in its SA field: every slot, and every byte of memory, other
than SA's is as before (10_state, sections 1 and 5). -/
def Obligations.CommandsWriteOnlySlotSA : Prop :=
  ∀ (i : Instr) (s t : State), exec i s = .next t → ∀ n, n ≠ (encodeFields i).sa.toNat →
    t.slot n = s.slot n ∧ ∀ j, memRead t n j = memRead s n j

/-- Commands that store nothing: RDBIT, RDBYTE, RDINT and RSTPOS leave every byte of memory and the encode
state as they are; EOD, GETB, LEN and CLRF leave every field of every slot (10_state, sections 1 and 5). -/
def Obligations.ReadsAndQueriesKeepMemory : Prop :=
  ∀ (i : Instr) (s t : State), exec i s = .next t →
    (∀ a, i ∈ [Instr.rdbit a, .rdbyte a, .rdint a, .rstpos a] →
      ∀ n, (∀ j, memRead t n j = memRead s n j) ∧ (t.slot n).pend = (s.slot n).pend ∧
        (t.slot n).npend = (s.slot n).npend) ∧
    (∀ a k, i ∈ [Instr.eod a, .getb a k, .len a, .clrf] →
      (∀ n, t.slot n = s.slot n) ∧ ∀ n j, memRead t n j = memRead s n j)

/-- Appending commands change no byte that was there, and no decode state: in the slot a = SA every index
below the old length reads as before, and every other slot is as before (41_bitbuffer, section 1; 10_state,
sections 1 and 5). -/
def Obligations.AppendsKeepOldBytes : Prop :=
  ∀ (a b : SlotNo) (bit : Bool) (v : Byte) (w : Word32) (i : Instr) (s t : State),
    i ∈ [Instr.wrbit a bit, .wrbyte a v, .wrbytes a b, .wrint a w, .flush a] → exec i s = .next t →
    (∀ n, n ≠ slotIndex a → t.slot n = s.slot n ∧ ∀ j, memRead t n j = memRead s n j) ∧
    (∀ j, j < (s.slot (slotIndex a)).data.length → memRead t (slotIndex a) j = memRead s (slotIndex a) j) ∧
    (t.slot (slotIndex a)).cursor = (s.slot (slotIndex a)).cursor ∧
    (t.slot (slotIndex a)).cur = (s.slot (slotIndex a)).cur ∧
    (t.slot (slotIndex a)).rem = (s.slot (slotIndex a)).rem ∧ t.res = s.res

/-- SETB stores one byte, at the index of OPND in the slot of SA: where it commits that byte reads as its
operand, every other byte reads as before, and no length and no other field changes (20_memory, section 1;
41_bitbuffer, section 4). -/
def Obligations.SetbStoresOneByte : Prop :=
  ∀ (a : SlotNo) (k : Word32) (v : Byte) (s t : State), exec (.setb a k v) s = .next t →
    (s.faulted = false → t.faulted = false → memRead t (slotIndex a) (byteIndex k) = some v) ∧
    (∀ n j, ¬(n = slotIndex a ∧ j = byteIndex k) → memRead t n j = memRead s n j) ∧
    (∀ n, (t.slot n).data.length = (s.slot n).data.length ∧ (t.slot n).pend = (s.slot n).pend ∧
      (t.slot n).npend = (s.slot n).npend ∧ (t.slot n).cursor = (s.slot n).cursor ∧
      (t.slot n).cur = (s.slot n).cur ∧ (t.slot n).rem = (s.slot n).rem) ∧ t.res = s.res

/-- RES is written only by RDBIT, RDBYTE, RDINT, EOD, GETB and LEN, and by none of them when it faults; and
no command reads it: from the state with another RES the same command writes the same slots, STATUS and FCMD,
and the same RES or none (10_state, section 2). -/
def Obligations.ResIsWrittenOnlyByReadsAndReadByNone : Prop :=
  ∀ (i : Instr) (s t : State), exec i s = .next t →
    (i.mnemonic ∉ ["RDBIT", "RDBYTE", "RDINT", "EOD", "GETB", "LEN"] → t.res = s.res) ∧
    (t.faulted = true → t.res = s.res) ∧
    ∀ v, exec i (s.setRes v) = .next t ∨ (t.res = s.res ∧ exec i (s.setRes v) = .next (t.setRes v))

/-- STATUS and FCMD are written only by a fault and by CLRF: while a fault is recorded any other command leaves
them, with none recorded it leaves them or faults and writes nothing else, and CLRF sets both to 0 (10_state,
sections 2 and 5; 60_exceptions, sections 2 and 3). That no command touches the host's side (`hostQueue`,
`hostReply`, `issued`) is the model's choice (notes/assumptions/1, 2 and 3). -/
def Obligations.StatusIsWrittenOnlyByFaultAndClrf : Prop :=
  ∀ (i : Instr) (s t : State), exec i s = .next t →
    (i ≠ .clrf → s.faulted = true → t.status = s.status ∧ t.fcmd = s.fcmd) ∧
    (i ≠ .clrf → s.faulted = false → (t.status = s.status ∧ t.fcmd = s.fcmd) ∨
      ∃ x : FaultCode, t = { s with status := (x.code.setWidth 32 <<< 8) ||| 1, fcmd := encode i }) ∧
    (i = .clrf → t.status = 0 ∧ t.fcmd = 0) ∧
    t.hostQueue = s.hostQueue ∧ t.hostReply = s.hostReply ∧ t.issued = s.issued

/-- A transform reads of its source only `data`: two states with no fault recorded, whose source slots hold
the same bytes, end with the same destination slot or with the same fault (30_encoding, section 4). -/
def Obligations.TransformsReadOnlySourceData : Prop :=
  ∀ (a b : SlotNo) (i : Instr) (s s' t t' : State),
    i ∈ [Instr.bwt a b, .ibwt a b, .mtfe a b, .mtfd a b, .hufc a b, .hufx a b, .rlee a b, .rled a b] →
    i.wellFormed = true → s.Ready → s'.Ready →
    (s.slot (slotIndex b)).data = (s'.slot (slotIndex b)).data →
    exec i s = .next t → exec i s' = .next t' →
    (t.faulted = true ∧ t'.faulted = true ∧ t.status = t'.status ∧ t.fcmd = t'.fcmd) ∨
      (t.faulted = false ∧ t'.faulted = false ∧ t.slot (slotIndex a) = t'.slot (slotIndex a))

/-! ## Bit Buffer commands (spec/41_bitbuffer.md) -/

/-- R100: NEW makes the slot the empty buffer, whatever it held. -/
def Obligations.NewEmptiesTheSlot : Prop :=
  ∀ (a : SlotNo) (s : State), s.Ready → a.toNat < Config.NSLOT →
    exec (.new a) s = .next (s.setSlot a.toNat ⟨[], 0, 0, 0, 0, 0⟩)

/-- R105: WRBIT adds its bit below the pending ones; the eighth bit appends the byte, or faults CAPACITY at
MAX_LEN. -/
def Obligations.WrbitAddsOneBit : Prop :=
  ∀ (a : SlotNo) (bit : Bool) (s : State), s.Ready → a.toNat < Config.NSLOT →
    let st := s.slot a.toNat
    let p := BitVec.ofNat 8 (2 * st.pend.toNat + bit.toNat)
    (st.npend < 7 → exec (.wrbit a bit) s =
      .next (s.setSlot a.toNat { st with pend := p, npend := st.npend + 1 })) ∧
    (st.npend = 7 → st.data.length < Config.MAX_LEN → exec (.wrbit a bit) s =
      .next (s.setSlot a.toNat { st with data := st.data ++ [p], pend := 0, npend := 0 })) ∧
    (st.npend = 7 → st.data.length = Config.MAX_LEN → exec (.wrbit a bit) s =
      .next { s with status := 0x401, fcmd := encode (.wrbit a bit) })

/-- R106: with k bits pending, WRBYTE appends (pend * 2^(8-k) + v[7:k]) and leaves v[k-1:0] pending; at
MAX_LEN it faults CAPACITY. -/
def Obligations.WrbyteAppendsSplicedByte : Prop :=
  ∀ (a : SlotNo) (v : Byte) (s : State), s.Ready → a.toNat < Config.NSLOT →
    let st := s.slot a.toNat
    (st.data.length < Config.MAX_LEN → exec (.wrbyte a v) s = .next (s.setSlot a.toNat { st with
      data := st.data ++ [BitVec.ofNat 8 (st.pend.toNat * 2 ^ (8 - st.npend) + v.toNat / 2 ^ st.npend)]
      pend := BitVec.ofNat 8 (v.toNat % 2 ^ st.npend) })) ∧
    (st.data.length = Config.MAX_LEN → exec (.wrbyte a v) s =
      .next { s with status := 0x401, fcmd := encode (.wrbyte a v) })

/-- R107: WRBYTES appends the bits of S[b].data as it was at the start, with as many bits pending after as
before, for a = b too; CAPACITY past MAX_LEN. -/
def Obligations.WrbytesAppendsSourceData : Prop :=
  ∀ (a b : SlotNo) (s : State), s.Ready → a.toNat < Config.NSLOT → b.toNat < Config.NSLOT →
    let st := s.slot a.toNat
    let seq := (s.slot b.toNat).data
    (st.data.length + seq.length ≤ Config.MAX_LEN →
      ∃ st', exec (.wrbytes a b) s = .next (s.setSlot a.toNat st') ∧
        streamBits st' = streamBits st ++ seq.flatMap byteBits ∧
        st'.data.length = st.data.length + seq.length ∧ st'.npend = st.npend ∧
        st'.pend.toNat < 2 ^ st'.npend ∧ st.data <+: st'.data ∧
        st'.cursor = st.cursor ∧ st'.cur = st.cur ∧ st'.rem = st.rem) ∧
    (Config.MAX_LEN < st.data.length + seq.length → exec (.wrbytes a b) s =
      .next { s with status := 0x401, fcmd := encode (.wrbytes a b) })

/-- R108: WRINT appends the 32 bits of its operand, most significant first; with nothing pending these are its
four bytes; CAPACITY past MAX_LEN. -/
def Obligations.WrintAppendsBigEndian : Prop :=
  ∀ (a : SlotNo) (w : Word32) (s : State), s.Ready → a.toNat < Config.NSLOT →
    let st := s.slot a.toNat
    (st.data.length + 4 ≤ Config.MAX_LEN →
      ∃ st', exec (.wrint a w) s = .next (s.setSlot a.toNat st') ∧
        streamBits st' = streamBits st ++
          (byteBits (w.extractLsb' 24 8) ++ byteBits (w.extractLsb' 16 8) ++ byteBits (w.extractLsb' 8 8) ++
            byteBits (w.extractLsb' 0 8)) ∧
        st'.data.length = st.data.length + 4 ∧ st'.npend = st.npend ∧ st'.pend.toNat < 2 ^ st'.npend ∧
        st'.cursor = st.cursor ∧ st'.cur = st.cur ∧ st'.rem = st.rem ∧
        (st.npend = 0 → st'.data = st.data ++
          [w.extractLsb' 24 8, w.extractLsb' 16 8, w.extractLsb' 8 8, w.extractLsb' 0 8])) ∧
    (Config.MAX_LEN < st.data.length + 4 → exec (.wrint a w) s =
      .next { s with status := 0x401, fcmd := encode (.wrint a w) })

/-- R109: FLUSH appends the pending bits left-justified and padded with zeros, and clears them; with nothing
pending it changes nothing; CAPACITY at MAX_LEN. -/
def Obligations.FlushAppendsPaddedByte : Prop :=
  ∀ (a : SlotNo) (s : State), s.Ready → a.toNat < Config.NSLOT →
    let st := s.slot a.toNat
    (st.npend = 0 → exec (.flush a) s = .next s) ∧
    (0 < st.npend → st.data.length < Config.MAX_LEN → exec (.flush a) s = .next (s.setSlot a.toNat { st with
      data := st.data ++ [BitVec.ofNat 8 (st.pend.toNat * 2 ^ (8 - st.npend))], pend := 0, npend := 0 })) ∧
    (0 < st.npend → st.data.length = Config.MAX_LEN → exec (.flush a) s =
      .next { s with status := 0x401, fcmd := encode (.flush a) })

/-- R111: RDBIT returns the next unread bit, pulling a fresh byte when none of `cur` is left, and faults
OUT_OF_DATA at the end of `data`. -/
def Obligations.RdbitReturnsNextBit : Prop :=
  ∀ (a : SlotNo) (s : State), s.Ready → a.toNat < Config.NSLOT →
    let st := s.slot a.toNat
    (0 < st.rem → exec (.rdbit a) s = .next ((s.setSlot a.toNat { st with rem := st.rem - 1 }).setRes
      (if st.cur.getLsbD (st.rem - 1) then 1 else 0))) ∧
    (∀ v, st.rem = 0 → st.data[st.cursor]? = some v → exec (.rdbit a) s =
      .next ((s.setSlot a.toNat { st with cur := v, cursor := st.cursor + 1, rem := 7 }).setRes
        (if v.getLsbD 7 then 1 else 0))) ∧
    (st.rem = 0 → st.cursor = st.data.length → exec (.rdbit a) s =
      .next { s with status := 0x101, fcmd := encode (.rdbit a) })

/-- R112: byte-aligned, RDBYTE returns the byte at the cursor; with k bits of `cur` unread it splices them
with the head of the next byte; it faults OUT_OF_DATA with fewer than 8 unread bits. -/
def Obligations.RdbyteReturnsSplicedByte : Prop :=
  ∀ (a : SlotNo) (s : State), s.Ready → a.toNat < Config.NSLOT →
    let st := s.slot a.toNat
    (∀ v, st.rem = 0 → st.data[st.cursor]? = some v → exec (.rdbyte a) s =
      .next ((s.setSlot a.toNat { st with cursor := st.cursor + 1 }).setRes (BitVec.ofNat 32 v.toNat))) ∧
    (∀ v, 0 < st.rem → st.data[st.cursor]? = some v → exec (.rdbyte a) s =
      .next ((s.setSlot a.toNat { st with cursor := st.cursor + 1, cur := v }).setRes (BitVec.ofNat 32
        (st.cur.toNat % 2 ^ st.rem * 2 ^ (8 - st.rem) + v.toNat / 2 ^ st.rem)))) ∧
    (st.cursor = st.data.length → exec (.rdbyte a) s =
      .next { s with status := 0x101, fcmd := encode (.rdbyte a) })

/-- R113: RDINT returns the next 32 unread bits, the first the most significant, and faults OUT_OF_DATA with
fewer. -/
def Obligations.RdintReturnsBigEndian : Prop :=
  ∀ (a : SlotNo) (s : State), s.Ready → a.toNat < Config.NSLOT →
    let st := s.slot a.toNat
    (32 ≤ (unreadBits st).length → exec (.rdint a) s =
      .next ((s.setSlot a.toNat { st with
        cursor := st.cursor + 4
        cur := if st.rem = 0 then st.cur else st.data.getD (st.cursor + 3) 0 }).setRes
        (BitVec.ofNat 32 (bitsValue ((unreadBits st).take 32))))) ∧
    ((unreadBits st).length < 32 → exec (.rdint a) s =
      .next { s with status := 0x101, fcmd := encode (.rdint a) })

/-- R114: RSTPOS rewinds: cursor, rem and cur become 0; `data` and the pending bits stay. -/
def Obligations.RstposRewinds : Prop :=
  ∀ (a : SlotNo) (s : State), s.Ready → a.toNat < Config.NSLOT →
    exec (.rstpos a) s =
      .next (s.setSlot a.toNat { s.slot a.toNat with cursor := 0, rem := 0, cur := 0 })

/-- R118: EOD returns whether the cursor is at the end of `data`, in bytes, and changes no slot. -/
def Obligations.EodTestsTheCursor : Prop :=
  ∀ (a : SlotNo) (s : State), s.Ready → a.toNat < Config.NSLOT →
    exec (.eod a) s =
      .next (s.setRes (if (s.slot a.toNat).cursor = (s.slot a.toNat).data.length then 1 else 0))

/-- R119: GETB returns the byte at an index inside `data`, and faults INDEX_RANGE at any other. -/
def Obligations.GetbReturnsIndexedByte : Prop :=
  ∀ (a : SlotNo) (k : Word32) (s : State), s.Ready → a.toNat < Config.NSLOT →
    (∀ v, memRead s a.toNat k.toNat = some v → exec (.getb a k) s =
      .next (s.setRes (BitVec.ofNat 32 v.toNat))) ∧
    ((s.slot a.toNat).data.length ≤ k.toNat → exec (.getb a k) s =
      .next { s with status := 0x201, fcmd := encode (.getb a k) })

/-- R120: SETB replaces the byte at an index inside `data` and changes nothing else, and faults INDEX_RANGE at
any other index. -/
def Obligations.SetbReplacesIndexedByte : Prop :=
  ∀ (a : SlotNo) (k : Word32) (v : Byte) (s : State), s.Ready → a.toNat < Config.NSLOT →
    let st := s.slot a.toNat
    (k.toNat < st.data.length → exec (.setb a k v) s =
      .next (s.setSlot a.toNat { st with data := st.data.set k.toNat v })) ∧
    (st.data.length ≤ k.toNat → exec (.setb a k v) s =
      .next { s with status := 0x201, fcmd := encode (.setb a k v) })

/-- R121: LEN returns the length of `data`, which is below 2^31. -/
def Obligations.LenReturnsDataLength : Prop :=
  ∀ (a : SlotNo) (s : State), s.Ready → a.toNat < Config.NSLOT →
    (s.slot a.toNat).data.length < 2 ^ 31 ∧
    exec (.len a) s = .next (s.setRes (BitVec.ofNat 32 (s.slot a.toNat).data.length))

/-- A byte write equals eight bit writes, and a byte read returns what eight bit reads return, with the same
`data`, cursor and rem and the same fault (41_bitbuffer, section 3, "Path equivalence"). -/
def Obligations.ByteAccessEqualsEightBitAccesses : Prop :=
  ∀ st : BitBuffer, st.wf = true →
    (∀ v, bbWriteByte st v = (byteBits v).foldl bbWriteBit st) ∧
    (∀ x, bbReadByte st = .error x ↔ bbReadBitsInto 8 st 0 = .error x) ∧
    (∀ st1 v, bbReadByte st = .ok (st1, v) → ∃ st2, bbReadBitsInto 8 st 0 = .ok (st2, v) ∧
      st2.data = st1.data ∧ st2.cursor = st1.cursor ∧ st2.rem = st1.rem ∧
      (st1.cur = st2.cur ∨ st1.rem = 0))

/-- What any mix of writes emits is read back, bit for bit, by any mix of reads that take no more bits: the
flushed bytes are the written bits followed by fewer than 8 zeros (41_bitbuffer, section 3, "Write-read
symmetry"). -/
def Obligations.WritesAreReadBack : Prop :=
  ∀ ws : List StreamWrite,
    let bits := ws.flatMap StreamWrite.bits
    let bytes := (bbFlush (ws.foldl StreamWrite.apply BitBuffer.empty)).data
    (∃ pad, pad < 8 ∧ bytes.flatMap byteBits = bits ++ List.replicate pad false) ∧
    (∀ rs : List StreamRead, (rs.map StreamRead.width).sum ≤ bits.length →
      ∃ st, streamReads rs (preloaded bytes) = .ok (st, readValues rs bits))

/-- The pseudo-instruction COPY: for D and S different its two commands leave S[D] preloaded with S[S].data
and change nothing else; it does not exist for D = S (30_encoding, section 5). -/
def Obligations.CopyLeavesDestinationPreloaded : Prop :=
  (∀ a, copyCommands a a = none) ∧
  (∀ (d e : SlotNo) (s : State), d ≠ e → s.Ready → d.toNat < Config.NSLOT → e.toNat < Config.NSLOT →
    ∃ i j t, copyCommands d e = some [i, j] ∧ exec i s = .next t ∧
      exec j t = .next (s.setSlot d.toNat (preloaded (s.slot e.toNat).data)))

/-! ## Transforms (spec/42_bwt.md to spec/45_rle.md) -/

/-- BWT: the destination holds startIndex, big-endian, and the last byte of each rotation in sorted order,
tied rotations in the order of their offsets; four zero bytes for the empty input; CAPACITY when that passes
MAX_LEN (42_bwt, section 1). -/
def Obligations.BwtWritesSortedRotations : Prop :=
  ∀ (a b : SlotNo) (s : State), s.Ready → a.toNat < Config.NSLOT → b.toNat < Config.NSLOT →
    let x := (s.slot b.toNat).data
    (x.length + 4 ≤ Config.MAX_LEN → ∃ order : List Nat, order.Perm (List.range x.length) ∧
      order.Pairwise (fun o p => x.rotate o < x.rotate p ∨ (x.rotate o = x.rotate p ∧ o < p)) ∧
      exec (.bwt a b) s = .next (s.setSlot a.toNat (preloaded
        (wordBytes (BitVec.ofNat 32 (if x.length = 0 then 0 else order.idxOf 0)) ++
          order.map fun o => x.getD ((o + x.length - 1) % x.length) 0)))) ∧
    (Config.MAX_LEN < x.length + 4 → exec (.bwt a b) s =
      .next { s with status := 0x401, fcmd := encode (.bwt a b) })

/-- IBWT: OUT_OF_DATA below 4 bytes, the empty output at 4, FORMAT for a start outside the table, else the
bytes of the chain through the stably sorted table, as many as the table has (42_bwt, section 2). -/
def Obligations.IbwtFollowsSortedTable : Prop :=
  ∀ (a b : SlotNo) (s : State), s.Ready → a.toNat < Config.NSLOT → b.toNat < Config.NSLOT →
    let bs := (s.slot b.toNat).data
    let start := (wordOfBytes (bs.getD 0 0) (bs.getD 1 0) (bs.getD 2 0) (bs.getD 3 0)).toInt
    (bs.length < 4 → exec (.ibwt a b) s = .next { s with status := 0x101, fcmd := encode (.ibwt a b) }) ∧
    (bs.length = 4 → exec (.ibwt a b) s = .next (s.setSlot a.toNat (preloaded []))) ∧
    (4 < bs.length → start < 0 ∨ (bs.length : Int) - 4 ≤ start → exec (.ibwt a b) s =
      .next { s with status := 0x301, fcmd := encode (.ibwt a b) }) ∧
    (4 < bs.length → 0 ≤ start → start < (bs.length : Int) - 4 →
      ∃ (out : Bytes) (table : List (Byte × Nat)) (row : Nat → Nat),
        exec (.ibwt a b) s = .next (s.setSlot a.toNat (preloaded out)) ∧
        out.length = bs.length - 4 ∧ table.Perm (bs.drop 4).zipIdx ∧
        table.Pairwise (fun p q => p.1.toNat < q.1.toNat ∨ (p.1 = q.1 ∧ p.2 < q.2)) ∧
        row 0 = start.toNat ∧
        ∀ k, k < bs.length - 4 → ∃ p, table[row k]? = some p ∧ out[k]? = some p.1 ∧ row (k + 1) = p.2)

/-- MTFE: each output byte is the index of the input byte in the recency list, which starts as the identity
and stays a permutation, its entry at that index moving to the front (43_mtf, sections 1 and 2). -/
def Obligations.MtfeEmitsListIndices : Prop :=
  ∀ (a b : SlotNo) (s : State), s.Ready → a.toNat < Config.NSLOT → b.toNat < Config.NSLOT →
    let x := (s.slot b.toNat).data
    ∃ (out : Bytes) (arr : Nat → Bytes), exec (.mtfe a b) s = .next (s.setSlot a.toNat (preloaded out)) ∧
      out.length = x.length ∧ arr 0 = (List.range 256).map (BitVec.ofNat 8) ∧
      ∀ j v, x[j]? = some v → ∃ c, out[j]? = some c ∧ (arr j)[c.toNat]? = some v ∧
        (arr j).Perm (arr 0) ∧ arr (j + 1) = v :: ((arr j).take c.toNat ++ (arr j).drop (c.toNat + 1))

/-- MTFD: each output byte is the entry of the recency list at the input byte, and the list moves the same
way (43_mtf, sections 1 and 2). -/
def Obligations.MtfdEmitsListEntries : Prop :=
  ∀ (a b : SlotNo) (s : State), s.Ready → a.toNat < Config.NSLOT → b.toNat < Config.NSLOT →
    let y := (s.slot b.toNat).data
    ∃ (out : Bytes) (arr : Nat → Bytes), exec (.mtfd a b) s = .next (s.setSlot a.toNat (preloaded out)) ∧
      out.length = y.length ∧ arr 0 = (List.range 256).map (BitVec.ofNat 8) ∧
      ∀ j c, y[j]? = some c → ∃ v, out[j]? = some v ∧ (arr j)[c.toNat]? = some v ∧
        (arr j).Perm (arr 0) ∧ arr (j + 1) = v :: ((arr j).take c.toNat ++ (arr j).drop (c.toNat + 1))

/-- HUFC: the output's bits are the length, the serialized tree, the code bits of the input in order, and
fewer than 8 zero bits; the tree is the one the queue builds, the least two entries leaving, the first to the
left; the code of a byte is the path to its leaf, 0 to the left; for the empty input the length alone; CAPACITY
when it passes MAX_LEN (44_huffman, sections 1 to 3). -/
def Obligations.HufcWritesTreeAndCodes : Prop :=
  ∀ (a b : SlotNo) (s : State), s.Ready → a.toNat < Config.NSLOT → b.toNat < Config.NSLOT →
    let x := (s.slot b.toNat).data
    ∃ out : Bytes,
      exec (.hufc a b) s = .next (if out.length ≤ Config.MAX_LEN then s.setSlot a.toNat (preloaded out)
        else { s with status := 0x401, fcmd := encode (.hufc a b) }) ∧
      (x = [] → out = [0, 0, 0, 0]) ∧
      (x ≠ [] → ∃ root pad, hufBuild Config.hufTieOrder x = some root ∧ IsHufTreeOf x root ∧
        (∀ v ∈ x, hufWalk root (hufCode root v) = some (.leaf v)) ∧ pad < 8 ∧
        out.flatMap byteBits = (wordBytes (BitVec.ofNat 32 x.length)).flatMap byteBits ++ hufTreeBits root ++
          x.flatMap (hufCode root) ++ List.replicate pad false)

/-- HUFX: a stream that holds a length n, a serialized tree and n code words of that tree, each the path to its
leaf with 0 to the left, expands to the values of those leaves, whatever bits follow; a stream with a positive length that holds no such thing faults OUT_OF_DATA; a
length field of 0 gives the empty output; a negative one faults FORMAT; fewer than 4 bytes fault OUT_OF_DATA
(44_huffman, sections 1 and 2). -/
def Obligations.HufxDecodesCodeWords : Prop :=
  ∀ (a b : SlotNo) (s : State), s.Ready → a.toNat < Config.NSLOT → b.toNat < Config.NSLOT →
    let bs := (s.slot b.toNat).data
    let length := (wordOfBytes (bs.getD 0 0) (bs.getD 1 0) (bs.getD 2 0) (bs.getD 3 0)).toInt
    let holds := fun (root : HufTree) (symbols : List (Byte × Bits)) (tail : Bits) =>
      (symbols.length : Int) = length ∧ (∀ q ∈ symbols, hufWalk root q.2 = some (.leaf q.1)) ∧
        (bs.drop 4).flatMap byteBits = hufTreeBits root ++ symbols.flatMap (fun q => q.2) ++ tail
    (bs.length < 4 → exec (.hufx a b) s = .next { s with status := 0x101, fcmd := encode (.hufx a b) }) ∧
    (4 ≤ bs.length → length < 0 → exec (.hufx a b) s =
      .next { s with status := 0x301, fcmd := encode (.hufx a b) }) ∧
    (4 ≤ bs.length → length = 0 → exec (.hufx a b) s = .next (s.setSlot a.toNat (preloaded []))) ∧
    (∀ root symbols tail, 4 ≤ bs.length → 0 < length → holds root symbols tail →
      exec (.hufx a b) s = .next (s.setSlot a.toNat (preloaded (symbols.map fun q => q.1)))) ∧
    (4 ≤ bs.length → 0 < length → (¬∃ root symbols tail, holds root symbols tail) → exec (.hufx a b) s =
      .next { s with status := 0x101, fcmd := encode (.hufx a b) })

/-- The tree builder dequeues the entry with the least frequency, and among those the least insertion number;
the tree it builds is the one of the queue, the leaves entering in ascending byte value, each parent with the
summed frequency and the next insertion number and the first dequeued node as its left child; under every tie
order the tree for a non-empty input has exactly the byte values of the input as its leaves, one each; the
code word of a leaf is the path to it, 0 to the left and 1 to the right; and the codes of any tree are
prefix-free: no code word of a leaf begins the code word of another (44_huffman, section 1). -/
def Obligations.HuffmanTreeAndCodes : Prop :=
  (∀ (q rest : List QEntry) (e : QEntry), hufTakeLeast Config.hufTieOrder q = some (e, rest) →
    q.Perm (e :: rest) ∧ ∀ e' ∈ rest, e.freq < e'.freq ∨ (e.freq = e'.freq ∧ e.seq ≤ e'.seq)) ∧
  (∀ x : Bytes, x ≠ [] → ∃ root, hufBuild Config.hufTieOrder x = some root ∧ IsHufTreeOf x root) ∧
  (∀ (tie : TieOrder) (x : Bytes), x ≠ [] → ∃ root, hufBuild tie x = some root ∧
    (leafValues root).Nodup ∧ ∀ v, v ∈ leafValues root ↔ v ∈ x) ∧
  (∀ (root : HufTree) (v : Byte) (bits : Bits),
    (v, bits) ∈ hufCodes root [] ↔ hufWalk root bits = some (.leaf v)) ∧
  (∀ (root : HufTree) (j k : Nat) (p q : Byte × Bits), (hufCodes root [])[j]? = some p →
    (hufCodes root [])[k]? = some q → p.2 <+: q.2 → j = k)

/-- RLEE: the input is cut into spans in order, each a maximal run of at least 3 equal bytes (repeating) or a
stretch that holds no such run (literal), no two literal spans adjacent; each span is cut into blocks of
16383 bytes and a last one of what remains; each block is a 1-byte header for a count up to 63, else a 2-byte
one, then the repeated byte or the literal bytes. CAPACITY when the output passes MAX_LEN; the empty input
has no span (45_rle, sections 1 and 2). -/
def Obligations.RleeWritesMaximalBlocks : Prop :=
  ∀ (a b : SlotNo) (s : State), s.Ready → a.toNat < Config.NSLOT → b.toNat < Config.NSLOT →
    let x := (s.slot b.toNat).data
    let block := fun (start count : Nat) (rep : Bool) =>
      (if count ≤ 63 then [BitVec.ofNat 8 ((if rep then 128 else 0) + count)]
        else [BitVec.ofNat 8 ((if rep then 128 else 0) + 64 + count / 256), BitVec.ofNat 8 count]) ++
      (if rep then [x.getD start 0] else (x.drop start).take count)
    let blocks := fun sp : RleSpan => (List.range ((sp.count + 16382) / 16383)).flatMap fun k =>
      block (sp.start + 16383 * k) (min 16383 (sp.count - 16383 * k)) sp.rep
    ∃ spans : List RleSpan,
      (spans.map fun sp => sp.count).sum = x.length ∧
      (∀ k sp, spans[k]? = some sp → sp.start = ((spans.take k).map fun sq => sq.count).sum) ∧
      (∀ k sp sq, spans[k]? = some sp → spans[k + 1]? = some sq → sp.rep = true ∨ sq.rep = true) ∧
      (∀ sp ∈ spans, sp.rep = true → 3 ≤ sp.count ∧ ∃ v : Byte,
        (∀ j, sp.start ≤ j → j < sp.start + sp.count → x[j]? = some v) ∧
        (sp.start = 0 ∨ x[sp.start - 1]? ≠ some v) ∧ x[sp.start + sp.count]? ≠ some v) ∧
      (∀ sp ∈ spans, sp.rep = false → 1 ≤ sp.count ∧ ∀ (v : Byte) (lo : Nat), sp.start ≤ lo →
        lo + 3 ≤ sp.start + sp.count → ¬∀ j, lo ≤ j → j < lo + 3 → x[j]? = some v) ∧
      exec (.rlee a b) s = .next (if (spans.flatMap blocks).length ≤ Config.MAX_LEN
        then s.setSlot a.toNat (preloaded (spans.flatMap blocks))
        else { s with status := 0x401, fcmd := encode (.rlee a b) })

/-- RLED: the command commits what the stream decodes to, or faults CAPACITY when that passes MAX_LEN, or
faults OUT_OF_DATA when the stream ends inside a block (45_rle, section 3). -/
def Obligations.RledWritesDecodedBytes : Prop :=
  ∀ (a b : SlotNo) (s : State), s.Ready → a.toNat < Config.NSLOT → b.toNat < Config.NSLOT →
    exec (.rled a b) s = .next (match rleDecode (s.slot b.toNat).data with
      | .ok out => if out.length ≤ Config.MAX_LEN then s.setSlot a.toNat (preloaded out)
        else { s with status := 0x401, fcmd := encode (.rled a b) }
      | .error _ => { s with status := 0x101, fcmd := encode (.rled a b) })

/-- One block of a stream decodes to its bytes, then the rest is decoded: small and large headers, repeating
and literal, every count they can hold, zero included; a stream that ends inside a block runs out of data
(45_rle, sections 1 and 3). -/
def Obligations.RledDecodesBlockByBlock : Prop :=
  rleDecode [] = .ok [] ∧
  (∀ (c : Nat) (lits rest : Bytes), c ≤ 63 → lits.length = c →
    rleDecode (BitVec.ofNat 8 c :: (lits ++ rest)) = (rleDecode rest).map (lits ++ ·)) ∧
  (∀ (c : Nat) (lits rest : Bytes), c ≤ 16383 → lits.length = c →
    rleDecode (BitVec.ofNat 8 (64 + c / 256) :: BitVec.ofNat 8 c :: (lits ++ rest)) =
      (rleDecode rest).map (lits ++ ·)) ∧
  (∀ (c : Nat) (v : Byte) (rest : Bytes), c ≤ 63 →
    rleDecode (BitVec.ofNat 8 (128 + c) :: v :: rest) = (rleDecode rest).map (List.replicate c v ++ ·)) ∧
  (∀ (c : Nat) (v : Byte) (rest : Bytes), c ≤ 16383 →
    rleDecode (BitVec.ofNat 8 (192 + c / 256) :: BitVec.ofNat 8 c :: v :: rest) =
      (rleDecode rest).map (List.replicate c v ++ ·)) ∧
  (∀ (c : Nat) (lits : Bytes), c ≤ 63 → lits.length < c →
    rleDecode (BitVec.ofNat 8 c :: lits) = .error .outOfData) ∧
  (∀ (c : Nat) (lits : Bytes), c ≤ 16383 → lits.length < c →
    rleDecode (BitVec.ofNat 8 (64 + c / 256) :: BitVec.ofNat 8 c :: lits) = .error .outOfData) ∧
  (∀ h : Byte, 0 < h.toNat → rleDecode [h] = .error .outOfData) ∧
  (∀ h c : Byte, 192 ≤ h.toNat → rleDecode [h, c] = .error .outOfData)

/-! ## Round trips -/

/-- MTF decode undoes encode, and encode undoes decode, for every byte sequence (43_mtf, section 2,
"Round-trip law"). -/
def Obligations.MtfRoundTrip : Prop :=
  ∀ x : Bytes, mtfDecode (mtfEncode x) = x ∧ mtfEncode (mtfDecode x) = x

/-- RLE decode undoes encode, for every byte sequence (45_rle, section 3, "Round-trip law"). -/
def Obligations.RleRoundTrip : Prop :=
  ∀ x : Bytes, rleDecode (rleEncode x) = .ok x

/-- The inverse BWT undoes the forward one, for every byte sequence a slot can hold, periodic ones and the
empty one included (42_bwt, section 2, "Round-trip law"). -/
def Obligations.BwtRoundTrip : Prop :=
  ∀ x : Bytes, x.length ≤ Config.MAX_LEN → ibwt (bwt x) = .ok x

/-- Huffman expand undoes compress under every tie order, for every byte sequence a slot can hold
(44_huffman, section 3, "Round-trip law"). -/
def Obligations.HuffmanRoundTripUnderEveryTieOrder : Prop :=
  ∀ (tie : TieOrder) (x : Bytes), x.length ≤ Config.MAX_LEN → hufExpand (hufCompress x tie) = .ok x
end

