-- ==== Sys2Proof/Laws/State.lean ====
section
/-! SUPPORT. One lemma per field per update of State and BitBuffer, and reading a slot after a write. -/

namespace Sys2Proof.Machine

open Sys2Proof

variable (s : State) (n m : Nat) (st : BitBuffer) (v : Word32) (x : FaultCode) (w : Word64)

@[simp] theorem setSlot_slots_length : (s.setSlot n st).slots.length = s.slots.length := List.length_set
@[simp] theorem setSlot_res : (s.setSlot n st).res = s.res := rfl
@[simp] theorem setSlot_status : (s.setSlot n st).status = s.status := rfl
@[simp] theorem setSlot_fcmd : (s.setSlot n st).fcmd = s.fcmd := rfl
@[simp] theorem setSlot_hostQueue : (s.setSlot n st).hostQueue = s.hostQueue := rfl
@[simp] theorem setSlot_hostReply : (s.setSlot n st).hostReply = s.hostReply := rfl
@[simp] theorem setSlot_issued : (s.setSlot n st).issued = s.issued := rfl
@[simp] theorem setSlot_faulted : (s.setSlot n st).faulted = s.faulted := rfl

@[simp] theorem setRes_slots : (s.setRes v).slots = s.slots := rfl
@[simp] theorem setRes_slot : (s.setRes v).slot n = s.slot n := rfl
@[simp] theorem setRes_res : (s.setRes v).res = v := rfl
@[simp] theorem setRes_status : (s.setRes v).status = s.status := rfl
@[simp] theorem setRes_fcmd : (s.setRes v).fcmd = s.fcmd := rfl
@[simp] theorem setRes_hostQueue : (s.setRes v).hostQueue = s.hostQueue := rfl
@[simp] theorem setRes_hostReply : (s.setRes v).hostReply = s.hostReply := rfl
@[simp] theorem setRes_issued : (s.setRes v).issued = s.issued := rfl
@[simp] theorem setRes_faulted : (s.setRes v).faulted = s.faulted := rfl

@[simp] theorem takeFault_slots : (takeFault x w s).slots = s.slots := rfl
@[simp] theorem takeFault_slot : (takeFault x w s).slot n = s.slot n := rfl
@[simp] theorem takeFault_res : (takeFault x w s).res = s.res := rfl
@[simp] theorem takeFault_status : (takeFault x w s).status = faultStatus x := rfl
@[simp] theorem takeFault_fcmd : (takeFault x w s).fcmd = w := rfl
@[simp] theorem takeFault_hostQueue : (takeFault x w s).hostQueue = s.hostQueue := rfl
@[simp] theorem takeFault_hostReply : (takeFault x w s).hostReply = s.hostReply := rfl
@[simp] theorem takeFault_issued : (takeFault x w s).issued = s.issued := rfl
@[simp] theorem takeFault_faulted : (takeFault x w s).faulted = true := by
  show statusFault (faultStatus x) = true
  cases x <;> decide

@[simp] theorem clearFault_slots : (clearFault s).slots = s.slots := rfl
@[simp] theorem clearFault_slot : (clearFault s).slot n = s.slot n := rfl
@[simp] theorem clearFault_res : (clearFault s).res = s.res := rfl
@[simp] theorem clearFault_status : (clearFault s).status = 0 := rfl
@[simp] theorem clearFault_fcmd : (clearFault s).fcmd = 0 := rfl
@[simp] theorem clearFault_hostQueue : (clearFault s).hostQueue = s.hostQueue := rfl
@[simp] theorem clearFault_hostReply : (clearFault s).hostReply = s.hostReply := rfl
@[simp] theorem clearFault_issued : (clearFault s).issued = s.issued := rfl
@[simp] theorem clearFault_faulted : (clearFault s).faulted = false := by
  show statusFault 0 = false; decide

@[simp] theorem issuing_slots (rest : List HostAction) : (s.issuing rest).slots = s.slots := rfl
@[simp] theorem issuing_slot (rest : List HostAction) : (s.issuing rest).slot n = s.slot n := rfl
@[simp] theorem issuing_res (rest : List HostAction) : (s.issuing rest).res = s.res := rfl
@[simp] theorem issuing_status (rest : List HostAction) : (s.issuing rest).status = s.status := rfl
@[simp] theorem issuing_fcmd (rest : List HostAction) : (s.issuing rest).fcmd = s.fcmd := rfl
@[simp] theorem issuing_hostQueue (rest : List HostAction) : (s.issuing rest).hostQueue = rest := rfl
@[simp] theorem issuing_hostReply (rest : List HostAction) : (s.issuing rest).hostReply = s.hostReply := rfl
@[simp] theorem issuing_issued (rest : List HostAction) : (s.issuing rest).issued = s.issued + 1 := rfl
@[simp] theorem issuing_faulted (rest : List HostAction) : (s.issuing rest).faulted = s.faulted := rfl

/-- Reading the slot that was written (10_state R20). -/
theorem slot_setSlot_same (h : n < s.slots.length) : (s.setSlot n st).slot n = st := by
  simp [State.slot, State.setSlot, h]

/-- Slots are not aliased: another slot reads as before (10_state R20). -/
theorem slot_setSlot_ne (h : m ≠ n) : (s.setSlot n st).slot m = s.slot m := by
  simp [State.slot, State.setSlot, Ne.symm h]

/-- Both cases at once. -/
theorem slot_setSlot : (s.setSlot n st).slot m = if m = n ∧ n < s.slots.length then st else s.slot m := by
  by_cases hm : m = n
  · subst hm
    by_cases h : m < s.slots.length
    · simp [h, slot_setSlot_same]
    · simp [h, State.slot, State.setSlot]
  · simp [hm, slot_setSlot_ne]

/-- A slot of the core is a member of its list of slots. -/
theorem slot_mem (h : n < s.slots.length) : s.slot n ∈ s.slots := by
  have : s.slot n = s.slots[n] := by simp [State.slot, h]
  rw [this]; exact List.getElem_mem h

/-- Two states are equal when their slots and their other fields are. -/
theorem state_ext {s t : State} (hl : s.slots.length = t.slots.length)
    (hs : ∀ k, k < s.slots.length → s.slot k = t.slot k) (hr : s.res = t.res)
    (hst : s.status = t.status) (hf : s.fcmd = t.fcmd) (hq : s.hostQueue = t.hostQueue)
    (hy : s.hostReply = t.hostReply) (hi : s.issued = t.issued) : s = t := by
  have hv : s.slots = t.slots := by
    apply List.ext_getElem hl
    intro k hk hk'
    have := hs k hk
    simpa [State.slot, hk, hk'] using this
  cases s; cases t; simp_all

/-- Writing back what a slot holds changes nothing. -/
theorem setSlot_slot : s.setSlot n (s.slot n) = s := by
  apply state_ext <;> try rfl
  · simp
  · intro k _
    rw [slot_setSlot]
    split
    · next h => rw [h.1]
    · rfl

@[simp] theorem resetFor_slots_length (p : Params) : (State.resetFor p).slots.length = p.nslot := by
  simp [State.resetFor]
@[simp] theorem resetFor_res (p : Params) : (State.resetFor p).res = 0 := rfl
@[simp] theorem resetFor_status (p : Params) : (State.resetFor p).status = 0 := rfl
@[simp] theorem resetFor_fcmd (p : Params) : (State.resetFor p).fcmd = 0 := rfl

/-- Every slot of the machine after reset is empty (10_state R35). -/
@[simp] theorem resetFor_slot (p : Params) : (State.resetFor p).slot n = BitBuffer.empty := by
  unfold State.slot State.resetFor
  by_cases h : n < p.nslot <;> simp [h]

@[simp] theorem reset_slot : State.reset.slot n = BitBuffer.empty := resetFor_slot n Config.params

/-! This hardware's parameters (00_scope R6, R7). -/

@[simp] theorem params_nslot : Config.params.nslot = Config.NSLOT := rfl
@[simp] theorem params_maxLen : Config.params.maxLen = Config.MAX_LEN := rfl
@[simp] theorem params_tieOrder : Config.params.tieOrder = Config.hufTieOrder := rfl

/-- This hardware's tie order is in the range of HUF_TIE_ORDER (44_huffman R203). -/
theorem hufTieOrder_isTotal : Config.hufTieOrder.isTotal := by
  refine ⟨fun e => by simp [Config.hufTieOrder], fun e₁ e₂ e₃ _ _ h h' => ?_, fun e₁ e₂ _ h => ?_⟩
  · simp [Config.hufTieOrder] at *; omega
  · simp [Config.hufTieOrder]; omega

/-- This hardware's parameters are in their ranges (00_scope R6, R7). -/
theorem params_inRange : Config.params.inRange :=
  ⟨by decide, by decide, by decide, by decide, hufTieOrder_isTotal⟩

/-- `empty() = preloaded([])` (10_state R23). -/
theorem empty_eq_preloaded : BitBuffer.empty = preloaded [] := rfl

@[simp] theorem empty_data : BitBuffer.empty.data = [] := rfl
@[simp] theorem empty_npend : BitBuffer.empty.npend = 0 := rfl
@[simp] theorem preloaded_data (bs : Bytes) : (preloaded bs).data = bs := rfl
@[simp] theorem preloaded_pend (bs : Bytes) : (preloaded bs).pend = 0 := rfl
@[simp] theorem preloaded_npend (bs : Bytes) : (preloaded bs).npend = 0 := rfl
@[simp] theorem preloaded_cursor (bs : Bytes) : (preloaded bs).cursor = 0 := rfl
@[simp] theorem preloaded_cur (bs : Bytes) : (preloaded bs).cur = 0 := rfl
@[simp] theorem preloaded_rem (bs : Bytes) : (preloaded bs).rem = 0 := rfl

@[simp] theorem bbAppend_data (b : Byte) : (bbAppend st b).data = st.data ++ [b] := rfl
@[simp] theorem bbAppend_pend (b : Byte) : (bbAppend st b).pend = st.pend := rfl
@[simp] theorem bbAppend_npend (b : Byte) : (bbAppend st b).npend = st.npend := rfl
@[simp] theorem bbAppend_cursor (b : Byte) : (bbAppend st b).cursor = st.cursor := rfl
@[simp] theorem bbAppend_cur (b : Byte) : (bbAppend st b).cur = st.cur := rfl
@[simp] theorem bbAppend_rem (b : Byte) : (bbAppend st b).rem = st.rem := rfl

end Sys2Proof.Machine
end

