-- ==== Sys2Proof/Laws/BitStream.lean ====
section
/-! SUPPORT. What each Bit Buffer operation does, said once: to the stream of written bits and to the stream
of unread bits (spec/41_bitbuffer.md rules R101 to R118). -/

namespace Sys2Proof.Machine

open Sys2Proof

/-! Bits of a byte. -/

@[simp] theorem byteBits_length (v : Byte) : (byteBits v).length = 8 := rfl

@[simp] theorem lowBits_zero (v : Byte) : lowBits v 0 = [] := rfl

theorem lowBits_length (v : Byte) {k : Nat} (hk : k ≤ 8) : (lowBits v k).length = k := by
  simp [lowBits]; omega

theorem lowBits_eight (v : Byte) : lowBits v 8 = byteBits v := rfl

/-- The low bits start with the highest of them. -/
theorem lowBits_succ (v : Byte) {k : Nat} (hk : k < 8) : lowBits v (k + 1) = v.getLsbD k :: lowBits v k := by
  have : k = 0 ∨ k = 1 ∨ k = 2 ∨ k = 3 ∨ k = 4 ∨ k = 5 ∨ k = 6 ∨ k = 7 := by omega
  rcases this with h | h | h | h | h | h | h | h <;> subst h <;> rfl

theorem shiftInBit_eq (v : Byte) (b : Bool) : shiftInBit v b = (v <<< 1) ||| bitToByte b := by
  cases b <;> revert v <;> decide

theorem shiftInBit_getLsbD_zero (v : Byte) (b : Bool) : (shiftInBit v b).getLsbD 0 = b := by
  rw [shiftInBit_eq]; cases b <;> simp [bitToByte]

theorem shiftInBit_getLsbD_succ (v : Byte) (b : Bool) {i : Nat} (hi : i < 7) :
    (shiftInBit v b).getLsbD (i + 1) = v.getLsbD i := by
  have hb : (bitToByte b).getLsbD (i + 1) = false := by cases b <;> simp [bitToByte]
  rw [shiftInBit_eq, BitVec.getLsbD_or, hb]
  simp; omega

/-- Shifting a bit in adds it after the low bits. -/
theorem lowBits_shiftInBit (v : Byte) (b : Bool) {k : Nat} (hk : k < 8) :
    lowBits (shiftInBit v b) (k + 1) = lowBits v k ++ [b] := by
  induction k with
  | zero => rw [lowBits_succ _ hk, shiftInBit_getLsbD_zero]; rfl
  | succ j ih =>
    rw [lowBits_succ _ hk, ih (by omega), lowBits_succ _ (by omega : j < 8)]
    rw [shiftInBit_getLsbD_succ _ _ (by omega)]; rfl

/-- A byte is its eight bits. -/
theorem byteBits_inj {u v : Byte} (h : byteBits u = byteBits v) : u = v := by
  simp only [byteBits, List.cons.injEq, and_true] at h
  obtain ⟨h7, h6, h5, h4, h3, h2, h1, h0⟩ := h
  apply BitVec.eq_of_getLsbD_eq
  intro i hi
  have : i = 0 ∨ i = 1 ∨ i = 2 ∨ i = 3 ∨ i = 4 ∨ i = 5 ∨ i = 6 ∨ i = 7 := by omega
  rcases this with h | h | h | h | h | h | h | h <;> subst h <;> assumption

/-- The bits of a byte denote it. -/
theorem bitsValue_byteBits (v : Byte) : bitsValue (byteBits v) = v.toNat := by
  revert v; decide

/-- A byte sequence is its bits. -/
theorem flatMap_byteBits_inj {us vs : Bytes} (h : us.flatMap byteBits = vs.flatMap byteBits) : us = vs := by
  induction us generalizing vs with
  | nil =>
    cases vs with
    | nil => rfl
    | cons v vs => simp [byteBits] at h
  | cons u us ih =>
    cases vs with
    | nil => simp [byteBits] at h
    | cons v vs =>
      simp only [List.flatMap_cons] at h
      obtain ⟨h1, h2⟩ := List.append_inj h (by simp)
      rw [byteBits_inj h1, ih h2]

/-! The write side. -/

/-- The legal encode state of a buffer: at most 7 pending bits, and no bit of `pend` above them
(10_state R21). -/
def EncodeOk (st : BitBuffer) : Prop := st.npend ≤ 7 ∧ st.pend.toNat < 2 ^ st.npend

theorem encodeOk_empty : EncodeOk BitBuffer.empty := by simp [EncodeOk, BitBuffer.empty]

theorem encodeOk_of_wf {st : BitBuffer} {p : Params} (h : st.wf p = true) : EncodeOk st := by
  simp [BitBuffer.wf] at h; exact ⟨h.1.1.1.2, h.1.1.2⟩

/-- What a write keeps: the decode state, the bytes there already, and the encode state's form. -/
structure WriteKeeps (st st' : BitBuffer) : Prop where
  cursor : st'.cursor = st.cursor
  cur : st'.cur = st.cur
  rem : st'.rem = st.rem
  data : st.data <+: st'.data
  ok : EncodeOk st → EncodeOk st'

theorem WriteKeeps.refl (st : BitBuffer) : WriteKeeps st st := ⟨rfl, rfl, rfl, List.prefix_rfl, id⟩

theorem WriteKeeps.trans {a b c : BitBuffer} (h : WriteKeeps a b) (h' : WriteKeeps b c) : WriteKeeps a c :=
  ⟨h'.cursor.trans h.cursor, h'.cur.trans h.cur, h'.rem.trans h.rem, h.data.trans h'.data, h'.ok ∘ h.ok⟩

theorem shiftInBit_toNat {p : Byte} (b : Bool) (hp : p.toNat < 128) :
    (shiftInBit p b).toNat = 2 * p.toNat + b.toNat := by
  have : (bitToByte b).toNat = b.toNat := by cases b <;> rfl
  have hb : b.toNat ≤ 1 := by cases b <;> simp
  rw [shiftInBit, BitVec.toNat_add, BitVec.toNat_mul, this]
  simp; omega

theorem bbWriteBit_keeps (st : BitBuffer) (b : Bool) : WriteKeeps st (bbWriteBit st b) := by
  unfold bbWriteBit
  split
  · exact ⟨rfl, rfl, rfl, List.prefix_append _ _, fun _ => by simp [EncodeOk]⟩
  · refine ⟨rfl, rfl, rfl, List.prefix_rfl, fun ⟨h1, h2⟩ => ⟨?_, ?_⟩⟩
    · simp only; omega
    · have h7 : st.npend ≤ 6 := by omega
      have h64 : (2 : Nat) ^ st.npend ≤ 2 ^ 6 := Nat.pow_le_pow_right (by omega) h7
      have hb : b.toNat ≤ 1 := by cases b <;> simp
      show (shiftInBit st.pend b).toNat < 2 ^ (st.npend + 1)
      rw [shiftInBit_toNat b (by omega), Nat.pow_succ]; omega

/-- A bit write adds its bit to the stream (41_bitbuffer R105). -/
theorem bbWriteBit_stream {st : BitBuffer} (b : Bool) (h : EncodeOk st) :
    streamBits (bbWriteBit st b) = streamBits st ++ [b] := by
  have hk : st.npend < 8 := by have := h.1; omega
  have hd := lowBits_shiftInBit st.pend b hk
  unfold bbWriteBit
  split
  · next h8 =>
    have : st.npend = 7 := by omega
    rw [this, lowBits_eight] at hd
    simp [streamBits, bbAppend, hd, this]
  · simp [streamBits, hd]

theorem bbWriteBits_keeps (st : BitBuffer) (bits : Bits) : WriteKeeps st (bbWriteBits st bits) := by
  induction bits generalizing st with
  | nil => exact WriteKeeps.refl st
  | cons b bs ih => exact (bbWriteBit_keeps st b).trans (ih _)

/-- Bit writes add their bits to the stream, in order. -/
theorem bbWriteBits_stream {st : BitBuffer} (bits : Bits) (h : EncodeOk st) :
    streamBits (bbWriteBits st bits) = streamBits st ++ bits := by
  induction bits generalizing st with
  | nil => simp [bbWriteBits]
  | cons b bs ih =>
    have := ih ((bbWriteBit_keeps st b).ok h)
    simp only [bbWriteBits, List.foldl_cons] at this ⊢
    rw [this, bbWriteBit_stream b h]; simp

theorem bbWriteByte_keeps (st : BitBuffer) (v : Byte) : WriteKeeps st (bbWriteByte st v) := by
  unfold bbWriteByte
  split
  · exact ⟨rfl, rfl, rfl, List.prefix_append _ _, id⟩
  · exact bbWriteBits_keeps st _

/-- A byte write adds its eight bits to the stream (41_bitbuffer R106). -/
theorem bbWriteByte_stream {st : BitBuffer} (v : Byte) (h : EncodeOk st) :
    streamBits (bbWriteByte st v) = streamBits st ++ byteBits v := by
  unfold bbWriteByte
  split
  · next h0 => simp [streamBits, bbAppend, h0]
  · exact bbWriteBits_stream _ h

theorem bbWriteBytes_keeps (st : BitBuffer) (bs : Bytes) : WriteKeeps st (bbWriteBytes st bs) := by
  induction bs generalizing st with
  | nil => exact WriteKeeps.refl st
  | cons b bs ih => exact (bbWriteByte_keeps st b).trans (ih _)

/-- Byte writes add the bits of their bytes to the stream (41_bitbuffer R107). -/
theorem bbWriteBytes_stream {st : BitBuffer} (bs : Bytes) (h : EncodeOk st) :
    streamBits (bbWriteBytes st bs) = streamBits st ++ bs.flatMap byteBits := by
  induction bs generalizing st with
  | nil => simp [bbWriteBytes]
  | cons b bs ih =>
    have := ih ((bbWriteByte_keeps st b).ok h)
    simp only [bbWriteBytes, List.foldl_cons] at this ⊢
    rw [this, bbWriteByte_stream b h]; simp

theorem bbWriteInt_keeps (st : BitBuffer) (w : Word32) : WriteKeeps st (bbWriteInt st w) :=
  bbWriteBytes_keeps st _

/-- An integer write adds its 32 bits to the stream (41_bitbuffer R108). -/
theorem bbWriteInt_stream {st : BitBuffer} (w : Word32) (h : EncodeOk st) :
    streamBits (bbWriteInt st w) = streamBits st ++ (wordBytes w).flatMap byteBits :=
  bbWriteBytes_stream _ h

theorem bbFlush_keeps (st : BitBuffer) : WriteKeeps st (bbFlush st) := by
  unfold bbFlush
  split
  · exact WriteKeeps.refl st
  · exact ⟨rfl, rfl, rfl, List.prefix_append _ _, fun _ => by simp [EncodeOk]⟩

/-- After a flush nothing is pending (41_bitbuffer R109). -/
theorem bbFlush_npend (st : BitBuffer) : (bbFlush st).npend = 0 := by
  unfold bbFlush
  split
  · assumption
  · rfl

theorem byteBits_shiftLeft (p : Byte) {k : Nat} (hk : k ≤ 8) :
    byteBits (p <<< (8 - k)) = lowBits p k ++ List.replicate (8 - k) false := by
  have : k = 0 ∨ k = 1 ∨ k = 2 ∨ k = 3 ∨ k = 4 ∨ k = 5 ∨ k = 6 ∨ k = 7 ∨ k = 8 := by omega
  rcases this with h | h | h | h | h | h | h | h | h <;> subst h <;>
    simp [byteBits, lowBits, List.replicate]

/-- A flush adds zero bits up to the next byte boundary (41_bitbuffer R109). -/
theorem bbFlush_stream {st : BitBuffer} (h : EncodeOk st) :
    streamBits (bbFlush st) =
      streamBits st ++ List.replicate (if st.npend = 0 then 0 else 8 - st.npend) false := by
  unfold bbFlush
  split
  · next h0 => simp
  · have := byteBits_shiftLeft st.pend (by have := h.1; omega : st.npend ≤ 8)
    simp [streamBits, bbAppend, this]

/-- The bytes of a flushed buffer hold its stream, padded with fewer than 8 zero bits (41_bitbuffer R116). -/
theorem bbFlush_data_bits {st : BitBuffer} (h : EncodeOk st) :
    (bbFlush st).data.flatMap byteBits =
      streamBits st ++ List.replicate (if st.npend = 0 then 0 else 8 - st.npend) false := by
  have := bbFlush_stream h
  rw [← this]
  simp [streamBits, bbFlush_npend]

/-! Byte-aligned writing: with nothing pending, bytes are appended as they are. -/

theorem bbWriteBytes_aligned {st : BitBuffer} (bs : Bytes) (h : st.npend = 0) :
    bbWriteBytes st bs = { st with data := st.data ++ bs } := by
  induction bs generalizing st with
  | nil => simp [bbWriteBytes]
  | cons b bs ih =>
    have hb : bbWriteByte st b = bbAppend st b := by simp [bbWriteByte, h]
    have := ih (st := bbAppend st b) h
    simp only [bbWriteBytes, List.foldl_cons] at this ⊢
    rw [hb, this]; simp [bbAppend]

theorem bbFlush_aligned {st : BitBuffer} (h : st.npend = 0) : bbFlush st = st := by simp [bbFlush, h]

/-- The output of a transform that writes whole bytes is those bytes. -/
theorem flush_writeBytes_empty (bs : Bytes) : (bbFlush (bbWriteBytes BitBuffer.empty bs)).data = bs := by
  rw [bbWriteBytes_aligned bs rfl, bbFlush_aligned rfl]; rfl

/-- The output of a transform that writes an integer and then whole bytes. -/
theorem flush_writeInt_writeBytes_empty (w : Word32) (bs : Bytes) :
    (bbFlush (bbWriteBytes (bbWriteInt BitBuffer.empty w) bs)).data = wordBytes w ++ bs := by
  unfold bbWriteInt
  rw [bbWriteBytes_aligned (wordBytes w) rfl, bbWriteBytes_aligned bs rfl, bbFlush_aligned rfl]; rfl

/-! The read side. -/

/-- What a read keeps: `data` and the encode state (10_state R24). -/
structure ReadKeeps (st st' : BitBuffer) : Prop where
  data : st'.data = st.data
  pend : st'.pend = st.pend
  npend : st'.npend = st.npend
  cursor : st.cursor ≤ st'.cursor
  inside : st.cursor ≤ st.data.length → st'.cursor ≤ st.data.length
  rem : st.rem ≤ 7 → st'.rem ≤ 7

theorem ReadKeeps.refl (st : BitBuffer) : ReadKeeps st st := ⟨rfl, rfl, rfl, le_rfl, id, id⟩

theorem ReadKeeps.trans {a b c : BitBuffer} (h : ReadKeeps a b) (h' : ReadKeeps b c) : ReadKeeps a c where
  data := h'.data.trans h.data
  pend := h'.pend.trans h.pend
  npend := h'.npend.trans h.npend
  cursor := h.cursor.trans h'.cursor
  inside hc := by have := h'.inside (by rw [h.data]; exact h.inside hc); rwa [h.data] at this
  rem hr := h'.rem (h.rem hr)

theorem bbReadBit_keeps {st st' : BitBuffer} {b : Bool} (h : bbReadBit st = .ok (st', b)) :
    ReadKeeps st st' := by
  unfold bbReadBit at h
  split at h
  · split at h
    · cases h
    · next v hv =>
      cases h
      have := (List.getElem?_eq_some_iff.mp hv).1
      exact ⟨rfl, rfl, rfl, by simp, fun _ => by simp only; omega, fun _ => by simp⟩
  · cases h
    exact ⟨rfl, rfl, rfl, le_rfl, id, fun _ => by simp only; omega⟩

/-- A bit read takes the first unread bit, and runs out of data exactly when there is none
(41_bitbuffer R103, R110, R111). -/
theorem bbReadBit_spec {st : BitBuffer} (hr : st.rem ≤ 7) :
    match unreadBits st with
    | [] => bbReadBit st = .error .outOfData
    | b :: rest => ∃ st', bbReadBit st = .ok (st', b) ∧ unreadBits st' = rest := by
  by_cases h0 : st.rem = 0
  · cases hv : st.data[st.cursor]? with
    | none =>
      have hl := List.getElem?_eq_none_iff.mp hv
      have : unreadBits st = [] := by simp [unreadBits, h0, List.drop_eq_nil_of_le hl]
      rw [this]; simp [bbReadBit, h0, hv]
    | some v =>
      obtain ⟨hl, hv'⟩ := List.getElem?_eq_some_iff.mp hv
      have : unreadBits st = v.getLsbD 7 :: (lowBits v 7 ++ (st.data.drop (st.cursor + 1)).flatMap byteBits) := by
        simp only [unreadBits, h0, lowBits_zero, List.nil_append]
        rw [List.drop_eq_getElem_cons hl, hv', List.flatMap_cons, ← lowBits_eight, lowBits_succ v (by omega : 7 < 8)]
        rfl
      rw [this]
      exact ⟨{ st with cur := v, cursor := st.cursor + 1, rem := 7 }, by simp [bbReadBit, h0, hv], rfl⟩
  · obtain ⟨k, hk⟩ : ∃ k, st.rem = k + 1 := ⟨st.rem - 1, by omega⟩
    have : unreadBits st = st.cur.getLsbD k :: (lowBits st.cur k ++ (st.data.drop st.cursor).flatMap byteBits) := by
      simp only [unreadBits, hk]
      rw [lowBits_succ _ (by omega)]; rfl
    rw [this]
    exact ⟨{ st with rem := k }, by simp [bbReadBit, hk], rfl⟩

/-- A bit read fails only for want of data (41_bitbuffer R103). -/
theorem bbReadBit_error {st : BitBuffer} {x : FaultCode} (h : bbReadBit st = .error x) : x = .outOfData := by
  unfold bbReadBit at h
  split at h
  · split at h <;> cases h; rfl
  · cases h

/-- Shifting `bits` in leaves them as the low bits. -/
theorem lowBits_foldl_shiftInBit (v : Byte) (bits : Bits) (h : bits.length ≤ 8) :
    lowBits (bits.foldl shiftInBit v) bits.length = bits := by
  induction bits using List.reverseRecOn with
  | nil => rfl
  | append_singleton bs b ih =>
    rw [List.length_append] at h ⊢
    rw [List.foldl_append]
    have hl : bs.length < 8 := by simp at h; omega
    simpa [ih (by omega)] using lowBits_shiftInBit (bs.foldl shiftInBit v) b hl

/-- `k` bit reads take the next `k` unread bits, or run out of data (41_bitbuffer R111). -/
theorem bbReadBitsInto_spec (k : Nat) {st : BitBuffer} (v : Byte) (hr : st.rem ≤ 7) :
    if k ≤ (unreadBits st).length then
      ∃ st', bbReadBitsInto k st v = .ok (st', ((unreadBits st).take k).foldl shiftInBit v) ∧
        unreadBits st' = (unreadBits st).drop k ∧ ReadKeeps st st'
    else bbReadBitsInto k st v = .error .outOfData := by
  induction k generalizing st v with
  | zero => simpa [bbReadBitsInto] using ReadKeeps.refl st
  | succ k ih =>
    have hspec := bbReadBit_spec hr
    cases hu : unreadBits st with
    | nil => rw [hu] at hspec; simp [bbReadBitsInto, hspec]
    | cons b rest =>
      rw [hu] at hspec
      obtain ⟨st1, h1, hu1⟩ := hspec
      have hk1 := bbReadBit_keeps h1
      have := ih (st := st1) (shiftInBit v b) (hk1.rem hr)
      rw [hu1] at this
      simp only [List.length_cons, Nat.add_le_add_iff_right, bbReadBitsInto, h1]
      split
      · next hle =>
        rw [if_pos hle] at this
        obtain ⟨st', h', hu', hk'⟩ := this
        exact ⟨st', by simpa using h', by simpa using hu', hk1.trans hk'⟩
      · next hle => rw [if_neg hle] at this; exact this

theorem unreadBits_length {st : BitBuffer} (hr : st.rem ≤ 8) :
    (unreadBits st).length = st.rem + 8 * (st.data.length - st.cursor) := by
  have : ∀ bs : Bytes, (bs.flatMap byteBits).length = 8 * bs.length := by
    intro bs
    induction bs with
    | nil => rfl
    | cons b bs ih => simp [ih]; omega
  rw [unreadBits, List.length_append, lowBits_length _ hr, this, List.length_drop]

/-- A byte read takes the next eight unread bits, or runs out of data (41_bitbuffer R112). -/
theorem bbReadByte_spec {st : BitBuffer} (hr : st.rem ≤ 7) :
    if 8 ≤ (unreadBits st).length then
      ∃ st' v, bbReadByte st = .ok (st', v) ∧ byteBits v = (unreadBits st).take 8 ∧
        unreadBits st' = (unreadBits st).drop 8 ∧ ReadKeeps st st'
    else bbReadByte st = .error .outOfData := by
  by_cases h0 : st.rem = 0
  · rw [unreadBits_length (by omega), h0]
    cases hv : st.data[st.cursor]? with
    | none =>
      have hl := List.getElem?_eq_none_iff.mp hv
      rw [if_neg (by omega)]
      simp [bbReadByte, h0, hv]
    | some v =>
      obtain ⟨hl, hv'⟩ := List.getElem?_eq_some_iff.mp hv
      rw [if_pos (by omega)]
      have hd : st.data.drop st.cursor = v :: st.data.drop (st.cursor + 1) := by
        rw [List.drop_eq_getElem_cons hl, hv']
      refine ⟨{ st with cursor := st.cursor + 1 }, v, by simp [bbReadByte, h0, hv], ?_, ?_, ?_⟩
      · simp [unreadBits, h0, hd, List.take_append]
      · simp [unreadBits, h0, hd, List.drop_append]
      · exact ⟨rfl, rfl, rfl, by simp, fun _ => by simp only; omega, id⟩
  · have := bbReadBitsInto_spec 8 (0 : Byte) hr
    split at this
    · next hle =>
      rw [if_pos hle]
      obtain ⟨st', h', hu', hk'⟩ := this
      refine ⟨st', _, by rw [bbReadByte, if_neg h0, h'], ?_, hu', hk'⟩
      have hlen : ((unreadBits st).take 8).length = 8 := by simp [hle]
      have := lowBits_foldl_shiftInBit 0 ((unreadBits st).take 8) (by omega)
      rwa [hlen, lowBits_eight] at this
    · next hle => rw [if_neg hle, bbReadByte, if_neg h0, this]

/-- `k` byte reads take the next `8 * k` unread bits, or run out of data. -/
theorem bbReadBytes_spec (k : Nat) {st : BitBuffer} (hr : st.rem ≤ 7) :
    if 8 * k ≤ (unreadBits st).length then
      ∃ st' vs, bbReadBytes k st = .ok (st', vs) ∧ vs.length = k ∧
        vs.flatMap byteBits = (unreadBits st).take (8 * k) ∧
        unreadBits st' = (unreadBits st).drop (8 * k) ∧ ReadKeeps st st'
    else bbReadBytes k st = .error .outOfData := by
  induction k generalizing st with
  | zero => simpa [bbReadBytes] using ReadKeeps.refl st
  | succ k ih =>
    have hb := bbReadByte_spec hr
    by_cases h8 : 8 ≤ (unreadBits st).length
    · rw [if_pos h8] at hb
      obtain ⟨st1, v, h1, hv, hu1, hk1⟩ := hb
      have := ih (st := st1) (hk1.rem hr)
      rw [hu1, List.length_drop] at this
      simp only [bbReadBytes, h1]
      by_cases hk : 8 * k ≤ (unreadBits st).length - 8
      · rw [if_pos hk] at this
        rw [if_pos (by omega)]
        obtain ⟨st', vs, h', hl, hvs, hu', hk'⟩ := this
        refine ⟨st', v :: vs, by simp [h'], by simp [hl], ?_, ?_, hk1.trans hk'⟩
        · rw [List.flatMap_cons, hv, hvs, show 8 * (k + 1) = 8 + 8 * k by omega, List.take_add]
        · rw [hu', List.drop_drop, show 8 * (k + 1) = 8 + 8 * k by omega]
      · rw [if_neg hk] at this
        rw [if_neg (by omega)]
        simp [this]
    · rw [if_neg h8] at hb
      rw [if_neg (by omega)]
      simp [bbReadBytes, hb]

/-! Byte-aligned reading: bytes are taken as they are. -/

theorem bbReadByte_aligned {st : BitBuffer} (h : st.rem = 0) :
    bbReadByte st = match st.data[st.cursor]? with
      | none => .error .outOfData
      | some v => .ok ({ st with cursor := st.cursor + 1 }, v) := by
  cases hv : st.data[st.cursor]? <;> simp [bbReadByte, h, hv]

theorem bbReadBytes_aligned (k : Nat) {st : BitBuffer} (h : st.rem = 0) (hc : st.cursor ≤ st.data.length) :
    bbReadBytes k st =
      if st.cursor + k ≤ st.data.length then
        .ok ({ st with cursor := st.cursor + k }, (st.data.drop st.cursor).take k)
      else .error .outOfData := by
  induction k generalizing st with
  | zero => simp [bbReadBytes, hc]
  | succ k ih =>
    rw [bbReadBytes, bbReadByte_aligned h]
    cases hv : st.data[st.cursor]? with
    | none =>
      have := List.getElem?_eq_none_iff.mp hv
      rw [if_neg (by omega)]
    | some v =>
      obtain ⟨hl, hv'⟩ := List.getElem?_eq_some_iff.mp hv
      simp only
      rw [ih (st := { st with cursor := st.cursor + 1 }) h (by simp only; omega)]
      by_cases hk : st.cursor + (k + 1) ≤ st.data.length
      · rw [if_pos hk, if_pos (by simp only; omega)]
        simp only [List.drop_eq_getElem_cons hl, hv', List.take_succ_cons, Except.ok.injEq, Prod.mk.injEq, and_true]
        rw [show st.cursor + (k + 1) = st.cursor + 1 + k by omega]
      · rw [if_neg hk, if_neg (by simp only; omega)]

/-- Reading a 4-byte header from a fresh reader (41_bitbuffer R104, R113). -/
theorem bbReadInt_preloaded (b0 b1 b2 b3 : Byte) (rest : Bytes) :
    bbReadInt (preloaded (b0 :: b1 :: b2 :: b3 :: rest)) =
      .ok ({ preloaded (b0 :: b1 :: b2 :: b3 :: rest) with cursor := 4 }, asI32 (wordOfBytes b0 b1 b2 b3)) := by
  rfl

/-- A fresh reader of fewer than 4 bytes has no header. -/
theorem bbReadInt_preloaded_short {bs : Bytes} (h : bs.length < 4) :
    bbReadInt (preloaded bs) = .error .outOfData := by
  match bs, h with
  | [], _ => rfl
  | [_], _ => rfl
  | [_, _], _ => rfl
  | [_, _, _], _ => rfl
  | _ :: _ :: _ :: _ :: _, h => simp at h; omega

/-- The four bytes of a word assemble to it (20_memory R52). -/
theorem wordOfBytes_wordBytes (w : Word32) :
    wordOfBytes (w.extractLsb' 24 8) (w.extractLsb' 16 8) (w.extractLsb' 8 8) (w.extractLsb' 0 8) = w := by
  apply BitVec.eq_of_toNat_eq
  simp only [wordOfBytes, BitVec.toNat_ofNat, BitVec.extractLsb'_toNat, Nat.shiftRight_eq_div_pow]
  have := w.isLt
  omega

/-- A count below 2^31 survives as an `i32` (00_scope R11). -/
theorem asI32_ofNat {n : Nat} (h : n < 2 ^ 31) : asI32 (BitVec.ofNat 32 n) = n := by
  unfold asI32
  rw [BitVec.toNat_ofNat, Nat.mod_eq_of_lt (by omega), if_pos h]

/-- `as_u32` undoes `as_i32` (00_scope R11). -/
theorem asU32_asI32 (w : Word32) : asU32 (asI32 w) = w := by
  have h : asI32 w = w.toInt := by
    unfold asI32
    rw [BitVec.toInt_eq_toNat_cond]
    have := w.isLt
    split <;> split <;> omega
  rw [h]; exact BitVec.ofInt_toInt

/-- Reading back the header that a transform wrote. -/
theorem bbReadInt_written {n : Nat} (h : n < 2 ^ 31) (rest : Bytes) :
    bbReadInt (preloaded (wordBytes (BitVec.ofNat 32 n) ++ rest)) =
      .ok ({ preloaded (wordBytes (BitVec.ofNat 32 n) ++ rest) with cursor := 4 }, (n : Int)) := by
  have := bbReadInt_preloaded ((BitVec.ofNat 32 n).extractLsb' 24 8) ((BitVec.ofNat 32 n).extractLsb' 16 8)
    ((BitVec.ofNat 32 n).extractLsb' 8 8) ((BitVec.ofNat 32 n).extractLsb' 0 8) rest
  rw [wordOfBytes_wordBytes, asI32_ofNat h] at this
  exact this

end Sys2Proof.Machine
end

