-- ==== Sys2Proof/Laws/Decode.lean ====
section
/-! SUPPORT. The fields of a command word and the word of its fields undo each other (spec/30_encoding.md
rule R81), and what the decoder's checks say. -/

namespace Sys2Proof

/-- The fields of the word with fields `f` are `f` (30_encoding R81). -/
theorem fieldsOf_wordOf (f : Fields) : fieldsOf (wordOf f) = f := by
  obtain ⟨op, sa, sb, imm8, rsv, opnd⟩ := f
  simp only [fieldsOf, wordOf, Fields.mk.injEq]
  refine ⟨?_, ?_, ?_, ?_, ?_, ?_⟩ <;>
  · ext i hi
    simp
    grind

/-- The word of the fields of `w` is `w` (30_encoding R81). -/
theorem wordOf_fieldsOf (w : Word64) : wordOf (fieldsOf w) = w := by
  simp only [fieldsOf, wordOf]
  ext i hi
  simp
  grind

/-- A word is its six fields. -/
theorem fieldsOf_inj {u w : Word64} (h : fieldsOf u = fieldsOf w) : u = w := by
  rw [← wordOf_fieldsOf u, h, wordOf_fieldsOf]

theorem onlySA_iff (f : Fields) : onlySA f = true ↔ f.sb = 0 ∧ f.imm8 = 0 ∧ f.opnd = 0 ∧ f.rsv = 0 := by
  simp [onlySA, and_assoc]

theorem onlySASB_iff (f : Fields) : onlySASB f = true ↔ f.imm8 = 0 ∧ f.opnd = 0 ∧ f.rsv = 0 := by
  simp [onlySASB, and_assoc]

theorem onlySAImm_iff (f : Fields) : onlySAImm f = true ↔ f.sb = 0 ∧ f.opnd = 0 ∧ f.rsv = 0 := by
  simp [onlySAImm, and_assoc]

theorem onlySAOpnd_iff (f : Fields) : onlySAOpnd f = true ↔ f.sb = 0 ∧ f.imm8 = 0 ∧ f.rsv = 0 := by
  simp [onlySAOpnd, and_assoc]

/-- What decoding to `i` says: the fields select it and its slot fields name slots (30_encoding R87, R88). -/
theorem decode_eq_some {w : Word64} {i : Instr} {p : Params} :
    decode w p = some i ↔ decodeFields (fieldsOf w) = some i ∧ i.wellFormed p = true := by
  simp [decode, Option.filter_eq_some_iff]

/-- Decoding the word of a command goes by its fields. -/
theorem decode_encode_of_fields {i : Instr} {p : Params} (h : decodeFields (encodeFields i) = some i)
    (hw : i.wellFormed p = true) : decode (encode i) p = some i := by
  rw [decode_eq_some, encode, fieldsOf_wordOf]
  exact ⟨h, hw⟩

end Sys2Proof
end

