-- ==== Sys2Proof/Laws/Ops.lean ====
section
/-! SUPPORT. What the shared operations can do, said once: the execution of a command (spec/30_encoding.md
rule R90), the bodies of the commands and their frames, and the memory's form (spec/20_memory.md). -/

namespace Sys2Proof.Machine

open Sys2Proof

/-! The CAPACITY check and the memory's form. -/

theorem all_slots_iff (s : State) (q : BitBuffer → Bool) :
    s.slots.all q = true ↔ ∀ n, n < s.slots.length → q (s.slot n) = true := by
  simp only [List.all_eq_true, List.mem_iff_getElem]
  constructor
  · intro h n hn
    have : s.slot n = s.slots[n] := by simp [State.slot, hn]
    rw [this]; exact h _ ⟨n, hn, rfl⟩
  · rintro h _ ⟨n, hn, rfl⟩
    have : s.slot n = s.slots[n] := by simp [State.slot, hn]
    rw [← this]; exact h n hn

theorem withinCapacity_iff (m : Nat) (s : State) :
    withinCapacity m s = true ↔ ∀ n, n < s.slots.length → (s.slot n).data.length ≤ m := by
  rw [withinCapacity, all_slots_iff]; simp

/-- The CAPACITY check at MAX_LEN is the memory's form. -/
theorem withinCapacity_eq_memory_wf (s : State) (p : Params) : withinCapacity p.maxLen s = Memory.wf s p := rfl

theorem memory_wf_iff (s : State) (p : Params) :
    Memory.wf s p = true ↔ ∀ n, n < s.slots.length → (s.slot n).data.length ≤ p.maxLen :=
  withinCapacity_iff p.maxLen s

theorem BitBuffer_wf_iff (st : BitBuffer) (p : Params) :
    st.wf p = true ↔ st.data.length ≤ p.maxLen ∧ st.npend ≤ 7 ∧ st.pend.toNat < 2 ^ st.npend ∧
      st.cursor ≤ st.data.length ∧ st.rem ≤ 7 := by
  simp [BitBuffer.wf, and_assoc]

theorem memory_wf_of_inv {s : State} {p : Params} (h : s.Inv p) : Memory.wf s p = true :=
  (memory_wf_iff s p).mpr fun n hn => ((BitBuffer_wf_iff _ p).mp (h.2.1 n (h.1 ▸ hn))).1

/-- The CAPACITY check after a write to one slot. -/
theorem withinCapacity_setSlot {m : Nat} {s : State} (n : Nat) {st : BitBuffer}
    (hs : withinCapacity m s = true) (hst : st.data.length ≤ m) : withinCapacity m (s.setSlot n st) = true := by
  rw [withinCapacity_iff] at hs ⊢
  intro k hk
  rw [slot_setSlot]
  split
  · exact hst
  · exact hs k (by simpa using hk)

/-- After a write to one slot the check fails exactly when that slot is too long. -/
theorem withinCapacity_setSlot_iff {m n : Nat} {s : State} {st : BitBuffer} (hn : n < s.slots.length)
    (hs : withinCapacity m s = true) : withinCapacity m (s.setSlot n st) = true ↔ st.data.length ≤ m := by
  refine ⟨fun h => ?_, withinCapacity_setSlot n hs⟩
  have := (withinCapacity_iff m _).mp h n (by simpa using hn)
  rwa [slot_setSlot_same _ _ _ hn] at this

theorem withinCapacity_setRes (m : Nat) (s : State) (v : Word32) :
    withinCapacity m (s.setRes v) = withinCapacity m s := rfl

theorem setSlot_keeps_memory_wf {s : State} {p : Params} (n : Nat) {st : BitBuffer} (hs : Memory.wf s p = true)
    (hst : st.data.length ≤ p.maxLen) : Memory.wf (s.setSlot n st) p = true :=
  withinCapacity_setSlot n hs hst

theorem memWrite_keeps_memory_wf {s : State} {p : Params} (n i : Nat) (v : Byte) (hs : Memory.wf s p = true) :
    Memory.wf (memWrite s n i v) p = true := by
  by_cases hn : n < s.slots.length
  · exact setSlot_keeps_memory_wf n hs (by simpa using (memory_wf_iff s p).mp hs n hn)
  · rw [memory_wf_iff] at hs ⊢
    intro k hk
    rw [memWrite, slot_setSlot, if_neg (by omega)]
    exact hs k (by simpa [memWrite] using hk)

theorem setRes_keeps_memory_wf {s : State} {p : Params} (v : Word32) (hs : Memory.wf s p = true) :
    Memory.wf (s.setRes v) p = true := hs

theorem takeFault_keeps_memory_wf {s : State} {p : Params} (x : FaultCode) (w : Word64)
    (hs : Memory.wf s p = true) : Memory.wf (takeFault x w s) p = true := hs

theorem clearFault_keeps_memory_wf {s : State} {p : Params} (hs : Memory.wf s p = true) :
    Memory.wf (clearFault s) p = true := hs

theorem resetFor_memory_wf (p : Params) : Memory.wf (State.resetFor p) p = true := by
  rw [memory_wf_iff]; intro n _; simp

theorem reset_memory_wf : Memory.wf State.reset = true := resetFor_memory_wf Config.params

/-! The cells of a slot's space (20_memory R50). -/

/-- A slot's cells have strictly rising addresses. -/
theorem memCells_rising (s : State) (n : Nat) : (memCells s n).Pairwise fun p q => p.1 < q.1 := by
  unfold memCells
  rw [List.pairwise_map]
  have h : ∀ (bs : Bytes) (k : Nat), (bs.zipIdx k).Pairwise fun p q => p.2 < q.2 := by
    intro bs
    induction bs with
    | nil => intro k; simp
    | cons b bs ih =>
      intro k
      rw [List.zipIdx_cons, List.pairwise_cons]
      refine ⟨?_, ih (k + 1)⟩
      rintro ⟨v, j⟩ hj
      have := List.le_snd_of_mem_zipIdx hj
      simp only; omega
  exact h _ 0

/-- A cell is listed exactly when it reads so. -/
theorem mem_memCells (s : State) (n i : Nat) (v : Byte) : (i, v) ∈ memCells s n ↔ memRead s n i = some v := by
  simp [memCells, memRead, List.mem_zipIdx_iff_getElem?]

/-- A byte reads as it was written (20_memory R51). -/
theorem memRead_memWrite_same {s : State} {n i : Nat} (v : Byte) (hn : n < s.slots.length)
    (hi : i < (s.slot n).data.length) : memRead (memWrite s n i v) n i = some v := by
  simp [memRead, memWrite, slot_setSlot_same _ _ _ hn, hi]

/-- Every other byte reads as before (20_memory R51). -/
theorem memRead_memWrite_ne {s : State} {n i m j : Nat} (v : Byte) (h : ¬(m = n ∧ j = i)) :
    memRead (memWrite s n i v) m j = memRead s m j := by
  unfold memRead memWrite
  rw [slot_setSlot]
  split
  · next hm =>
    obtain ⟨rfl, _⟩ := hm
    have hji : i ≠ j := fun e => h ⟨rfl, e.symm⟩
    simp [List.getElem?_set_ne hji]
  · rfl

/-! The execution of a command. -/

theorem runCommand_faulted {p : Params} {i : Instr} {body : State → Except FaultCode State} {s : State}
    (h : s.faulted = true) : runCommand i body s p = .next s := by simp [runCommand, h]

theorem runCommand_illFormed {p : Params} {i : Instr} {body : State → Except FaultCode State} {s : State}
    (h : s.faulted = false) (hw : i.wellFormed p = false) :
    runCommand i body s p = .next (takeFault .illegal (encode i) s) := by simp [runCommand, h, hw]

theorem runCommand_error {p : Params} {i : Instr} {body : State → Except FaultCode State} {s : State}
    {x : FaultCode} (h : s.faulted = false) (hw : i.wellFormed p = true) (hb : body s = .error x) :
    runCommand i body s p = .next (takeFault x (encode i) s) := by simp [runCommand, h, hw, hb]

theorem runCommand_ok {p : Params} {i : Instr} {body : State → Except FaultCode State} {s t : State}
    (h : s.faulted = false) (hw : i.wellFormed p = true) (hb : body s = .ok t)
    (hc : withinCapacity p.maxLen t = true) : runCommand i body s p = .next t := by simp [runCommand, h, hw, hb, hc]

theorem runCommand_capacity {p : Params} {i : Instr} {body : State → Except FaultCode State} {s t : State}
    (h : s.faulted = false) (hw : i.wellFormed p = true) (hb : body s = .ok t)
    (hc : withinCapacity p.maxLen t = false) :
    runCommand i body s p = .next (takeFault .capacity (encode i) s) := by
  simp [runCommand, h, hw, hb, hc]

/-- All that the execution of a command can do (30_encoding R90; 60_exceptions R271 to R273). -/
inductive CommandDoes (p : Params) (i : Instr) (body : State → Except FaultCode State) (s : State) : State → Prop
  | discarded (h : s.faulted = true) : CommandDoes p i body s s
  | illegal (h : s.faulted = false) (hw : i.wellFormed p = false) :
      CommandDoes p i body s (takeFault .illegal (encode i) s)
  | faults (x : FaultCode) (h : s.faulted = false) (hw : i.wellFormed p = true) (hb : body s = .error x) :
      CommandDoes p i body s (takeFault x (encode i) s)
  | tooLong (t : State) (h : s.faulted = false) (hw : i.wellFormed p = true) (hb : body s = .ok t)
      (hc : withinCapacity p.maxLen t = false) : CommandDoes p i body s (takeFault .capacity (encode i) s)
  | commits (t : State) (h : s.faulted = false) (hw : i.wellFormed p = true) (hb : body s = .ok t)
      (hc : withinCapacity p.maxLen t = true) : CommandDoes p i body s t

/-- A command always gives a next state, and it is one of those five. -/
theorem runCommand_isNext (p : Params) (i : Instr) (body : State → Except FaultCode State) (s : State) :
    ∃ t, runCommand i body s p = .next t ∧ CommandDoes p i body s t := by
  cases hf : s.faulted with
  | true => exact ⟨_, runCommand_faulted hf, .discarded hf⟩
  | false =>
    cases hw : i.wellFormed p with
    | false => exact ⟨_, runCommand_illFormed hf hw, .illegal hf hw⟩
    | true =>
      cases hb : body s with
      | error x => exact ⟨_, runCommand_error hf hw hb, .faults x hf hw hb⟩
      | ok t =>
        cases hc : withinCapacity p.maxLen t with
        | false => exact ⟨_, runCommand_capacity hf hw hb hc, .tooLong t hf hw hb hc⟩
        | true => exact ⟨_, runCommand_ok hf hw hb hc, .commits t hf hw hb hc⟩

/-- What a command answered is one of the five. -/
theorem runCommand_does {p : Params} {i : Instr} {body : State → Except FaultCode State} {s t : State}
    (h : runCommand i body s p = .next t) : CommandDoes p i body s t := by
  obtain ⟨t', ht, hd⟩ := runCommand_isNext p i body s
  rw [ht] at h
  cases h; exact hd

/-! The bodies of the commands. -/

/-- The rule of a command, before the CAPACITY check: the body its meaning runs. -/
def bodyOf (i : Instr) (s : State) (p : Params := Config.params) : Except FaultCode State :=
  match i with
  | .new a => writeBody (fun _ => BitBuffer.empty) a s
  | .wrbit a bit => writeBody (fun st => bbWriteBit st bit) a s
  | .wrbyte a v => writeBody (fun st => bbWriteByte st v) a s
  | .wrbytes a b => wrbytesBody a b s
  | .wrint a w => writeBody (fun st => bbWriteInt st w) a s
  | .flush a => writeBody bbFlush a s
  | .rdbit a => readBody rdbitValue a s
  | .rdbyte a => readBody rdbyteValue a s
  | .rdint a => readBody rdintValue a s
  | .rstpos a => writeBody bbResetPosition a s
  | .eod a => queryBody (fun st => bitToWord (bbIsEndOfData st)) a s
  | .getb a k => getbBody a k s
  | .setb a k v => setbBody a k v s
  | .len a => queryBody (fun st => BitVec.ofNat 32 st.data.length) a s
  | .bwt a b => transformBody (fun x => .ok (bwt x)) a b s
  | .ibwt a b => transformBody ibwt a b s
  | .mtfe a b => transformBody (fun x => .ok (mtfEncode x)) a b s
  | .mtfd a b => transformBody (fun y => .ok (mtfDecode y)) a b s
  | .hufc a b => transformBody (fun x => .ok (hufCompress x p.tieOrder)) a b s
  | .hufx a b => transformBody hufExpand a b s
  | .rlee a b => transformBody (fun x => .ok (rleEncode x)) a b s
  | .rled a b => transformBody rleDecode a b s
  | .clrf => .ok (clearFault s)

/-- Every command but CLRF runs its body by the common rule (30_encoding R90). -/
theorem execFor_eq_runCommand (p : Params) (i : Instr) (hi : i ≠ .clrf) (s : State) :
    execFor p i s = runCommand i (fun s => bodyOf i s p) s p := by
  cases i <;> first | rfl | exact absurd rfl hi

/-- CLRF clears the fault record (60_exceptions R280). -/
theorem execFor_clrf (p : Params) (s : State) : execFor p .clrf s = .next (clearFault s) := rfl

/-- `exec` is `execFor` at this hardware's parameters. -/
theorem exec_eq_execFor (i : Instr) (s : State) : exec i s = execFor Config.params i s := by cases i <;> rfl

theorem exec_eq_runCommand (i : Instr) (hi : i ≠ .clrf) (s : State) :
    exec i s = runCommand i (fun s => bodyOf i s) s := by
  rw [exec_eq_execFor]; exact execFor_eq_runCommand Config.params i hi s

theorem exec_clrf (s : State) : exec .clrf s = .next (clearFault s) := rfl

/-- What a body leaves alone: the number of slots, STATUS, FCMD and the host's side. -/
structure BodyKeeps (s t : State) : Prop where
  slotCount : t.slots.length = s.slots.length
  status : t.status = s.status
  fcmd : t.fcmd = s.fcmd
  hostQueue : t.hostQueue = s.hostQueue
  hostReply : t.hostReply = s.hostReply
  issued : t.issued = s.issued

theorem BodyKeeps.setSlot (s : State) (n : Nat) (st : BitBuffer) : BodyKeeps s (s.setSlot n st) :=
  ⟨setSlot_slots_length s n st, rfl, rfl, rfl, rfl, rfl⟩

/-- The one slot a body may write: SA (10_state R34). -/
def destSlot : Instr → Option Nat
  | .new a | .wrbit a _ | .wrbyte a _ | .wrbytes a _ | .wrint a _ | .flush a | .rdbit a | .rdbyte a
  | .rdint a | .rstpos a | .setb a _ _ | .bwt a _ | .ibwt a _ | .mtfe a _ | .mtfd a _ | .hufc a _
  | .hufx a _ | .rlee a _ | .rled a _ => some (slotIndex a)
  | .eod _ | .getb _ _ | .len _ | .clrf => none

theorem readBody_ok {op : BitBuffer → Except FaultCode (BitBuffer × Word32)} {a : SlotNo} {s t : State}
    (h : readBody op a s = .ok t) :
    ∃ st v, op (s.slot (slotIndex a)) = .ok (st, v) ∧ t = (s.setSlot (slotIndex a) st).setRes v := by
  unfold readBody at h
  split at h
  · cases h
  · next st v hop => cases h; exact ⟨st, v, hop, rfl⟩

theorem transformBody_ok {f : Bytes → Except FaultCode Bytes} {a b : SlotNo} {s t : State}
    (h : transformBody f a b s = .ok t) :
    ∃ out, f (s.slot (slotIndex b)).data = .ok out ∧ t = s.setSlot (slotIndex a) (preloaded out) := by
  unfold transformBody at h
  split at h
  · cases h
  · next out hf => cases h; exact ⟨out, hf, rfl⟩

theorem getbBody_ok {a : SlotNo} {k : Word32} {s t : State} (h : getbBody a k s = .ok t) :
    ∃ v, memRead s (slotIndex a) (byteIndex k) = some v ∧ t = s.setRes (byteToWord v) := by
  unfold getbBody at h
  split at h
  · cases h
  · next v hv => cases h; exact ⟨v, hv, rfl⟩

theorem setbBody_ok {a : SlotNo} {k : Word32} {v : Byte} {s t : State} (h : setbBody a k v s = .ok t) :
    byteIndex k < (s.slot (slotIndex a)).data.length ∧ t = memWrite s (slotIndex a) (byteIndex k) v := by
  unfold setbBody at h
  split at h
  · cases h
  · next u hu => cases h; exact ⟨(List.getElem?_eq_some_iff.mp hu).1, rfl⟩

/-- A body that answers leaves every slot but its destination alone (10_state R20, R34), and STATUS, FCMD
and the host's side (10_state R27, R28). -/
theorem bodyOf_frame {i : Instr} (hi : i ≠ .clrf) {s t : State} {p : Params} (h : bodyOf i s p = .ok t) :
    BodyKeeps s t ∧ ∀ n, destSlot i ≠ some n → t.slot n = s.slot n := by
  have hw : ∀ (a : SlotNo) (st : BitBuffer), BodyKeeps s (s.setSlot (slotIndex a) st) ∧
      ∀ n, some (slotIndex a) ≠ some n → (s.setSlot (slotIndex a) st).slot n = s.slot n :=
    fun a st => ⟨BodyKeeps.setSlot _ _ _, fun n hn => slot_setSlot_ne s _ n st fun e => hn (by rw [e])⟩
  cases i
  case clrf => exact absurd rfl hi
  case rdbit | rdbyte | rdint =>
    obtain ⟨st, v, -, rfl⟩ := readBody_ok h
    obtain ⟨⟨h0, h1, h2, h3, h4, h5⟩, h6⟩ := hw _ st
    exact ⟨⟨h0, h1, h2, h3, h4, h5⟩, h6⟩
  case eod | len => cases h; exact ⟨⟨rfl, rfl, rfl, rfl, rfl, rfl⟩, fun _ _ => rfl⟩
  case getb => obtain ⟨v, -, rfl⟩ := getbBody_ok h; exact ⟨⟨rfl, rfl, rfl, rfl, rfl, rfl⟩, fun _ _ => rfl⟩
  case setb => obtain ⟨-, rfl⟩ := setbBody_ok h; exact hw _ _
  case ibwt | hufx | rled => obtain ⟨out, -, rfl⟩ := transformBody_ok h; exact hw _ _
  case new | wrbit | wrbyte | wrbytes | wrint | flush | rstpos | bwt | mtfe | mtfd | hufc | rlee => cases h; exact hw _ _

/-- A slot field that passes the decode check names a slot (30_encoding R88). -/
theorem slotOk_lt {a : SlotNo} {p : Params} (h : slotOk a p = true) : slotIndex a < p.nslot := by
  simpa [slotOk, slotIndex] using h

/-- A command's destination is a slot of the core (30_encoding R88). -/
theorem destSlot_lt {i : Instr} {p : Params} (hw : i.wellFormed p = true) {n : Nat} (h : destSlot i = some n) :
    n < p.nslot := by
  cases i <;> simp [destSlot] at h <;> subst h <;> apply slotOk_lt <;>
    simp [Instr.wellFormed, Instr.slotFields] at hw <;> simp [hw]

/-- Every command gives a next state (70_reset R321). -/
theorem execFor_isNext (p : Params) (i : Instr) (s : State) : IsNext (execFor p i s) := by
  by_cases hi : i = .clrf
  · subst hi; exact ⟨_, rfl⟩
  · rw [execFor_eq_runCommand p i hi]
    obtain ⟨t, ht, -⟩ := runCommand_isNext p i (fun s => bodyOf i s p) s
    exact ⟨t, ht⟩

theorem exec_isNext (i : Instr) (s : State) : IsNext (exec i s) := by
  rw [exec_eq_execFor]; exact execFor_isNext Config.params i s

/-- Every command keeps the memory's form (20_memory R50, 30_encoding R90). -/
theorem execFor_keeps_memory_wf {p : Params} {i : Instr} {s t : State} (hs : Memory.wf s p = true)
    (h : execFor p i s = .next t) : Memory.wf t p = true := by
  by_cases hi : i = .clrf
  · subst hi; cases h; exact hs
  · rw [execFor_eq_runCommand p i hi] at h
    cases runCommand_does h with
    | discarded => exact hs
    | illegal | faults | tooLong => exact hs
    | commits _ _ _ _ hc => exact hc

theorem exec_keeps_memory_wf {i : Instr} {s t : State} (hs : Memory.wf s = true) (h : exec i s = .next t) :
    Memory.wf t = true := execFor_keeps_memory_wf hs (exec_eq_execFor i s ▸ h)

/-- Every command keeps the number of slots (10_state R20). -/
theorem execFor_keeps_slotCount {p : Params} {i : Instr} {s t : State} (h : execFor p i s = .next t) :
    t.slots.length = s.slots.length := by
  by_cases hi : i = .clrf
  · subst hi; cases h; rfl
  · rw [execFor_eq_runCommand p i hi] at h
    cases runCommand_does h with
    | discarded => rfl
    | illegal | faults | tooLong => rfl
    | commits _ _ _ hb => exact (bodyOf_frame hi hb).1.slotCount

end Sys2Proof.Machine
end

