-- ==== Sys2Proof/Laws/PerInstr.lean ====
section
/-! SUPPORT. Statements made per instruction, one lemma for each constructor of `Instr`. -/

namespace Sys2Proof.Laws.DecodeFieldsEncode

open Sys2Proof

/-- The fields of a command's word select that command (30_encoding R81, R83, R84). -/
def Statement (i : Instr) : Prop := decodeFields (encodeFields i) = some i

theorem new (a : SlotNo) : Statement (.new a) := rfl
theorem wrbit (a : SlotNo) (bit : Bool) : Statement (.wrbit a bit) := by
  cases bit <;> simp [Statement, decodeFields, encodeFields, onlySAImm]
theorem wrbyte (a : SlotNo) (v : Byte) : Statement (.wrbyte a v) := rfl
theorem wrbytes (a : SlotNo) (b : SlotNo) : Statement (.wrbytes a b) := rfl
theorem wrint (a : SlotNo) (w : Word32) : Statement (.wrint a w) := rfl
theorem flush (a : SlotNo) : Statement (.flush a) := rfl
theorem rdbit (a : SlotNo) : Statement (.rdbit a) := rfl
theorem rdbyte (a : SlotNo) : Statement (.rdbyte a) := rfl
theorem rdint (a : SlotNo) : Statement (.rdint a) := rfl
theorem rstpos (a : SlotNo) : Statement (.rstpos a) := rfl
theorem eod (a : SlotNo) : Statement (.eod a) := rfl
theorem getb (a : SlotNo) (i : Word32) : Statement (.getb a i) := rfl
theorem setb (a : SlotNo) (i : Word32) (v : Byte) : Statement (.setb a i v) := rfl
theorem len (a : SlotNo) : Statement (.len a) := rfl
theorem bwt (a : SlotNo) (b : SlotNo) : Statement (.bwt a b) := rfl
theorem ibwt (a : SlotNo) (b : SlotNo) : Statement (.ibwt a b) := rfl
theorem mtfe (a : SlotNo) (b : SlotNo) : Statement (.mtfe a b) := rfl
theorem mtfd (a : SlotNo) (b : SlotNo) : Statement (.mtfd a b) := rfl
theorem hufc (a : SlotNo) (b : SlotNo) : Statement (.hufc a b) := rfl
theorem hufx (a : SlotNo) (b : SlotNo) : Statement (.hufx a b) := rfl
theorem rlee (a : SlotNo) (b : SlotNo) : Statement (.rlee a b) := rfl
theorem rled (a : SlotNo) (b : SlotNo) : Statement (.rled a b) := rfl
theorem clrf : Statement .clrf := rfl

end Sys2Proof.Laws.DecodeFieldsEncode
end

