-- ==== Sys2Proof/Laws/Step.lean ====
section
/-! SUPPORT. What a step does with the host's next action, and that every step keeps the memory's form
(spec/20_memory.md rules R54 to R56). -/

namespace Sys2Proof.Machine

open Sys2Proof

/-- A step takes the host's next action, from the state with the action taken (20_memory R56). -/
theorem stepFor_cons {p : Params} {s : State} {act : HostAction} {rest : List HostAction}
    (h : s.hostQueue = act :: rest) : stepFor p s = hostAct act { s with hostQueue := rest } p := by
  simp [stepFor, nextAction, h]

theorem step_cons {s : State} {act : HostAction} {rest : List HostAction} (h : s.hostQueue = act :: rest) :
    step s = hostAct act { s with hostQueue := rest } := stepFor_cons h

/-- HOST_LOAD that answers loads a slot of the core with a sequence it can hold (20_memory R54). -/
theorem hostLoad_next {p : Params} {a : Nat} {bs : Bytes} {s t : State} (h : hostLoad a bs s p = .next t) :
    a < p.nslot ∧ bs.length ≤ p.maxLen ∧ t = s.setSlot a (preloaded bs) := by
  unfold hostLoad at h
  split at h
  · next hc => cases h; exact ⟨hc.1, hc.2, rfl⟩
  · cases h

/-- HOST_READ that answers reads a slot of the core (20_memory R55). -/
theorem hostRead_next {p : Params} {a : Nat} {s t : State} (h : hostRead a s p = .next t) :
    a < p.nslot ∧ t = { s with hostReply := .bytes (s.slot a).data } := by
  unfold hostRead at h
  split at h
  · next hc => cases h; exact ⟨hc, rfl⟩
  · cases h

/-- What ISSUE can do: run the command, discard the word, or take ILLEGAL (30_encoding R86, R90). -/
theorem issue_cases (p : Params) (w : Word64) (s : State) :
    (∃ i, decode w p = some i ∧ issue w s p = execFor p i { s with issued := s.issued + 1 }) ∨
    (decode w p = none ∧ s.faulted = true ∧ issue w s p = .next { s with issued := s.issued + 1 }) ∨
    (decode w p = none ∧ s.faulted = false ∧
      issue w s p = .next (takeFault .illegal w { s with issued := s.issued + 1 })) := by
  cases hd : decode w p with
  | some i => exact .inl ⟨i, rfl, by simp [issue, hd]⟩
  | none =>
    cases hf : s.faulted with
    | true =>
      refine .inr (.inl ⟨rfl, rfl, ?_⟩)
      have : ({ s with issued := s.issued + 1 } : State).faulted = true := hf
      simp [issue, hd, this]
    | false =>
      refine .inr (.inr ⟨rfl, rfl, ?_⟩)
      have : ({ s with issued := s.issued + 1 } : State).faulted = false := hf
      simp [issue, hd, this]

/-- Every step keeps the memory's form: no slot's `data` passes MAX_LEN (20_memory R50, R54). -/
theorem stepFor_keeps_memory_wf {p : Params} {s t : State} (hs : Memory.wf s p = true)
    (h : stepFor p s = .next t) : Memory.wf t p = true := by
  cases hq : s.hostQueue with
  | nil => simp only [stepFor, nextAction, hq] at h; cases h; exact hs
  | cons act rest =>
    rw [stepFor_cons hq] at h
    have hs' : Memory.wf { s with hostQueue := rest } p = true := hs
    cases act with
    | issue w =>
      obtain ⟨i, -, hi⟩ | ⟨-, -, hi⟩ | ⟨-, -, hi⟩ := issue_cases p w { s with hostQueue := rest }
      · rw [hostAct, hi] at h
        exact execFor_keeps_memory_wf (s := { s with hostQueue := rest, issued := s.issued + 1 }) hs h
      · rw [hostAct, hi] at h; cases h; exact hs
      · rw [hostAct, hi] at h; cases h; exact hs
    | readReg r => simp only [hostAct, readReg] at h; cases h; exact hs
    | reset => simp only [hostAct, hostReset] at h; cases h; exact resetFor_memory_wf p
    | load a bs =>
      obtain ⟨-, hb, rfl⟩ := hostLoad_next h
      exact setSlot_keeps_memory_wf a hs' hb
    | read a => obtain ⟨-, rfl⟩ := hostRead_next h; exact hs

theorem step_keeps_memory_wf {s t : State} (hs : Memory.wf s = true) (h : step s = .next t) :
    Memory.wf t = true := stepFor_keeps_memory_wf hs h

end Sys2Proof.Machine
end

