-- ==== Sys2Proof/Laws/Transforms.lean ====
section
/-! SUPPORT. The transforms' outputs as plain byte sequences, without the internal writer and reader of
spec/41_bitbuffer.md rule R104. -/

namespace Sys2Proof.Machine

open Sys2Proof

/-- MTFE's output is the list of indices (43_mtf R181). -/
theorem mtfEncode_eq (x : Bytes) : mtfEncode x = mtfIndices mtfIdentity x := flush_writeBytes_empty _

/-- MTFD's output is the list of entries (43_mtf R182). -/
theorem mtfDecode_eq (y : Bytes) : mtfDecode y = mtfEntries mtfIdentity y := flush_writeBytes_empty _

/-- BWT's output is the 4-byte index and the column; both are zero and empty for the empty input
(42_bwt R150, R153). -/
theorem bwt_eq (x : Bytes) :
    bwt x = wordBytes (BitVec.ofNat 32 (if x.length = 0 then 0 else bwtStart x)) ++
      (if x.length = 0 then [] else bwtColumn x) := by
  unfold bwt
  split
  · next h => exact (flush_writeInt_writeBytes_empty 0 []).trans rfl
  · next h => rw [flush_writeInt_writeBytes_empty]

@[simp] theorem rotation_length (x : Bytes) (o : Nat) : (rotation x o).length = x.length := by simp [rotation]

/-- The sorted offsets are the offsets (42_bwt R150). -/
theorem bwtOrder_perm (x : Bytes) : (bwtOrder x).Perm (List.range x.length) := List.perm_insertionSort _ _

@[simp] theorem bwtColumn_length (x : Bytes) : (bwtColumn x).length = x.length := by
  rw [bwtColumn, List.length_map, (bwtOrder_perm x).length_eq, List.length_range]

@[simp] theorem ibwtChase_length (sorted : List (Nat × Byte)) (k next : Nat) :
    (ibwtChase sorted k next).length = k := by
  induction k generalizing next with
  | zero => rfl
  | succ k ih => simp [ibwtChase, ih]

/-- The inverse's table is its list of pairs (42_bwt R157). -/
theorem ibwtSorted_perm (bytes : Bytes) : (ibwtSorted bytes).Perm (ibwtPairs bytes) := List.perm_insertionSort _ _

@[simp] theorem mtfIndices_length (arr x : Bytes) : (mtfIndices arr x).length = x.length := by
  induction x generalizing arr with
  | nil => rfl
  | cons v vs ih => simp [mtfIndices, ih]

@[simp] theorem mtfEntries_length (arr y : Bytes) : (mtfEntries arr y).length = y.length := by
  induction y generalizing arr with
  | nil => rfl
  | cons c cs ih => simp [mtfEntries, ih]

end Sys2Proof.Machine
end

