-- ==== Sys2Proof/Tests/Slice0.lean ====
section
/-! SUPPORT. Tests of single steps against the values of spec/95_test_vectors.md, the checks of well-formedness
and decoding, and a state that meets the hypotheses of each statement. -/

namespace Sys2Proof.Tests

open Sys2Proof Sys2Proof.Machine

/-- The machine after reset with slots 0 and 1 pre-set. -/
def withSlots (b0 b1 : BitBuffer) : State := (State.reset.setSlot 0 b0).setSlot 1 b1

/-- The same, with slot 0 holding the bytes `x`. -/
def loaded (x : Bytes) : State := withSlots (preloaded x) BitBuffer.empty

/-- The state a step gives; reset when it gives none. -/
def after : Host.Outcome State Fault Refusal → State
  | .next t => t
  | .fault _ => State.reset
  | .refused _ => State.reset

/-- Slot 1 after the transform `OP s1, s0` on the bytes `x` in slot 0. -/
def transformed (op : SlotNo → SlotNo → Instr) (x : Bytes) : BitBuffer := (after (exec (op 1 0) (loaded x))).slot 1

/-- STATUS after the transform `OP s1, s0` on the bytes `x` in slot 0. -/
def transformStatus (op : SlotNo → SlotNo → Instr) (x : Bytes) : Word32 := (after (exec (op 1 0) (loaded x))).status

/-! Well-formedness (30_encoding R88): each check with a term it refuses. -/

theorem test_wf_refuses_slot_A :
    ([.new 4, .wrbit 4 true, .wrbyte 5 0, .wrbytes 4 0, .wrint 6 0, .flush 7, .rdbit 8, .rdbyte 9, .rdint 10,
      .rstpos 11, .eod 12, .getb 13 0, .setb 14 0 0, .len 15, .bwt 4 0, .ibwt 4 0, .mtfe 4 0, .mtfd 4 0,
      .hufc 4 0, .hufx 4 0, .rlee 4 0, .rled 4 0] : List Instr).all (fun i => !i.wellFormed) = true := by decide

theorem test_wf_refuses_slot_B :
    ([.wrbytes 0 4, .bwt 0 5, .ibwt 0 6, .mtfe 0 7, .mtfd 0 8, .hufc 0 9, .hufx 0 10, .rlee 0 11,
      .rled 0 15] : List Instr).all (fun i => !i.wellFormed) = true := by decide

theorem test_wf_accepts : ([.new 3, .wrbytes 3 3, .rled 0 3, .clrf] : List Instr).all Instr.wellFormed = true := by
  decide

/-! Decoding: every command from a word written out from the fields of 30_encoding R81 and the rows of R83. -/

theorem test_decode_new : decode 0x0000000000000301 = some (.new 3) := by decide
theorem test_decode_wrbit : decode 0x0000000000010202 = some (.wrbit 2 true) := by decide
theorem test_decode_wrbyte : decode 0x0000000000AA0003 = some (.wrbyte 0 0xAA) := by decide
theorem test_decode_wrbytes : decode 0x0000000000003104 = some (.wrbytes 1 3) := by decide
theorem test_decode_wrint : decode 0x1234567800000005 = some (.wrint 0 0x12345678) := by decide
theorem test_decode_flush : decode 0x0000000000000106 = some (.flush 1) := by decide
theorem test_decode_rdbit : decode 0x0000000000000207 = some (.rdbit 2) := by decide
theorem test_decode_rdbyte : decode 0x0000000000000308 = some (.rdbyte 3) := by decide
theorem test_decode_rdint : decode 0x0000000000000009 = some (.rdint 0) := by decide
theorem test_decode_rstpos : decode 0x000000000000010A = some (.rstpos 1) := by decide
theorem test_decode_eod : decode 0x000000000000000B = some (.eod 0) := by decide
theorem test_decode_getb : decode 0xFFFFFFFF0000000C = some (.getb 0 0xFFFFFFFF) := by decide
theorem test_decode_setb : decode 0x000000010062010D = some (.setb 1 1 0x62) := by decide
theorem test_decode_len : decode 0x000000000000020E = some (.len 2) := by decide
theorem test_decode_bwt : decode 0x0000000000000110 = some (.bwt 1 0) := by decide
theorem test_decode_ibwt : decode 0x0000000000001211 = some (.ibwt 2 1) := by decide
theorem test_decode_mtfe : decode 0x0000000000001220 = some (.mtfe 2 1) := by decide
theorem test_decode_mtfd : decode 0x0000000000002121 = some (.mtfd 1 2) := by decide
theorem test_decode_hufc : decode 0x0000000000002330 = some (.hufc 3 2) := by decide
theorem test_decode_hufx : decode 0x0000000000003231 = some (.hufx 2 3) := by decide
theorem test_decode_rlee : decode 0x0000000000000140 = some (.rlee 1 0) := by decide
theorem test_decode_rled : decode 0x0000000000001241 = some (.rled 2 1) := by decide
theorem test_decode_clrf : decode 0x00000000000000F0 = some .clrf := by decide

/-- A word bit by bit: OPND = 1, RSV = 0, IMM8 = 0x62, SB = 0, SA = 1, OP = 0x0D. -/
theorem test_decode_setb_bits :
    decode (0b00000000000000000000000000000001_00000000_01100010_0000_0001_00001101#64) = some (.setb 1 1 0x62) := by
  decide

/-- A transform's word bit by bit: OPND = 0, RSV = 0, IMM8 = 0, SB = 2, SA = 3, OP = 0x30. -/
theorem test_decode_hufc_bits :
    decode (0b00000000000000000000000000000000_00000000_00000000_0010_0011_00110000#64) = some (.hufc 3 2) := by
  decide

/-- The illegal words of spec/95_test_vectors.md. -/
theorem test_decode_illegal_words :
    ([0x0, 0xF, 0x20002, 0x401, 0x1001, 0x1F0, 0x5010, 0x1000001, 0x100000001, 0xFF, 0x12,
      0x10000000000000F0, 0x10004, 0x1000000010, 0xF000E] : List Word64).all (fun w => (decode w).isNone) = true := by
  decide

theorem test_decodeTableWord : decodeTableWord 64 0x0000000100000000000000000062010D = some (.setb 1 0 0x62) := by
  decide

/-! The Bit Buffer commands (95_test_vectors, S1 to S3 and BB1 to BB11). -/

theorem test_new : (after (exec (.new 0) (withSlots ⟨[7], 1, 2, 1, 7, 3⟩ BitBuffer.empty))).slot 0 = BitBuffer.empty := by
  decide
theorem test_wrbit : (after (exec (.wrbit 0 true) (withSlots ⟨[], 2, 2, 0, 0, 0⟩ BitBuffer.empty))).slot 0 =
    ⟨[], 5, 3, 0, 0, 0⟩ := by decide
theorem test_wrbit_eighth : (after (exec (.wrbit 0 true) (withSlots ⟨[], 127, 7, 0, 0, 0⟩ BitBuffer.empty))).slot 0 =
    ⟨[0xFF], 0, 0, 0, 0, 0⟩ := by decide
theorem test_wrbyte : (after (exec (.wrbyte 0 0xAA) (withSlots ⟨[], 1, 1, 0, 0, 0⟩ BitBuffer.empty))).slot 0 =
    ⟨[0xD5], 0, 1, 0, 0, 0⟩ := by decide
theorem test_wrbytes_same_slot :
    (after (exec (.wrbytes 0 0) (withSlots ⟨[0xF0, 0x0F], 1, 1, 0, 0, 0⟩ BitBuffer.empty))).slot 0 =
      ⟨[0xF0, 0x0F, 0xF8, 0x07], 1, 1, 0, 0, 0⟩ := by decide
theorem test_wrbytes : (after (exec (.wrbytes 1 0) (loaded [1, 2]))).slot 1 = preloaded [1, 2] := by decide
theorem test_wrint : (after (exec (.wrint 0 0x12345678) (withSlots ⟨[], 5, 3, 0, 0, 0⟩ BitBuffer.empty))).slot 0 =
    ⟨[0xA2, 0x46, 0x8A, 0xCF], 0, 3, 0, 0, 0⟩ := by decide
theorem test_wrint_negative : (after (exec (.wrint 0 0xFFFFFFFF) (withSlots ⟨[], 5, 3, 0, 0, 0⟩ BitBuffer.empty))).slot 0 =
    ⟨[0xBF, 0xFF, 0xFF, 0xFF], 7, 3, 0, 0, 0⟩ := by decide
theorem test_flush :
    (after (exec (.flush 0) (withSlots ⟨[0xBF, 0xFF, 0xFF, 0xFF], 7, 3, 0, 0, 0⟩ BitBuffer.empty))).slot 0 =
      ⟨[0xBF, 0xFF, 0xFF, 0xFF, 0xE0], 0, 0, 0, 0, 0⟩ := by decide
theorem test_rdbit : let t := after (exec (.rdbit 0) (loaded [0xD5, 0]))
    t.res = 1 ∧ t.slot 0 = ⟨[0xD5, 0], 0, 0, 1, 0xD5, 7⟩ := by decide
theorem test_rdbit_past_end : let t := after (exec (.rdbit 0) (withSlots ⟨[0x11, 0x55], 1, 1, 2, 0, 0⟩ BitBuffer.empty))
    t.status = 0x101 ∧ t.fcmd = 0x7 ∧ t.slot 0 = ⟨[0x11, 0x55], 1, 1, 2, 0, 0⟩ := by decide
theorem test_rdbyte : let t := after (exec (.rdbyte 0) (withSlots ⟨[0xD5, 0], 0, 0, 1, 0xD5, 7⟩ BitBuffer.empty))
    t.res = 0xAA ∧ t.slot 0 = ⟨[0xD5, 0], 0, 0, 2, 0, 7⟩ := by decide
theorem test_rdint :
    let t := after (exec (.rdint 0) (withSlots ⟨[0xAB, 0xCD, 0xEF, 1, 0x23], 0, 0, 1, 0xAB, 4⟩ BitBuffer.empty))
    t.res = 0xBCDEF012 ∧ t.slot 0 = ⟨[0xAB, 0xCD, 0xEF, 1, 0x23], 0, 0, 5, 0x23, 4⟩ := by decide
theorem test_rdint_31_bits_left :
    let t := after (exec (.rdint 0) (withSlots ⟨[0xFF, 0xFF, 0xFF, 0xFF], 0, 0, 1, 0xFF, 7⟩ BitBuffer.empty))
    t.status = 0x101 ∧ t.slot 0 = ⟨[0xFF, 0xFF, 0xFF, 0xFF], 0, 0, 1, 0xFF, 7⟩ := by decide
theorem test_rstpos : (after (exec (.rstpos 0) (withSlots ⟨[0], 1, 1, 1, 0xFF, 5⟩ BitBuffer.empty))).slot 0 =
    ⟨[0], 1, 1, 0, 0, 0⟩ := by decide
theorem test_eod : (after (exec (.eod 0) (withSlots ⟨[0xD5, 0], 0, 0, 2, 0, 7⟩ BitBuffer.empty))).res = 1 := by decide
theorem test_eod_before_end : (after (exec (.eod 0) (withSlots ⟨[0x11, 0x55], 0, 0, 1, 0, 0⟩ BitBuffer.empty))).res = 0 := by
  decide
theorem test_getb : (after (exec (.getb 0 1) (loaded [0x10, 0x20]))).res = 0x20 := by decide
theorem test_getb_past_end : let t := after (exec (.getb 0 2) (loaded [0x41, 0x20]))
    t.status = 0x201 ∧ t.fcmd = 0x000000020000000C := by decide
theorem test_setb : (after (exec (.setb 0 0 0) (withSlots ⟨[0xFF], 0, 0, 1, 0xFF, 7⟩ BitBuffer.empty))).slot 0 =
    ⟨[0], 0, 0, 1, 0xFF, 7⟩ := by decide
theorem test_len : (after (exec (.len 0) (withSlots ⟨[0x10, 0x20], 1, 1, 0, 0, 0⟩ BitBuffer.empty))).res = 2 := by decide

/-! The transforms (95_test_vectors, tables B, I, M, H, X, E and D). -/

theorem test_bwt_banana : transformed .bwt [0x62, 0x61, 0x6E, 0x61, 0x6E, 0x61] =
    preloaded [0, 0, 0, 3, 0x6E, 0x6E, 0x62, 0x61, 0x61, 0x61] := by decide +kernel
theorem test_bwt_tied : transformed .bwt [0x61, 0x62, 0x61, 0x62] = preloaded [0, 0, 0, 0, 0x62, 0x62, 0x61, 0x61] := by
  decide +kernel
theorem test_ibwt_periodic : transformed .ibwt [0, 0, 0, 0, 0x62, 0x62, 0x61, 0x61] =
    preloaded [0x61, 0x62, 0x61, 0x62] := by decide +kernel
theorem test_ibwt_negative_start : transformStatus .ibwt [0xFF, 0xFF, 0xFF, 0xFF, 0x61] = 0x301 := by decide +kernel
theorem test_mtfe : transformed .mtfe [0x62, 0x61, 0x6E, 0x61, 0x6E, 0x61] =
    preloaded [0x62, 0x62, 0x6E, 1, 1, 1] := by decide +kernel
theorem test_mtfd : transformed .mtfd [0xFF, 0xFF] = preloaded [0xFF, 0xFE] := by decide +kernel
theorem test_hufc_banana : transformed .hufc [0x62, 0x61, 0x6E, 0x61, 0x6E, 0x61] =
    preloaded [0, 0, 0, 6, 0x58, 0x56, 0x2B, 0x74, 0xD8] := by decide +kernel
theorem test_hufc_one_leaf : transformed .hufc [0xFF, 0xFF, 0xFF] = preloaded [0, 0, 0, 3, 0xFF, 0x80] := by
  decide +kernel
theorem test_hufx_trailing_bits : transformed .hufx [0, 0, 0, 2, 0x58, 0x6C, 0x4F] = preloaded [0x61, 0x62] := by
  decide +kernel
theorem test_hufx_truncated : transformStatus .hufx [0, 0, 0, 2, 0x58, 0x6C] = 0x101 := by decide +kernel
theorem test_rlee_mixed : transformed .rlee [0x61, 0x62, 0x63, 0x63, 0x63, 0x64, 0x64, 0x65] =
    preloaded [2, 0x61, 0x62, 0x83, 0x63, 3, 0x64, 0x64, 0x65] := by decide +kernel
theorem test_rlee_large : transformed .rlee (List.replicate 64 0x61) = preloaded [0xC0, 0x40, 0x61] := by
  decide +kernel
theorem test_rled : transformed .rled [0x83, 0x61, 1, 0x62] = preloaded [0x61, 0x61, 0x61, 0x62] := by decide +kernel
theorem test_rled_zero_count_needs_value : transformStatus .rled [0x80] = 0x101 := by decide +kernel

/-! Faults, host actions and steps. -/

theorem test_clrf : after (exec .clrf (takeFault .outOfData 7 State.reset)) = State.reset := by decide
theorem test_illegal_zero_word : let t := after (step (State.reset.withFetchWord 64 0))
    t.status = 0x501 ∧ t.fcmd = 0 ∧ t.issued = 1 := by decide
theorem test_faulted_discards : let s := (takeFault .format 0x11 State.reset).withFetchWord 64 0x301
    after (step s) = { takeFault .format 0x11 State.reset with issued := 1 } := by decide
theorem test_fetch_word_runs : step (State.reset.withFetchWord 64 0x0000000000AA0003) =
    exec (.wrbyte 0 0xAA) { State.reset with issued := 1 } := rfl
theorem test_host_load_with_fault :
    (after (step { takeFault .format 0x11 State.reset with hostQueue := [.load 2 [5]] })).slot 2 = preloaded [5] := by
  decide
theorem test_host_read_ignores_pending :
    (after (step { withSlots ⟨[9], 1, 1, 0, 0, 0⟩ BitBuffer.empty with hostQueue := [.read 0] })).hostReply =
      .bytes [9] := by decide
theorem test_host_load_no_such_slot :
    step { State.reset with hostQueue := [.load 4 []] } = .refused .hostLoadOutsideContract := rfl
theorem test_host_read_no_such_slot :
    step { State.reset with hostQueue := [.read 4] } = .refused .hostReadOutsideContract := rfl
theorem test_reset_clears_fault :
    after (step { takeFault .format 0x11 (loaded [1]) with hostQueue := [.reset] }) = State.reset := by decide

/-- A core with NSLOT = 2 and MAX_LEN = 8 (00_scope R6, R7). -/
def smallCore : Params := ⟨2, 8, Config.hufTieOrder⟩

/-- A core with NSLOT = 16 and MAX_LEN = 8 (00_scope R6, R7). -/
def largeCore : Params := ⟨16, 8, Config.hufTieOrder⟩

theorem smallCore_inRange : smallCore.inRange := ⟨by decide, by decide, by decide, by decide, hufTieOrder_isTotal⟩
theorem largeCore_inRange : largeCore.inRange := ⟨by decide, by decide, by decide, by decide, hufTieOrder_isTotal⟩

/-- With MAX_LEN = 8 a ninth byte faults CAPACITY and leaves the slot (95_test_vectors, program F2). -/
theorem test_capacity_with_max_len_8 :
    let s := loaded (List.replicate 8 0)
    stepFor smallCore { s with hostQueue := [.issue 0x0000000000090003] } =
      .next { s with status := 0x401, fcmd := 0x0000000000090003, issued := 1 } := by rfl

/-- With NSLOT = 2 a word that names slot 2 is illegal, and with NSLOT = 16 slot 15 takes it (30_encoding R88). -/
theorem test_slot_count_is_a_parameter :
    (after (stepFor smallCore { State.resetFor smallCore with hostQueue := [.issue 0x0000000000000201] })).status =
      0x501 ∧
    (after (stepFor largeCore { State.resetFor largeCore with hostQueue := [.issue 0x0000000000050F03] })).slot 15 =
      preloaded [5] := by decide

/-! The assembler (30_encoding R91 to R93). -/

theorem test_asm_command : asmLine "SETB s1, 1, 0x62 ; a comment".toList = some [.issue 0x000000010062010D] := by decide
theorem test_asm_negative : asmLine "WRINT s0, -1".toList = some [.issue 0xFFFFFFFF00000005] := by decide
theorem test_asm_copy : asmLine "COPY s2, s0".toList = some [.issue 0x201, .issue 0x204] := by decide
theorem test_asm_copy_same : asmLine "COPY s2, s2".toList = none := by decide
theorem test_asm_load : asmLine ".load s0, [0xD5, 0]".toList = some [.load 0 [0xD5, 0]] := by decide

/-! States that meet the hypotheses of the statements, clause by clause, at the ends of each range.
`witness_<Name>` is for `Obligations.<Name>`. -/

/-- A buffer of `k` zero bytes with `npend` pending bits. -/
def zeros (k : Nat) (pend : Byte) (npend : Nat) : BitBuffer := ⟨List.replicate k 0, pend, npend, 0, 0, 0⟩

theorem zeros_length (k : Nat) (pend : Byte) (npend : Nat) : (zeros k pend npend).data.length = k := by simp [zeros]

theorem zeros_wf {k npend : Nat} {pend : Byte} (hk : k ≤ Config.MAX_LEN) (hn : npend ≤ 7)
    (hp : pend.toNat < 2 ^ npend) : (zeros k pend npend).wf = true := by
  rw [BitBuffer_wf_iff]; exact ⟨by simpa [zeros] using hk, hn, hp, by simp [zeros], by simp [zeros]⟩

theorem withSlots_zero (b0 b1 : BitBuffer) : (withSlots b0 b1).slot 0 = b0 := rfl
theorem withSlots_one (b0 b1 : BitBuffer) : (withSlots b0 b1).slot 1 = b1 := rfl

theorem withSlots_ready {b0 b1 : BitBuffer} (h0 : b0.wf = true) (h1 : b1.wf = true) : (withSlots b0 b1).Ready := by
  have hf : (withSlots b0 b1).faulted = State.reset.faulted := rfl
  refine ⟨⟨rfl, fun n hn => ?_, ?_⟩, hf.trans (by decide)⟩
  swap
  · have : (withSlots b0 b1).statusOk = State.reset.statusOk := rfl
    rw [this]; decide
  have : n = 0 ∨ n = 1 ∨ n = 2 ∨ n = 3 := by simp only [params_nslot, Config.NSLOT] at hn; omega
  rcases this with h | h | h | h <;> subst h
  · exact h0
  · exact h1
  · rfl
  · rfl

/-- Slot 0 holds `k` zero bytes and slot 1 the bytes `x`. -/
def longState (k : Nat) (pend : Byte) (npend : Nat) (x : Bytes) : State := withSlots (zeros k pend npend) (preloaded x)

theorem longState_ready {k npend : Nat} {pend : Byte} {x : Bytes} (hk : k ≤ Config.MAX_LEN) (hn : npend ≤ 7)
    (hp : pend.toNat < 2 ^ npend) (hx : (preloaded x).wf = true) : (longState k pend npend x).Ready :=
  withSlots_ready (zeros_wf hk hn hp) hx

theorem longState_length (k : Nat) (pend : Byte) (npend : Nat) (x : Bytes) :
    ((longState k pend npend x).slot 0).data.length = k := zeros_length k pend npend

/-- Every `exec i s = .next t` among the hypotheses is met by its own answer. -/
theorem exec_eq_after (i : Instr) (s : State) : exec i s = .next (after (exec i s)) := by
  obtain ⟨t, ht⟩ := exec_isNext i s
  rw [ht]; rfl

/-- The machine after reset with the host's next action `act`. -/
def acting (act : HostAction) : State := { State.reset with hostQueue := [act] }

/-- The same with a fault recorded. -/
def actingFaulted (act : HostAction) : State := { takeFault .format 0x111 State.reset with hostQueue := [act] }

theorem witness_DecodeOfEncodeIsIdentity :
    ([.setb 3 0xFFFFFFFF 0xFF, .wrbytes 0 3, .clrf] : List Instr).all Instr.wellFormed = true ∧
    (Instr.wrbytes 15 15).wellFormed largeCore = true := by decide

theorem witness_EncodeOfDecodeIsIdentity : decode 0xFFFFFFFF00FF030D = some (.setb 3 0xFFFFFFFF 0xFF) := by decide

theorem witness_DecodeFollowsOpcodeTable :
    decode 0x3304 = some (.wrbytes 3 3) ∧
    (∃ r ∈ opcodeRows, r.isMatch 0x3304 = true ∧ r.mask.extractLsb' 8 4 = 0 ∧ r.mask.extractLsb' 12 4 = 0 ∧
      (fieldsOf 0x3304).sa.toNat < Config.NSLOT ∧ (fieldsOf 0x3304).sb.toNat < Config.NSLOT) ∧
    (∃ r ∈ opcodeRows, ∃ r' ∈ opcodeRows, r.isMatch 0xF0 = true ∧ r'.isMatch 0xF0 = true) :=
  ⟨by decide, ⟨rowSASB "WRBYTES" 0x04, by decide, by decide, by decide, by decide, by decide, by decide⟩,
    ⟨⟨"CLRF", 0xF0, 0xFFFFFFFFFFFFFFFF⟩, by decide, ⟨"CLRF", 0xF0, 0xFFFFFFFFFFFFFFFF⟩, by decide, by decide, by decide⟩⟩

theorem witness_BadFieldOrOpcodeIsIllegal :
    (fieldsOf 0x1000001).rsv ≠ 0 ∧
    ((fieldsOf 0x1001).op.toNat = 0x01 ∧ (fieldsOf 0x1001).sb ≠ 0) ∧
    ((fieldsOf 0x20002).op.toNat = 0x02 ∧ 1 < (fieldsOf 0x20002).imm8.toNat) ∧
    ((fieldsOf 0x100000003).op.toNat = 0x03 ∧ (fieldsOf 0x100000003).opnd ≠ 0) ∧
    ((fieldsOf 0x1000C).op.toNat = 0x0C ∧ (fieldsOf 0x1000C).imm8 ≠ 0) ∧
    ((fieldsOf 0x100D).op.toNat = 0x0D ∧ (fieldsOf 0x100D).sb ≠ 0) ∧
    ((fieldsOf 0x10041).op.toNat = 0x41 ∧ (fieldsOf 0x10041).imm8 ≠ 0) ∧
    ((fieldsOf 0x1F0).op.toNat = 0xF0 ∧ (fieldsOf 0x1F0).sa ≠ 0) ∧
    (fieldsOf 0x12).op.toNat = 0x12 ∧ (fieldsOf 0xEF).op.toNat = 0xEF ∧ (fieldsOf 0xFF).op.toNat = 0xFF := by decide

theorem witness_SlotFieldBeyondNslotIsIllegal :
    ((fieldsOf 0x401).op.toNat ≠ 0xF0 ∧ (fieldsOf 0x401).sa.toNat = 4) ∧
    ((fieldsOf 0xF041).op.toNat = 0x41 ∧ (fieldsOf 0xF041).sb.toNat = 15) ∧ (3 : SlotNo).toNat < 4 ∧
    smallCore.nslot ≤ (fieldsOf 0x201).sa.toNat ∧ smallCore.nslot ≤ (fieldsOf 0x2041).sb.toNat := by decide

theorem witness_StepRunsDecodedCommand :
    (acting (.issue 0x301)).NextIsIssue 0x301 [] ∧ decode 0x301 = some (.new 3) ∧
    (acting (.issue 0xF01)).NextIsIssue 0xF01 [] ∧ decode 0xF01 largeCore = some (.new 15) := by decide

theorem witness_IllegalWordOnlyRecordsFault :
    (acting (.issue 0)).NextIsIssue 0 [] ∧ (acting (.issue 0)).faulted = false ∧ decode 0 = none := by decide

theorem witness_FaultedCoreDiscardsCommands :
    ((actingFaulted (.issue 0x1F0)).faulted = true ∧ (actingFaulted (.issue 0x1F0)).NextIsIssue 0x1F0 [] ∧
      decode 0x1F0 ≠ some .clrf) ∧
    ((actingFaulted (.load 3 [])).faulted = true ∧ (actingFaulted (.load 3 [])).hostQueue = [.load 3 []] ∧
      3 < Config.NSLOT ∧ ([] : Bytes).length ≤ Config.MAX_LEN) ∧
    ((actingFaulted (.read 3)).faulted = true ∧ (actingFaulted (.read 3)).hostQueue = [.read 3]) ∧
    ((actingFaulted (.readReg .fcmd)).faulted = true ∧
      (actingFaulted (.readReg .fcmd)).hostQueue = [.readReg .fcmd] ∧ (actingFaulted (.readReg .fcmd)).Inv) := by
  decide

theorem witness_ResetActionResetsTheCore : (actingFaulted .reset).hostQueue = [.reset] := rfl

theorem witness_HostLoadReplacesSlot :
    ((acting (.load 3 (List.replicate Config.MAX_LEN 0))).hostQueue = [.load 3 (List.replicate Config.MAX_LEN 0)] ∧
      3 < Config.NSLOT ∧ (List.replicate Config.MAX_LEN (0 : Byte)).length ≤ Config.MAX_LEN) ∧
    ((acting (.load 4 [])).hostQueue = [.load 4 []] ∧ Config.NSLOT ≤ 4) :=
  ⟨⟨rfl, by decide, by simp⟩, rfl, by decide⟩

theorem witness_HostReadReturnsData :
    ((acting (.read 3)).hostQueue = [.read 3] ∧ 3 < Config.NSLOT) ∧
    (acting (.read 4)).hostQueue = [.read 4] ∧ Config.NSLOT ≤ 4 := by decide

theorem witness_ReadRegReturnsValue :
    (actingFaulted (.readReg .status)).hostQueue = [.readReg .status] ∧ (actingFaulted (.readReg .status)).Inv := by
  decide

theorem witness_IdleCoreKeepsState : State.reset.hostQueue = [] := rfl

theorem witness_HostInContractRunsForever :
    ∀ act ∈ ({ State.reset with hostQueue := [.load 3 [], .issue 0, .read 0, .reset] } : State).hostQueue,
      act.inContract = true := by decide

theorem witness_StepKeepsInv : (acting (.issue 0)).Inv ∧
    step (acting (.issue 0)) = .next (after (step (acting (.issue 0)))) ∧
    (let s := { State.resetFor smallCore with hostQueue := [.issue 0x101] };
      s.Inv smallCore ∧ stepFor smallCore s = .next (after (stepFor smallCore s))) :=
  ⟨by decide, rfl, by decide, rfl⟩

theorem witness_FaultEntryIsPrecise :
    (acting (.issue 0x7)).NextIsIssue 0x7 [] ∧ (acting (.issue 0x7)).faulted = false ∧
    step (acting (.issue 0x7)) = .next (after (step (acting (.issue 0x7)))) ∧
    (after (step (acting (.issue 0x7)))).faulted = true := ⟨by decide, by decide, rfl, by decide⟩

theorem longState_capacity :
    exec (.wrbyte 0 0) (longState Config.MAX_LEN 0 0 []) =
      .next (takeFault .capacity (encode (.wrbyte 0 0)) (longState Config.MAX_LEN 0 0 [])) := by
  have hr : (longState Config.MAX_LEN 0 0 []).Ready := longState_ready le_rfl (by omega) (by decide) (by decide)
  have h0 : (longState Config.MAX_LEN 0 0 []).slot 0 = zeros Config.MAX_LEN 0 0 := withSlots_zero _ _
  generalize longState Config.MAX_LEN 0 0 [] = s at hr h0 ⊢
  rw [exec_eq_runCommand _ (by decide)]
  refine runCommand_capacity (t := s.setSlot 0 (bbWriteByte (s.slot 0) 0)) hr.2 (by decide) rfl ?_
  have hn : 0 < s.slots.length := by rw [hr.1.1]; decide
  rw [Bool.eq_false_iff, ne_eq, withinCapacity_setSlot_iff hn (memory_wf_of_inv hr.1), h0]
  simp [bbWriteByte, zeros, bbAppend]

/-- One command for each code a legal command can raise; no legal command raises ILLEGAL. -/
theorem witness_FaultsComeFromTheirCommands :
    (State.reset.Ready ∧ (Instr.rdbit 0).wellFormed = true ∧
      (after (exec (.rdbit 0) State.reset)).status = faultStatus .outOfData) ∧
    ((Instr.getb 0 0).wellFormed = true ∧
      (after (exec (.getb 0 0) State.reset)).status = faultStatus .indexRange) ∧
    ((loaded [0, 0, 0, 1, 0x61]).Ready ∧ (Instr.ibwt 0 0).wellFormed = true ∧
      (after (exec (.ibwt 0 0) (loaded [0, 0, 0, 1, 0x61]))).status = faultStatus .format) ∧
    ((longState Config.MAX_LEN 0 0 []).Ready ∧ (Instr.wrbyte 0 0).wellFormed = true ∧
      (after (exec (.wrbyte 0 0) (longState Config.MAX_LEN 0 0 []))).status = faultStatus .capacity) := by
  refine ⟨by decide, by decide, by decide, longState_ready le_rfl (by omega) (by decide) (by decide), by decide, ?_⟩
  rw [longState_capacity]; rfl

theorem witness_ClrfClearsTheFaultRecord :
    State.reset.Ready ∧
    ((actingFaulted (.issue 0x1F0)).NextIsIssue 0x1F0 [] ∧ (fieldsOf 0x1F0).op = 0xF0 ∧
      (actingFaulted (.issue 0x1F0)).faulted = true) ∧
    ((acting (.issue 0x1F0)).NextIsIssue 0x1F0 [] ∧ (acting (.issue 0x1F0)).faulted = false) := by decide

/-- A candidate of 9 bytes and one of 8, with MAX_LEN = 8, and slots of 8 and 7 bytes for WRBYTE. -/
theorem witness_CapacityCheckForEveryMaxLen :
    let body := writeBody (fun st => bbWriteByte st 9) 0
    let s8 := (State.resetFor smallCore).setSlot 0 (preloaded (List.replicate 8 0))
    let s7 := (State.resetFor smallCore).setSlot 0 (preloaded (List.replicate 7 0))
    ((Instr.wrbyte 0 9).wellFormed smallCore = true ∧ s8.faulted = false ∧ s7.faulted = false ∧
      body s8 = .ok (s8.setSlot 0 (preloaded (List.replicate 8 0 ++ [9]))) ∧
      ∃ st ∈ (s8.setSlot 0 (preloaded (List.replicate 8 0 ++ [9]))).slots, smallCore.maxLen < st.data.length) ∧
    (body s7 = .ok (s7.setSlot 0 (preloaded (List.replicate 7 0 ++ [9]))) ∧
      ∀ st ∈ (s7.setSlot 0 (preloaded (List.replicate 7 0 ++ [9]))).slots, st.data.length ≤ smallCore.maxLen) ∧
    (s8.Ready smallCore ∧ (0 : SlotNo).toNat < smallCore.nslot ∧ (s8.slot 0).data.length = smallCore.maxLen) ∧
    (s7.Ready smallCore ∧ (s7.slot 0).data.length < smallCore.maxLen ∧ (s7.slot 0).npend = 0) :=
  ⟨⟨by decide, by decide, by decide, rfl, by decide⟩, ⟨rfl, by decide⟩, by decide, by decide⟩

theorem witness_CommandsWriteOnlySlotSA :
    exec (.wrbyte 0 7) State.reset = .next (after (exec (.wrbyte 0 7) State.reset)) ∧
      3 ≠ (encodeFields (.wrbyte 0 7)).sa.toNat := ⟨exec_eq_after _ _, by decide⟩

theorem witness_ReadsAndQueriesKeepMemory :
    (Instr.rdint 0 ∈ [Instr.rdbit 0, .rdbyte 0, .rdint 0, .rstpos 0] ∧
      exec (.rdint 0) (loaded [1, 2, 3, 4]) = .next (after (exec (.rdint 0) (loaded [1, 2, 3, 4])))) ∧
    (Instr.getb 0 3 ∈ [Instr.eod 0, .getb 0 3, .len 0, .clrf] ∧
      exec (.getb 0 3) (loaded [1, 2, 3, 4]) = .next (after (exec (.getb 0 3) (loaded [1, 2, 3, 4])))) :=
  ⟨⟨by decide, exec_eq_after _ _⟩, by decide, exec_eq_after _ _⟩

theorem witness_AppendsKeepOldBytes :
    Instr.wrbytes 0 0 ∈ [Instr.wrbit 0 true, .wrbyte 0 0, .wrbytes 0 0, .wrint 0 0, .flush 0] ∧
    exec (.wrbytes 0 0) (loaded [1, 2]) = .next (after (exec (.wrbytes 0 0) (loaded [1, 2]))) ∧
    1 < ((loaded [1, 2]).slot (slotIndex 0)).data.length := ⟨by decide, exec_eq_after _ _, by decide⟩

theorem witness_SetbStoresOneByte :
    exec (.setb 0 1 9) (loaded [1, 2]) = .next (after (exec (.setb 0 1 9) (loaded [1, 2]))) ∧
    (loaded [1, 2]).faulted = false ∧ (after (exec (.setb 0 1 9) (loaded [1, 2]))).faulted = false ∧
    ¬((0 : Nat) = slotIndex 0 ∧ (0 : Nat) = byteIndex 1) := ⟨exec_eq_after _ _, by decide, by decide, by decide⟩

theorem witness_ResIsWrittenOnlyByReadsAndReadByNone :
    (exec (.new 0) State.reset = .next (after (exec (.new 0) State.reset)) ∧
      (Instr.new 0).mnemonic ∉ ["RDBIT", "RDBYTE", "RDINT", "EOD", "GETB", "LEN"]) ∧
    (exec (.rdbit 0) State.reset = .next (after (exec (.rdbit 0) State.reset)) ∧
      (after (exec (.rdbit 0) State.reset)).faulted = true) :=
  ⟨⟨exec_eq_after _ _, by decide⟩, exec_eq_after _ _, by decide⟩

/-- A fault recorded, a command that commits, one that faults, and CLRF. -/
theorem witness_StatusIsWrittenOnlyByFaultAndClrf :
    let s := takeFault .format 0x111 State.reset
    (exec (.new 0) s = .next (after (exec (.new 0) s)) ∧ Instr.new 0 ≠ .clrf ∧ s.faulted = true) ∧
    (exec (.new 0) State.reset = .next (after (exec (.new 0) State.reset)) ∧ State.reset.faulted = false ∧
      (after (exec (.new 0) State.reset)).faulted = false) ∧
    (exec (.rdbit 0) State.reset = .next (after (exec (.rdbit 0) State.reset)) ∧ Instr.rdbit 0 ≠ .clrf ∧
      (after (exec (.rdbit 0) State.reset)).faulted = true) ∧
    exec .clrf s = .next (after (exec .clrf s)) :=
  ⟨⟨exec_eq_after _ _, by decide, by decide⟩, ⟨exec_eq_after _ _, by decide, by decide⟩,
    ⟨exec_eq_after _ _, by decide, by decide⟩, exec_eq_after _ _⟩

/-- Two states whose source slots differ in all but their bytes. -/
theorem witness_TransformsReadOnlySourceData :
    let s := loaded [5]
    let s' := withSlots ⟨[5], 1, 1, 1, 9, 7⟩ (preloaded [8])
    Instr.rlee 1 0 ∈ [Instr.bwt 1 0, .ibwt 1 0, .mtfe 1 0, .mtfd 1 0, .hufc 1 0, .hufx 1 0, .rlee 1 0, .rled 1 0] ∧
    (Instr.rlee 1 0).wellFormed = true ∧ s.Ready ∧ s'.Ready ∧ (s.slot (slotIndex 0)).data = (s'.slot (slotIndex 0)).data ∧
    exec (.rlee 1 0) s = .next (after (exec (.rlee 1 0) s)) ∧ exec (.rlee 1 0) s' = .next (after (exec (.rlee 1 0) s')) :=
  ⟨by decide, by decide, by decide, by decide, by decide, exec_eq_after _ _, exec_eq_after _ _⟩

theorem witness_NewEmptiesTheSlot : (withSlots ⟨[7], 1, 2, 1, 7, 3⟩ BitBuffer.empty).Ready ∧ (3 : SlotNo).toNat < Config.NSLOT := by
  decide

theorem witness_WrbitAddsOneBit :
    ((withSlots ⟨[], 63, 6, 0, 0, 0⟩ BitBuffer.empty).Ready ∧ (0 : SlotNo).toNat < Config.NSLOT ∧
      ((withSlots ⟨[], 63, 6, 0, 0, 0⟩ BitBuffer.empty).slot 0).npend < 7) ∧
    (let s := longState (Config.MAX_LEN - 1) 127 7 [];
      s.Ready ∧ (s.slot 0).npend = 7 ∧ (s.slot 0).data.length < Config.MAX_LEN) ∧
    (let s := longState Config.MAX_LEN 127 7 [];
      s.Ready ∧ (s.slot 0).npend = 7 ∧ (s.slot 0).data.length = Config.MAX_LEN) :=
  ⟨by decide,
    ⟨longState_ready (by omega) le_rfl (by decide) (by decide), rfl, by rw [longState_length]; decide⟩,
    longState_ready le_rfl le_rfl (by decide) (by decide), rfl, longState_length _ _ _ _⟩

theorem witness_WrbyteAppendsSplicedByte :
    (let s := longState (Config.MAX_LEN - 1) 0 0 [];
      s.Ready ∧ (s.slot 0).data.length < Config.MAX_LEN) ∧
    (let s := longState Config.MAX_LEN 127 7 [];
      s.Ready ∧ (s.slot 0).data.length = Config.MAX_LEN) :=
  ⟨⟨longState_ready (by omega) (by omega) (by decide) (by decide), by rw [longState_length]; decide⟩,
    longState_ready le_rfl le_rfl (by decide) (by decide), longState_length _ _ _ _⟩

theorem witness_WrbytesAppendsSourceData :
    (let s := longState (Config.MAX_LEN - 1) 127 7 [9];
      s.Ready ∧ (s.slot 0).data.length + (s.slot 1).data.length ≤ Config.MAX_LEN) ∧
    (let s := longState Config.MAX_LEN 0 0 [9];
      s.Ready ∧ Config.MAX_LEN < (s.slot 0).data.length + (s.slot 1).data.length) :=
  ⟨⟨longState_ready (by omega) le_rfl (by decide) (by decide), by rw [longState_length]; decide⟩,
    longState_ready le_rfl (by omega) (by decide) (by decide), by rw [longState_length]; decide⟩

theorem witness_WrintAppendsBigEndian :
    (let s := longState (Config.MAX_LEN - 4) 0 0 [];
      s.Ready ∧ (s.slot 0).data.length + 4 ≤ Config.MAX_LEN ∧ (s.slot 0).npend = 0) ∧
    (let s := longState (Config.MAX_LEN - 3) 127 7 [];
      s.Ready ∧ Config.MAX_LEN < (s.slot 0).data.length + 4) :=
  ⟨⟨longState_ready (by omega) (by omega) (by decide) (by decide), by rw [longState_length]; decide, rfl⟩,
    longState_ready (by omega) le_rfl (by decide) (by decide), by rw [longState_length]; decide⟩

theorem witness_FlushAppendsPaddedByte :
    (State.reset.Ready ∧ (State.reset.slot 0).npend = 0) ∧
    (let s := longState (Config.MAX_LEN - 1) 1 1 [];
      s.Ready ∧ 0 < (s.slot 0).npend ∧ (s.slot 0).data.length < Config.MAX_LEN) ∧
    (let s := longState Config.MAX_LEN 127 7 [];
      s.Ready ∧ 0 < (s.slot 0).npend ∧ (s.slot 0).data.length = Config.MAX_LEN) :=
  ⟨by decide,
    ⟨longState_ready (by omega) (by omega) (by decide) (by decide), by decide, by rw [longState_length]; decide⟩,
    longState_ready le_rfl le_rfl (by decide) (by decide), by decide, longState_length _ _ _ _⟩

theorem witness_RdbitReturnsNextBit :
    (let s := withSlots ⟨[5], 0, 0, 1, 5, 1⟩ BitBuffer.empty;
      s.Ready ∧ 0 < (s.slot 0).rem) ∧
    ((loaded [5]).Ready ∧ ((loaded [5]).slot 0).rem = 0 ∧
      ((loaded [5]).slot 0).data[((loaded [5]).slot 0).cursor]? = some 5) ∧
    (let s := withSlots ⟨[5], 0, 0, 1, 0, 0⟩ BitBuffer.empty;
      s.Ready ∧ (s.slot 0).rem = 0 ∧ (s.slot 0).cursor = (s.slot 0).data.length) := by decide

theorem witness_RdbyteReturnsSplicedByte :
    ((loaded [5]).Ready ∧ ((loaded [5]).slot 0).rem = 0 ∧
      ((loaded [5]).slot 0).data[((loaded [5]).slot 0).cursor]? = some 5) ∧
    (let s := withSlots ⟨[5, 6], 0, 0, 1, 5, 1⟩ BitBuffer.empty;
      s.Ready ∧ 0 < (s.slot 0).rem ∧ (s.slot 0).data[(s.slot 0).cursor]? = some 6) ∧
    (let s := withSlots ⟨[5], 0, 0, 1, 5, 7⟩ BitBuffer.empty;
      s.Ready ∧ (s.slot 0).cursor = (s.slot 0).data.length) := by decide

/-- 32 unread bits, and 31. -/
theorem witness_RdintReturnsBigEndian :
    ((loaded [1, 2, 3, 4]).Ready ∧ 32 ≤ (unreadBits ((loaded [1, 2, 3, 4]).slot 0)).length) ∧
    (let s := withSlots ⟨[1, 2, 3, 4], 0, 0, 1, 1, 7⟩ BitBuffer.empty;
      s.Ready ∧ (unreadBits (s.slot 0)).length < 32) := by decide

/-- For the statements that ask only for a state that takes commands and a slot number: RSTPOS, EOD, LEN, MTFE,
MTFD, HUFC, RLEE, RLED. -/
theorem witness_ready_and_slots :
    (withSlots ⟨[5], 1, 1, 1, 5, 7⟩ (preloaded [1])).Ready ∧ (0 : SlotNo).toNat < Config.NSLOT ∧
      (3 : SlotNo).toNat < Config.NSLOT := by decide

theorem witness_RstposRewinds : (withSlots ⟨[5], 1, 1, 1, 5, 7⟩ BitBuffer.empty).Ready := by decide
theorem witness_EodTestsTheCursor : (withSlots ⟨[5], 1, 1, 1, 5, 7⟩ BitBuffer.empty).Ready := by decide
theorem witness_LenReturnsDataLength : (withSlots ⟨[5], 1, 1, 1, 5, 7⟩ BitBuffer.empty).Ready := by decide

/-- The last index inside `data`, and the first one past it. -/
theorem witness_GetbReturnsIndexedByte :
    ((loaded [5, 6]).Ready ∧ memRead (loaded [5, 6]) 0 (1 : Word32).toNat = some 6) ∧
    ((loaded [5, 6]).slot 0).data.length ≤ (2 : Word32).toNat := by decide

theorem witness_SetbReplacesIndexedByte :
    ((loaded [5, 6]).Ready ∧ (1 : Word32).toNat < ((loaded [5, 6]).slot 0).data.length) ∧
    ((loaded [5, 6]).slot 0).data.length ≤ (2 : Word32).toNat := by decide

theorem witness_ByteAccessEqualsEightBitAccesses :
    let st : BitBuffer := ⟨[5, 6], 1, 1, 1, 5, 7⟩
    st.wf = true ∧ bbReadByte st = .ok (⟨[5, 6], 1, 1, 2, 6, 7⟩, 10) := ⟨by decide, rfl⟩

theorem witness_WritesAreReadBack :
    ([StreamRead.bit, .byte, .int].map StreamRead.width).sum ≤
      ([StreamWrite.bit true, .byte 0xAA, .int 0x12345678].flatMap StreamWrite.bits).length := by decide

theorem witness_CopyLeavesDestinationPreloaded :
    (2 : SlotNo) ≠ 0 ∧ (loaded [5]).Ready ∧ (2 : SlotNo).toNat < Config.NSLOT ∧ (0 : SlotNo).toNat < Config.NSLOT := by
  decide

theorem witness_BwtWritesSortedRotations :
    (let s := longState (Config.MAX_LEN - 4) 0 0 [];
      s.Ready ∧ (s.slot 0).data.length + 4 ≤ Config.MAX_LEN) ∧
    (let s := longState (Config.MAX_LEN - 3) 0 0 [];
      s.Ready ∧ Config.MAX_LEN < (s.slot 0).data.length + 4) :=
  ⟨⟨longState_ready (by omega) (by omega) (by decide) (by decide), by rw [longState_length]; decide⟩,
    longState_ready (by omega) (by omega) (by decide) (by decide), by rw [longState_length]; decide⟩

/-- `startIndex` of the 4-byte header, as the statements about IBWT and HUFX read it. -/
def headerOf (bs : Bytes) : Int := (wordOfBytes (bs.getD 0 0) (bs.getD 1 0) (bs.getD 2 0) (bs.getD 3 0)).toInt

theorem witness_IbwtFollowsSortedTable :
    ((loaded [0, 0, 0]).Ready ∧ ((loaded [0, 0, 0]).slot 0).data.length < 4) ∧
    ((loaded [0, 0, 0, 7]).Ready ∧ ((loaded [0, 0, 0, 7]).slot 0).data.length = 4) ∧
    ((loaded [0xFF, 0xFF, 0xFF, 0xFF, 0x61]).Ready ∧ headerOf [0xFF, 0xFF, 0xFF, 0xFF, 0x61] < 0) ∧
    ((loaded [0, 0, 0, 1, 0x61]).Ready ∧
      (([0, 0, 0, 1, 0x61] : Bytes).length : Int) - 4 ≤ headerOf [0, 0, 0, 1, 0x61]) ∧
    ((loaded [0, 0, 0, 0, 0x61]).Ready ∧ 4 < ([0, 0, 0, 0, 0x61] : Bytes).length ∧
      0 ≤ headerOf [0, 0, 0, 0, 0x61] ∧
      headerOf [0, 0, 0, 0, 0x61] < (([0, 0, 0, 0, 0x61] : Bytes).length : Int) - 4) := by decide

theorem witness_MtfeEmitsListIndices : (loaded [5]).Ready ∧ ((loaded [5]).slot 0).data[0]? = some 5 := by decide
theorem witness_MtfdEmitsListEntries : (loaded [5]).Ready ∧ ((loaded [5]).slot 0).data[0]? = some 5 := by decide

theorem witness_HufcWritesTreeAndCodes :
    (State.reset.Ready ∧ (State.reset.slot 0).data = []) ∧ (loaded [5]).Ready ∧ ((loaded [5]).slot 0).data ≠ [] := by
  decide

theorem witness_HufxDecodesCodeWords :
    ((loaded [0, 0, 0]).Ready ∧ ((loaded [0, 0, 0]).slot 0).data.length < 4) ∧
    ((loaded [0xFF, 0xFF, 0xFF, 0xFF]).Ready ∧ headerOf [0xFF, 0xFF, 0xFF, 0xFF] < 0) ∧
    ((loaded [0, 0, 0, 0]).Ready ∧ headerOf [0, 0, 0, 0] = 0) ∧
    ((loaded [0, 0, 0, 1, 0xA0, 0x80]).Ready ∧ headerOf [0, 0, 0, 1, 0xA0, 0x80] = 1 ∧
      hufWalk (.leaf 0x41) [] = some (.leaf 0x41) ∧
      ([0xA0, 0x80] : Bytes).flatMap byteBits = hufTreeBits (.leaf 0x41) ++ [] ++ List.replicate 7 false) ∧
    ((loaded [0, 0, 0, 1]).Ready ∧ headerOf [0, 0, 0, 1] = 1 ∧
      ¬∃ (root : HufTree) (bits : Bits), ([] : Bytes).flatMap byteBits = hufTreeBits root ++ bits) := by
  refine ⟨by decide, by decide, by decide, by decide, by decide, by decide, ?_⟩
  rintro ⟨root, bits, h⟩
  cases root <;> simp [hufTreeBits] at h

/-- The queue of two entries of one frequency; a non-empty input; the code words of a two-leaf tree. -/
theorem witness_HuffmanTreeAndCodes :
    hufTakeLeast Config.hufTieOrder [⟨1, 1, .leaf 6⟩, ⟨1, 0, .leaf 5⟩] = some (⟨1, 0, .leaf 5⟩, [⟨1, 1, .leaf 6⟩]) ∧
    ([5] : Bytes) ≠ [] ∧
    ((6, [true]) ∈ hufCodes (.internal (.leaf 5) (.leaf 6)) [] ∧
      hufWalk (.internal (.leaf 5) (.leaf 6)) [true] = some (.leaf 6)) ∧
    (hufCodes (.internal (.leaf 5) (.leaf 6)) [])[1]? = some (6, [true]) ∧ ([true] : Bits) <+: [true] := by decide

/-- The first of two dequeued leaves becomes the left child, and its sibling's parent takes the next seq: the
tree of "baa" (44_huffman R203). -/
theorem test_IsHufTreeOf : IsHufTreeOf [6, 5, 5] (.internal (.leaf 6) (.leaf 5)) :=
  ⟨[5, 6], by decide, by simp [or_comm], .merge 2 _ [] ⟨1, 1, .leaf 6⟩ ⟨2, 0, .leaf 5⟩ _ (by decide)
    (by simp [hufPrecedes]) (by simp) (.done 3 _)⟩

theorem witness_RleeWritesMaximalBlocks : (loaded [5, 5, 5, 6]).Ready := by decide
theorem witness_RledWritesDecodedBytes : (loaded [0x83, 5]).Ready := by decide

theorem witness_RledDecodesBlockByBlock :
    ((List.replicate 63 (5 : Byte)).length = 63 ∧ (List.replicate 16383 (5 : Byte)).length = 16383) ∧
    ((List.replicate 62 (5 : Byte)).length < 63 ∧ (List.replicate 16382 (5 : Byte)).length < 16383) ∧
    0 < (1 : Byte).toNat ∧ 192 ≤ (192 : Byte).toNat := by
  simp only [List.length_replicate]; decide

theorem witness_BwtRoundTrip : (List.replicate Config.MAX_LEN (0 : Byte)).length ≤ Config.MAX_LEN := by simp

theorem witness_HuffmanRoundTripUnderEveryTieOrder :
    (List.replicate Config.MAX_LEN (0 : Byte)).length ≤ Config.MAX_LEN := by simp

end Sys2Proof.Tests
end

section
/-! The state after reset (spec/10_state.md, section 6). -/

namespace Sys2Proof.Proofs.ResetState

open Sys2Proof Sys2Proof.Machine

/-- Settles O10, from the laws of the reset state for every value of the parameters, at this hardware's. -/
theorem resetValuesAreTheSpecs : Obligations.ResetValuesAreTheSpecs := by
  unfold Obligations.ResetValuesAreTheSpecs
  have slotCount : State.reset.slots.length = Config.NSLOT := resetFor_slots_length Config.params
  have slotsEmpty (a : Nat) (_ : a < Config.NSLOT) : State.reset.slot a = ⟨[], 0, 0, 0, 0, 0⟩ := reset_slot a
  exact ⟨slotCount, slotsEmpty, resetFor_res Config.params, resetFor_status Config.params,
    resetFor_fcmd Config.params⟩

end Sys2Proof.Proofs.ResetState
end

section
/-! The host's loads of a slot (spec/20_memory.md, section 3). -/

namespace Sys2Proof.Proofs.HostLoad

open Sys2Proof Sys2Proof.Machine

/-- HOST_LOAD of a slot of the core with a sequence it can hold is answered (20_memory R54). -/
theorem hostLoad_of_inContract (p : Params) (s : State) {a : Nat} {bs : Bytes} (ha : a < p.nslot)
    (hb : bs.length ≤ p.maxLen) : hostLoad a bs s p = .next (s.setSlot a (preloaded bs)) :=
  if_pos ⟨ha, hb⟩

/-- HOST_LOAD of no slot of the core, or with a sequence too long for one, is refused (20_memory R54). -/
theorem hostLoad_of_outsideContract (p : Params) (s : State) {a : Nat} {bs : Bytes}
    (h : p.nslot ≤ a ∨ p.maxLen < bs.length) : hostLoad a bs s p = .refused .hostLoadOutsideContract := by
  have outside : ¬(a < p.nslot ∧ bs.length ≤ p.maxLen) := by omega
  exact if_neg outside

/-- Settles O12: the step is HOST_LOAD, whose answer its contract decides; STATUS is not read. -/
theorem hostLoadReplacesSlot : Obligations.HostLoadReplacesSlot := by
  unfold Obligations.HostLoadReplacesSlot
  intro s a bs rest hq
  have stepLoads : step s = hostLoad a bs { s with hostQueue := rest } := step_cons hq
  rw [stepLoads]
  exact ⟨hostLoad_of_inContract Config.params _, hostLoad_of_outsideContract Config.params _⟩

end Sys2Proof.Proofs.HostLoad
end

section
/-! Which words are legal (spec/30_encoding.md, sections 3 and 4): the decoder read backwards. A legal word has
the fields of a command, so what the fields of every command satisfy, every legal word satisfies. -/

namespace Sys2Proof.Proofs.IllegalWords

open Sys2Proof Sys2Proof.Machine

/-! The decoder and the encoder on fields. -/

/-- The fields of a command select it (30_encoding R83, R84). -/
theorem decodeFields_encodeFields (i : Instr) : decodeFields (encodeFields i) = some i := by
  cases i with
  | wrbit a bit => exact Laws.DecodeFieldsEncode.wrbit a bit
  | _ => rfl

/-- Fields that select a command are that command's: an arm of the decoder keeps the fields its row carries and
requires the others to be 0 (30_encoding R84). -/
theorem encodeFields_of_decodeFields {f : Fields} {i : Instr} (h : decodeFields f = some i) :
    encodeFields i = f := by
  obtain ⟨op, sa, sb, imm8, rsv, opnd⟩ := f
  simp only [decodeFields] at h
  split at h
  case h_2 => -- WRBIT, whose IMM8 is the bit
    simp only [Option.ite_none_right_eq_some, Bool.and_eq_true, Bool.or_eq_true, beq_iff_eq, onlySAImm_iff] at h
    obtain ⟨⟨zeros, rfl | rfl⟩, hi⟩ := h <;> cases hi <;> simp [encodeFields, zeros]
  case h_24 => cases h -- no row
  all_goals
    simp only [Option.ite_none_right_eq_some, Bool.and_eq_true, beq_iff_eq, onlySA_iff, onlySASB_iff,
      onlySAImm_iff, onlySAOpnd_iff] at h
    obtain ⟨zeros, hi⟩ := h
    cases hi
    simp [encodeFields, zeros]

/-- A word that has the fields of no well-formed command is illegal (30_encoding R87, R88). -/
theorem decode_eq_none_of_fields {w : Word64} {p : Params}
    (h : ∀ i : Instr, i.wellFormed p = true → fieldsOf w ≠ encodeFields i) : decode w p = none := by
  rw [Option.eq_none_iff_forall_ne_some]
  intro i hi
  obtain ⟨selected, wf⟩ := decode_eq_some.mp hi
  exact h i wf (encodeFields_of_decodeFields selected).symm

/-! What a command's fields satisfy, for each kind of row of 30_encoding R83. -/

/-- The opcodes of the rows that carry SA alone (30_encoding R83). -/
def saOpcodes : List Nat := [0x01, 0x06, 0x07, 0x08, 0x09, 0x0A, 0x0B, 0x0E]

/-- The opcodes of the rows that carry SA and OPND (30_encoding R83). -/
def saOpndOpcodes : List Nat := [0x05, 0x0C]

/-- The opcodes of the rows that carry SA and SB (30_encoding R83). -/
def saSbOpcodes : List Nat := [0x04, 0x10, 0x11, 0x20, 0x21, 0x30, 0x31, 0x40, 0x41]

/-- The opcode map: WRBIT, WRBYTE, SETB, CLRF and the rows of the three lists (30_encoding R83). -/
def opcodeMap : List Nat := [0x02, 0x03, 0x0D, 0xF0] ++ saOpcodes ++ saOpndOpcodes ++ saSbOpcodes

theorem encodeFields_op_mem (i : Instr) : (encodeFields i).op.toNat ∈ opcodeMap := by
  cases i <;> simp [encodeFields, opcodeMap, saOpcodes, saOpndOpcodes, saSbOpcodes]

theorem encodeFields_rsv (i : Instr) : (encodeFields i).rsv = 0 := by
  cases i <;> rfl

theorem encodeFields_of_saOpcode {i : Instr} (h : (encodeFields i).op.toNat ∈ saOpcodes) :
    (encodeFields i).sb = 0 ∧ (encodeFields i).imm8 = 0 ∧ (encodeFields i).opnd = 0 := by
  cases i with
  | new | flush | rdbit | rdbyte | rdint | rstpos | eod | len => exact ⟨rfl, rfl, rfl⟩
  | _ => simp [encodeFields, saOpcodes] at h

theorem encodeFields_of_wrbitOpcode {i : Instr} (h : (encodeFields i).op.toNat = 0x02) :
    (encodeFields i).sb = 0 ∧ (encodeFields i).imm8.toNat ≤ 1 ∧ (encodeFields i).opnd = 0 := by
  cases i with
  | wrbit a bit => cases bit <;> exact ⟨rfl, by simp [encodeFields], rfl⟩
  | _ => simp [encodeFields] at h

theorem encodeFields_of_wrbyteOpcode {i : Instr} (h : (encodeFields i).op.toNat = 0x03) :
    (encodeFields i).sb = 0 ∧ (encodeFields i).opnd = 0 := by
  cases i with
  | wrbyte => exact ⟨rfl, rfl⟩
  | _ => simp [encodeFields] at h

theorem encodeFields_of_saOpndOpcode {i : Instr} (h : (encodeFields i).op.toNat ∈ saOpndOpcodes) :
    (encodeFields i).sb = 0 ∧ (encodeFields i).imm8 = 0 := by
  cases i with
  | wrint | getb => exact ⟨rfl, rfl⟩
  | _ => simp [encodeFields, saOpndOpcodes] at h

theorem encodeFields_of_setbOpcode {i : Instr} (h : (encodeFields i).op.toNat = 0x0D) :
    (encodeFields i).sb = 0 := by
  cases i with
  | setb => rfl
  | _ => simp [encodeFields] at h

/-- WRBYTES and the transforms carry two slot fields, both used, and no other field (30_encoding R83, R88). -/
theorem encodeFields_of_saSbOpcode {i : Instr} (h : (encodeFields i).op.toNat ∈ saSbOpcodes) :
    (encodeFields i).imm8 = 0 ∧ (encodeFields i).opnd = 0 ∧ (encodeFields i).sb ∈ i.slotFields := by
  cases i with
  | wrbytes a b | bwt a b | ibwt a b | mtfe a b | mtfd a b | hufc a b | hufx a b | rlee a b | rled a b =>
    exact ⟨rfl, rfl, by simp [encodeFields, Instr.slotFields]⟩
  | _ => simp [encodeFields, saSbOpcodes] at h

/-- Every command but CLRF uses SA (30_encoding R88). -/
theorem encodeFields_sa_mem_slotFields {i : Instr} (h : (encodeFields i).op.toNat ≠ 0xF0) :
    (encodeFields i).sa ∈ i.slotFields := by
  cases i with
  | clrf => exact absurd rfl h
  | _ => simp [encodeFields, Instr.slotFields]

theorem encodeFields_of_clrfOpcode {i : Instr} (h : (encodeFields i).op.toNat = 0xF0) :
    (encodeFields i).sa = 0 ∧ (encodeFields i).sb = 0 ∧ (encodeFields i).imm8 = 0 ∧
      (encodeFields i).opnd = 0 := by
  cases i with
  | clrf => exact ⟨rfl, rfl, rfl, rfl⟩
  | _ => simp [encodeFields] at h

/-! The illegal words. -/

/-- A word whose OP value is not in the opcode map is illegal (30_encoding R85). -/
theorem decode_eq_none_of_op {w : Word64} {p : Params} (h : (fieldsOf w).op.toNat ∉ opcodeMap) :
    decode w p = none :=
  decode_eq_none_of_fields fun i _ hf => h (hf ▸ encodeFields_op_mem i)

/-- The OP ranges of 30_encoding R85 hold no opcode of the map. -/
theorem notMem_opcodeMap {op : Nat}
    (h : op = 0x00 ∨ op = 0x0F ∨ (0x12 ≤ op ∧ op ≤ 0x1F) ∨ (0x22 ≤ op ∧ op ≤ 0x2F) ∨
      (0x32 ≤ op ∧ op ≤ 0x3F) ∨ (0x42 ≤ op ∧ op ≤ 0xEF) ∨ (0xF1 ≤ op ∧ op ≤ 0xFF)) : op ∉ opcodeMap := by
  intro mem
  simp only [opcodeMap, saOpcodes, saOpndOpcodes, saSbOpcodes, List.cons_append, List.nil_append,
    List.mem_cons, List.not_mem_nil, or_false] at mem
  omega

/-- Settles O4: a field that breaks its row's rule is the field of no command, and no more is an OP value
outside the opcode map. -/
theorem badFieldOrOpcodeIsIllegal : Obligations.BadFieldOrOpcodeIsIllegal := by
  unfold Obligations.BadFieldOrOpcodeIsIllegal
  refine ⟨fun w => ⟨fun bad => ?rsv, fun op bad => ?sa, fun op bad => ?wrbit, fun op bad => ?wrbyte,
    fun op bad => ?saOpnd, fun op bad => ?setb, fun op bad => ?saSb, fun op bad => ?clrf⟩,
    fun w ranges => decode_eq_none_of_op (notMem_opcodeMap ranges),
    decode_eq_none_of_op (notMem_opcodeMap (.inl rfl))⟩
  all_goals
    refine decode_eq_none_of_fields fun i _ hf => ?_
    rw [hf] at bad
  case rsv => exact bad (encodeFields_rsv i)
  all_goals rw [hf] at op
  case sa => simp [encodeFields_of_saOpcode op] at bad
  case wrbit =>
    obtain ⟨sbZero, bit, opndZero⟩ := encodeFields_of_wrbitOpcode op
    obtain sb | imm8 | opnd := bad
    · exact sb sbZero
    · omega
    · exact opnd opndZero
  case wrbyte => simp [encodeFields_of_wrbyteOpcode op] at bad
  case saOpnd => simp [encodeFields_of_saOpndOpcode op] at bad
  case setb => exact bad (encodeFields_of_setbOpcode op)
  case saSb => simp [encodeFields_of_saSbOpcode op] at bad
  case clrf => simp [encodeFields_of_clrfOpcode op] at bad

/-! The slot fields (30_encoding R88). -/

/-- Every slot field a well-formed command uses names a slot of the core (30_encoding R88). -/
theorem slotField_lt {i : Instr} {p : Params} {a : SlotNo} (wf : i.wellFormed p = true)
    (ha : a ∈ i.slotFields) : a.toNat < p.nslot :=
  slotOk_lt (List.all_eq_true.mp wf a ha)

theorem decode_eq_none_of_sa {w : Word64} {p : Params} (op : (fieldsOf w).op.toNat ≠ 0xF0)
    (beyond : p.nslot ≤ (fieldsOf w).sa.toNat) : decode w p = none := by
  refine decode_eq_none_of_fields fun i wf hf => ?_
  rw [hf] at op beyond
  exact beyond.not_gt (slotField_lt wf (encodeFields_sa_mem_slotFields op))

theorem decode_eq_none_of_sb {w : Word64} {p : Params} (op : (fieldsOf w).op.toNat ∈ saSbOpcodes)
    (beyond : p.nslot ≤ (fieldsOf w).sb.toNat) : decode w p = none := by
  refine decode_eq_none_of_fields fun i wf hf => ?_
  rw [hf] at op beyond
  obtain ⟨-, -, sbUsed⟩ := encodeFields_of_saSbOpcode op
  exact beyond.not_gt (slotField_lt wf sbUsed)

/-- Settles O5: a used slot field of a legal word is a slot field of the command it decodes to, and R88 asks no
more of the slot fields, so SA = SB is legal. -/
theorem slotFieldBeyondNslotIsIllegal : Obligations.SlotFieldBeyondNslotIsIllegal := by
  unfold Obligations.SlotFieldBeyondNslotIsIllegal
  refine ⟨rfl, fun w op => ⟨decode_eq_none_of_sa (p := Config.params) op, fun _ => decode_eq_none_of_sa op⟩,
    fun w op => ⟨decode_eq_none_of_sb (p := Config.params) op, fun _ => decode_eq_none_of_sb op⟩,
    fun a ha i hi => ?sameSlot⟩
  have slots : i.slotFields = [a, a] := by
    revert i
    simp [Instr.slotFields]
  have ok : slotOk a = true := decide_eq_true ha
  have wf : i.wellFormed = true := by simp [Instr.wellFormed, slots, ok]
  exact decode_encode_of_fields (decodeFields_encodeFields i) wf

/-! The ISSUE of an illegal word. -/

/-- Settles O8: of the three things ISSUE can do, only the entry of ILLEGAL fits an illegal word on a core with
no fault recorded. -/
theorem illegalWordOnlyRecordsFault : Obligations.IllegalWordOnlyRecordsFault := by
  unfold Obligations.IllegalWordOnlyRecordsFault
  intro s w rest hq unfaulted illegal
  have stepIssues : step s = issue w { s with hostQueue := rest } := step_cons hq
  have status : faultStatus .illegal = 0x501 := by decide
  obtain ⟨i, legal, -⟩ | ⟨-, faulted, -⟩ | ⟨-, -, enters⟩ := issue_cases Config.params w { s with hostQueue := rest }
  · simp [illegal] at legal
  · exact absurd (unfaulted.symm.trans faulted) (by decide)
  · rw [stepIssues, enters, takeFault, status, State.issuing]

end Sys2Proof.Proofs.IllegalWords
end

section
/-! A command issued on a core that takes it (spec/30_encoding.md rule R90): what its body answers decides the
next state. -/

namespace Sys2Proof.Proofs.TakenCommands

open Sys2Proof Sys2Proof.Machine

/-- The core takes the command and runs its body: the state is legal with no fault recorded, and the command is
well formed and runs a body, as every command but CLRF does (30_encoding R88, R90). -/
structure Takes (p : Params) (i : Instr) (s : State) : Prop where
  ready : s.Ready p
  hasBody : i ≠ .clrf
  legal : i.wellFormed p = true

theorem wellFormed_iff {i : Instr} {p : Params} :
    i.wellFormed p = true ↔ ∀ a ∈ i.slotFields, a.toNat < p.nslot := by
  simp [Instr.wellFormed, slotOk]

/-- A command with one slot field is taken in every ready state of a core with that slot. -/
theorem takes_of_slotFields {p : Params} {i : Instr} {s : State} {a : SlotNo} (ready : s.Ready p)
    (slots : i.slotFields = [a]) (ha : a.toNat < p.nslot) : Takes p i s where
  ready := ready
  hasBody := by
    rintro rfl
    cases slots
  legal := by simpa [wellFormed_iff, slots] using ha

theorem ready_slot_wf {p : Params} {s : State} {n : Nat} (ready : s.Ready p) (hn : n < p.nslot) :
    (s.slot n).wf p = true := by
  obtain ⟨⟨-, slots, -⟩, -⟩ := ready
  exact slots n hn

/-- A slot of a ready core is no longer than MAX_LEN (10_state R21). -/
theorem slot_length_le {p : Params} {s : State} {n : Nat} (ready : s.Ready p) (hn : n < p.nslot) :
    (s.slot n).data.length ≤ p.maxLen := by
  obtain ⟨length, -, -, -, -⟩ := (BitBuffer_wf_iff _ _).mp (ready_slot_wf ready hn)
  exact length

/-- A slot of a ready core has at most 7 bits of `cur` unread (10_state R21). -/
theorem slot_rem_le {p : Params} {s : State} {n : Nat} (ready : s.Ready p) (hn : n < p.nslot) :
    (s.slot n).rem ≤ 7 := by
  obtain ⟨-, -, -, -, rem⟩ := (BitBuffer_wf_iff _ _).mp (ready_slot_wf ready hn)
  exact rem

theorem ready_withinCapacity {p : Params} {s : State} (ready : s.Ready p) :
    withinCapacity p.maxLen s = true :=
  memory_wf_of_inv ready.1

namespace Takes

variable {p : Params} {i : Instr} {s : State}

/-- What the body answers is committed if it passes the CAPACITY check. -/
theorem commits {t : State} (c : Takes p i s) (body : bodyOf i s p = .ok t)
    (fits : withinCapacity p.maxLen t = true) : execFor p i s = .next t := by
  rw [execFor_eq_runCommand p i c.hasBody]
  exact runCommand_ok c.ready.2 c.legal body fits

/-- The fault of a command's own rule is recorded, and nothing else changes (60_exceptions R271). -/
theorem faults {x : FaultCode} (c : Takes p i s) (body : bodyOf i s p = .error x) :
    execFor p i s = .next { s with status := faultStatus x, fcmd := encode i } := by
  rw [execFor_eq_runCommand p i c.hasBody]
  exact runCommand_error c.ready.2 c.legal body

theorem commits_setSlot {n : Nat} {st : BitBuffer} (c : Takes p i s)
    (body : bodyOf i s p = .ok (s.setSlot n st)) (fits : st.data.length ≤ p.maxLen) :
    execFor p i s = .next (s.setSlot n st) :=
  c.commits body (withinCapacity_setSlot n (ready_withinCapacity c.ready) fits)

theorem commits_setRes {v : Word32} (c : Takes p i s) (body : bodyOf i s p = .ok (s.setRes v)) :
    execFor p i s = .next (s.setRes v) :=
  c.commits body (ready_withinCapacity c.ready)

theorem commits_setSlot_setRes {n : Nat} {st : BitBuffer} {v : Word32} (c : Takes p i s)
    (body : bodyOf i s p = .ok ((s.setSlot n st).setRes v)) (fits : st.data.length ≤ p.maxLen) :
    execFor p i s = .next ((s.setSlot n st).setRes v) :=
  c.commits body (withinCapacity_setSlot n (ready_withinCapacity c.ready) fits)

/-- A slot made longer than MAX_LEN is CAPACITY, and nothing is committed (30_encoding R90). -/
theorem faults_capacity {n : Nat} {st : BitBuffer} (c : Takes p i s) (hn : n < p.nslot)
    (body : bodyOf i s p = .ok (s.setSlot n st)) (tooLong : p.maxLen < st.data.length) :
    execFor p i s = .next { s with status := faultStatus .capacity, fcmd := encode i } := by
  obtain ⟨slotCount, -, -⟩ := c.ready.1
  have check := withinCapacity_setSlot_iff (st := st) (slotCount ▸ hn) (ready_withinCapacity c.ready)
  rw [execFor_eq_runCommand p i c.hasBody]
  exact runCommand_capacity c.ready.2 c.legal body (Bool.eq_false_iff.mpr fun fits => by
    have := check.mp fits
    omega)

end Takes

/-! The codes a fault entry writes to STATUS (60_exceptions R270, R271). -/

theorem faultStatus_outOfData : faultStatus .outOfData = 0x101 := by decide
theorem faultStatus_indexRange : faultStatus .indexRange = 0x201 := by decide
theorem faultStatus_capacity : faultStatus .capacity = 0x401 := by decide

end Sys2Proof.Proofs.TakenCommands
end

section
/-! The Bit Buffer commands that write a slot or query it (spec/41_bitbuffer.md rules R100, R105, R109, R114 and
R118 to R121). -/

namespace Sys2Proof.Proofs.BufferWrites

open Sys2Proof Sys2Proof.Machine Sys2Proof.Proofs.TakenCommands

/-! The write operations on a buffer, a case at a time. -/

theorem shiftInBit_eq_ofNat (v : Byte) (b : Bool) : shiftInBit v b = BitVec.ofNat 8 (2 * v.toNat + b.toNat) := by
  have bit : (bitToByte b).toNat = b.toNat := by cases b <;> rfl
  apply BitVec.eq_of_toNat_eq
  rw [shiftInBit, BitVec.toNat_add, BitVec.toNat_mul, bit, BitVec.toNat_ofNat]
  simp [Nat.mul_comm]

theorem bbWriteBit_of_lt {st : BitBuffer} (bit : Bool) (h : st.npend < 7) :
    bbWriteBit st bit =
      { st with pend := BitVec.ofNat 8 (2 * st.pend.toNat + bit.toNat), npend := st.npend + 1 } := by
  rw [bbWriteBit, if_neg (by omega), shiftInBit_eq_ofNat]

theorem bbWriteBit_of_eq {st : BitBuffer} (bit : Bool) (h : st.npend = 7) :
    bbWriteBit st bit =
      { st with data := st.data ++ [BitVec.ofNat 8 (2 * st.pend.toNat + bit.toNat)], pend := 0, npend := 0 } := by
  rw [bbWriteBit, if_pos (by omega), shiftInBit_eq_ofNat, bbAppend]

theorem bbFlush_of_pos {st : BitBuffer} (h : 0 < st.npend) :
    bbFlush st =
      { st with data := st.data ++ [BitVec.ofNat 8 (st.pend.toNat * 2 ^ (8 - st.npend))], pend := 0, npend := 0 } := by
  have justified : st.pend <<< (8 - st.npend) = BitVec.ofNat 8 (st.pend.toNat * 2 ^ (8 - st.npend)) := by
    apply BitVec.eq_of_toNat_eq
    rw [BitVec.toNat_shiftLeft, Nat.shiftLeft_eq, BitVec.toNat_ofNat]
  rw [bbFlush, if_neg (by omega), justified, bbAppend]

theorem byteToWord_eq_ofNat (v : Byte) : byteToWord v = BitVec.ofNat 32 v.toNat :=
  (BitVec.ofNat_toNat 32 v).symm

/-- Settles O30: NEW writes `empty()` to its slot. -/
theorem newEmptiesTheSlot : Obligations.NewEmptiesTheSlot := by
  unfold Obligations.NewEmptiesTheSlot
  intro a s ready ha
  rw [exec_eq_execFor]
  exact (takes_of_slotFields ready rfl ha).commits_setSlot rfl (Nat.zero_le _)

/-- Settles O31: the eighth bit is the one that appends, and only an append can pass MAX_LEN. -/
theorem wrbitAddsOneBit : Obligations.WrbitAddsOneBit := by
  unfold Obligations.WrbitAddsOneBit
  intro a bit s ready ha st p
  have taken : Takes Config.params (.wrbit a bit) s := takes_of_slotFields ready rfl ha
  have body : bodyOf (.wrbit a bit) s = .ok (s.setSlot a.toNat (bbWriteBit st bit)) := rfl
  have short : st.data.length ≤ Config.MAX_LEN := slot_length_le ready ha
  rw [exec_eq_execFor, ← faultStatus_capacity]
  refine ⟨fun pending => ?bitPending, fun pending room => ?byteAppended, fun pending full => ?capacity⟩
  case bitPending =>
    rw [bbWriteBit_of_lt bit pending] at body
    exact taken.commits_setSlot body short
  all_goals rw [bbWriteBit_of_eq bit pending] at body
  case byteAppended => exact taken.commits_setSlot body (by simpa using room)
  case capacity => exact taken.faults_capacity ha body (by simp [full])

/-- Settles O35: with nothing pending FLUSH writes back what the slot holds; else it appends one byte. -/
theorem flushAppendsPaddedByte : Obligations.FlushAppendsPaddedByte := by
  unfold Obligations.FlushAppendsPaddedByte
  intro a s ready ha st
  have taken : Takes Config.params (.flush a) s := takes_of_slotFields ready rfl ha
  have body : bodyOf (.flush a) s = .ok (s.setSlot a.toNat (bbFlush st)) := rfl
  rw [exec_eq_execFor, ← faultStatus_capacity]
  refine ⟨fun aligned => ?unchanged, fun pending room => ?byteAppended, fun pending full => ?capacity⟩
  case unchanged =>
    rw [bbFlush_aligned aligned, setSlot_slot] at body
    exact taken.commits body (ready_withinCapacity ready)
  all_goals rw [bbFlush_of_pos pending] at body
  case byteAppended => exact taken.commits_setSlot body (by simpa using room)
  case capacity => exact taken.faults_capacity ha body (by simp [full])

/-- Settles O39: RSTPOS writes its slot and leaves `data` as long as it was. -/
theorem rstposRewinds : Obligations.RstposRewinds := by
  unfold Obligations.RstposRewinds
  intro a s ready ha
  rw [exec_eq_execFor]
  exact (takes_of_slotFields ready rfl ha).commits_setSlot rfl (slot_length_le ready ha)

/-- Settles O40: EOD is a query, whose test is of the cursor in bytes. -/
theorem eodTestsTheCursor : Obligations.EodTestsTheCursor := by
  unfold Obligations.EodTestsTheCursor
  intro a s ready ha
  have body : bodyOf (.eod a) s = .ok (s.setRes (bitToWord (bbIsEndOfData (s.slot a.toNat)))) := rfl
  simp only [bitToWord, bbIsEndOfData, decide_eq_true_eq] at body
  rw [exec_eq_execFor]
  exact (takes_of_slotFields ready rfl ha).commits_setRes body

/-- An index at or past the end of `data` reads no byte (20_memory R51). -/
theorem memRead_of_length_le {s : State} {n i : Nat} (h : (s.slot n).data.length ≤ i) : memRead s n i = none :=
  List.getElem?_eq_none h

/-- Settles O41: what MemRead gives at the index decides GETB. -/
theorem getbReturnsIndexedByte : Obligations.GetbReturnsIndexedByte := by
  unfold Obligations.GetbReturnsIndexedByte
  intro a k s ready ha
  have taken : Takes Config.params (.getb a k) s := takes_of_slotFields ready rfl ha
  rw [exec_eq_execFor, ← faultStatus_indexRange]
  refine ⟨fun v read => ?inside, fun beyond => ?outside⟩
  case inside =>
    rw [← byteToWord_eq_ofNat]
    exact taken.commits_setRes (by simp [bodyOf, getbBody, slotIndex, byteIndex, read])
  case outside =>
    exact taken.faults (by simp [bodyOf, getbBody, slotIndex, byteIndex, memRead_of_length_le beyond])

/-- Settles O42: SETB is a MemWrite at an index that MemRead finds, and a MemWrite keeps the length. -/
theorem setbReplacesIndexedByte : Obligations.SetbReplacesIndexedByte := by
  unfold Obligations.SetbReplacesIndexedByte
  intro a k v s ready ha st
  have taken : Takes Config.params (.setb a k v) s := takes_of_slotFields ready rfl ha
  rw [exec_eq_execFor, ← faultStatus_indexRange]
  refine ⟨fun inside => ?inside, fun beyond => ?outside⟩
  case inside =>
    have read : memRead s a.toNat k.toNat = some st.data[k.toNat] := List.getElem?_eq_getElem inside
    have body : bodyOf (.setb a k v) s = .ok (memWrite s a.toNat k.toNat v) := by
      simp [bodyOf, setbBody, slotIndex, byteIndex, read]
    exact taken.commits_setSlot body (by simpa using slot_length_le ready ha)
  case outside =>
    exact taken.faults (by simp [bodyOf, setbBody, slotIndex, byteIndex, memRead_of_length_le beyond])

/-- Settles O43: LEN is a query, and MAX_LEN is below 2^31 (00_scope R7). -/
theorem lenReturnsDataLength : Obligations.LenReturnsDataLength := by
  unfold Obligations.LenReturnsDataLength
  intro a s ready ha
  have maxLen : Config.MAX_LEN < 2 ^ 31 := by decide
  rw [exec_eq_execFor]
  exact ⟨(slot_length_le ready ha).trans_lt maxLen, (takes_of_slotFields ready rfl ha).commits_setRes rfl⟩

end Sys2Proof.Proofs.BufferWrites
end

section
/-! What a byte read and an integer read leave in the buffer and return, in the words of the unread bits
(spec/41_bitbuffer.md rules R110 to R113). -/

namespace Sys2Proof.Proofs.ByteReads

open Sys2Proof Sys2Proof.Machine

/-! The number that a sequence of bits denotes. -/

theorem bitsValue_append_singleton (bs : Bits) (b : Bool) : bitsValue (bs ++ [b]) = 2 * bitsValue bs + b.toNat := by
  simp [bitsValue]

theorem bitsValue_append (bs cs : Bits) : bitsValue (bs ++ cs) = bitsValue bs * 2 ^ cs.length + bitsValue cs := by
  induction cs using List.reverseRecOn with
  | nil => simp [bitsValue]
  | append_singleton cs c ih =>
    rw [← List.append_assoc, bitsValue_append_singleton, bitsValue_append_singleton, ih, List.length_append,
      List.length_singleton, pow_succ]
    ring

/-- The low bits of a byte denote its remainder. -/
theorem bitsValue_lowBits (v : Byte) {k : Nat} (hk : k ≤ 8) : bitsValue (lowBits v k) = v.toNat % 2 ^ k := by
  induction k with
  | zero => simp [bitsValue, Nat.mod_one]
  | succ k ih =>
    have head : bitsValue [v.getLsbD k] = v.toNat / 2 ^ k % 2 := by
      simp [bitsValue, BitVec.getLsbD, Nat.toNat_testBit]
    rw [lowBits_succ v (by omega), ← List.singleton_append, bitsValue_append, head, ih (by omega),
      lowBits_length v (by omega), Nat.mod_pow_succ]
    ring

/-- The bits of a byte above its low ones denote its quotient. -/
theorem bitsValue_take_byteBits (v : Byte) {k : Nat} (hk : k ≤ 8) :
    bitsValue ((byteBits v).take (8 - k)) = v.toNat / 2 ^ k := by
  have whole := bitsValue_append ((byteBits v).take (8 - k)) (lowBits v k)
  rw [bitsValue_lowBits v hk, lowBits_length v hk, lowBits, List.take_append_drop, bitsValue_byteBits] at whole
  have parts := Nat.div_add_mod' v.toNat (2 ^ k)
  exact Nat.eq_of_mul_eq_mul_right (Nat.two_pow_pos k) (by omega)

/-- Four bytes assemble to the number their bits denote (41_bitbuffer R113). -/
theorem wordOfBytes_eq_bitsValue (b0 b1 b2 b3 : Byte) :
    wordOfBytes b0 b1 b2 b3 = BitVec.ofNat 32 (bitsValue ([b0, b1, b2, b3].flatMap byteBits)) := by
  simp only [wordOfBytes, List.flatMap_cons, List.flatMap_nil, List.append_nil, bitsValue_append, bitsValue_byteBits,
    List.length_append, byteBits_length]
  ring_nf

/-! A bit read, a case at a time (41_bitbuffer R111). -/

theorem bbReadBit_of_pos {st : BitBuffer} (h : 0 < st.rem) :
    bbReadBit st = .ok ({ st with rem := st.rem - 1 }, st.cur.getLsbD (st.rem - 1)) := by
  rw [bbReadBit, if_neg h.ne']

theorem bbReadBit_pull {st : BitBuffer} {v : Byte} (h : st.rem = 0) (hv : st.data[st.cursor]? = some v) :
    bbReadBit st = .ok ({ st with cur := v, cursor := st.cursor + 1, rem := 7 }, v.getLsbD 7) := by
  simp [bbReadBit, h, hv]

theorem bbReadBit_atEnd {st : BitBuffer} (h : st.rem = 0) (hc : st.cursor = st.data.length) :
    bbReadBit st = .error .outOfData := by
  simp [bbReadBit, h, hc]

/-! The buffer that byte reads leave. -/

/-- The buffer after `k` byte reads: the cursor is past them, and if bits of `cur` were unread then the last byte
pulled is `cur`, with as many bits unread as before (41_bitbuffer R112). -/
def afterBytes (st : BitBuffer) (k : Nat) : BitBuffer :=
  { st with
    cursor := st.cursor + k
    cur := if st.rem = 0 ∨ k = 0 then st.cur else st.data.getD (st.cursor + k - 1) 0 }

theorem afterBytes_zero (st : BitBuffer) : afterBytes st 0 = st := by
  simp [afterBytes]

theorem afterBytes_one_afterBytes (st : BitBuffer) (k : Nat) :
    afterBytes (afterBytes st 1) k = afterBytes st (k + 1) := by
  have index : st.cursor + 1 + k = st.cursor + (k + 1) := by omega
  by_cases aligned : st.rem = 0
  · simp [afterBytes, aligned, index]
  · by_cases noByte : k = 0
    · subst noByte
      simp [afterBytes, aligned]
    · simp [afterBytes, aligned, noByte, index]

/-- One run of bit reads after another. -/
theorem bbReadBitsInto_add {j : Nat} (k : Nat) {st st' : BitBuffer} {v v' : Byte}
    (h : bbReadBitsInto j st v = .ok (st', v')) : bbReadBitsInto (j + k) st v = bbReadBitsInto k st' v' := by
  induction j generalizing st v with
  | zero =>
    cases h
    rw [Nat.zero_add]
  | succ j ih =>
    rw [Nat.succ_add]
    cases hb : bbReadBit st with
    | error x => simp [bbReadBitsInto, hb] at h
    | ok next =>
      simp only [bbReadBitsInto, hb] at h ⊢
      exact ih h

/-- Bit reads that `cur` has the bits for take them from it. -/
theorem bbReadBitsInto_of_le_rem {k : Nat} {st : BitBuffer} (v : Byte) (hk : k ≤ st.rem) :
    ∃ u, bbReadBitsInto k st v = .ok ({ st with rem := st.rem - k }, u) := by
  induction k generalizing st v with
  | zero => exact ⟨v, rfl⟩
  | succ k ih =>
    obtain ⟨u, hu⟩ := ih (st := { st with rem := st.rem - 1 }) (shiftInBit v (st.cur.getLsbD (st.rem - 1)))
      (Nat.le_sub_one_of_lt hk)
    refine ⟨u, ?_⟩
    rw [bbReadBitsInto, bbReadBit_of_pos (by omega)]
    simpa [Nat.sub_sub, Nat.add_comm 1 k] using hu

/-- A byte read takes the byte at the cursor, or with bits of `cur` unread makes it the new `cur`: the unread
bits of the old `cur` are read, the byte is pulled, and its bits are read until as many are left as before. -/
theorem bbReadByte_of_getElem? {st : BitBuffer} {v : Byte} (hr : st.rem ≤ 7) (hv : st.data[st.cursor]? = some v) :
    ∃ u, bbReadByte st = .ok (afterBytes st 1, u) := by
  by_cases aligned : st.rem = 0
  · exact ⟨v, by simp [bbReadByte, aligned, hv, afterBytes]⟩
  · obtain ⟨u, old⟩ := bbReadBitsInto_of_le_rem (st := st) 0 le_rfl
    rw [Nat.sub_self] at old
    have pull := bbReadBit_pull (st := { st with rem := 0 }) rfl hv
    obtain ⟨w, new⟩ := bbReadBitsInto_of_le_rem (k := 7 - st.rem)
      (st := { st with cur := v, cursor := st.cursor + 1, rem := 7 }) (shiftInBit u (v.getLsbD 7)) (Nat.sub_le _ _)
    refine ⟨w, ?_⟩
    calc bbReadByte st
      _ = bbReadBitsInto 8 st 0 := by rw [bbReadByte, if_neg aligned]
      _ = bbReadBitsInto (st.rem + (7 - st.rem + 1)) st 0 := by
        congr 1
        omega
      _ = bbReadBitsInto (7 - st.rem + 1) { st with rem := 0 } u := bbReadBitsInto_add _ old
      _ = bbReadBitsInto (7 - st.rem) { st with cur := v, cursor := st.cursor + 1, rem := 7 }
          (shiftInBit u (v.getLsbD 7)) := by rw [bbReadBitsInto, pull]
      _ = .ok (afterBytes st 1, w) := by
        rw [new]
        simp [afterBytes, aligned, hv, Nat.sub_sub_self hr]

/-- The buffer has bits for `k` byte reads exactly when `k` bytes stand from the cursor on. -/
theorem le_unreadBits_length_iff {st : BitBuffer} (k : Nat) (hr : st.rem ≤ 7) (hc : st.cursor ≤ st.data.length) :
    8 * k ≤ (unreadBits st).length ↔ st.cursor + k ≤ st.data.length := by
  rw [unreadBits_length (by omega)]
  omega

/-- The state and the bits of a byte read that has a byte at the cursor. -/
theorem bbReadByte_next {st : BitBuffer} {v : Byte} (hr : st.rem ≤ 7) (hv : st.data[st.cursor]? = some v) :
    ∃ u, bbReadByte st = .ok (afterBytes st 1, u) ∧ byteBits u = (unreadBits st).take 8 := by
  obtain ⟨inside, -⟩ := List.getElem?_eq_some_iff.mp hv
  obtain ⟨u, read⟩ := bbReadByte_of_getElem? hr hv
  have spec := bbReadByte_spec hr
  rw [if_pos ((le_unreadBits_length_iff 1 hr inside.le).mpr inside)] at spec
  obtain ⟨st', u', read', bits, -, -⟩ := spec
  rw [read] at read'
  cases read'
  exact ⟨u, read, bits⟩

/-- The next eight unread bits: those left of `cur`, then the head of the byte at the cursor. -/
theorem take_unreadBits {st : BitBuffer} {v : Byte} (hr : st.rem ≤ 7) (hv : st.data[st.cursor]? = some v) :
    (unreadBits st).take 8 = lowBits st.cur st.rem ++ (byteBits v).take (8 - st.rem) := by
  obtain ⟨inside, hv'⟩ := List.getElem?_eq_some_iff.mp hv
  have length := lowBits_length st.cur (k := st.rem) (by omega)
  rw [unreadBits, List.drop_eq_getElem_cons inside, hv', List.flatMap_cons, List.take_append,
    List.take_of_length_le (by omega), length, List.take_append_of_le_length (by simp)]

/-- The byte that a byte read returns is the splice of R112, which with nothing left of `cur` is the byte at the
cursor. -/
theorem bbReadByte_spliced {st : BitBuffer} {v : Byte} (hr : st.rem ≤ 7) (hv : st.data[st.cursor]? = some v) :
    ∃ u, bbReadByte st = .ok (afterBytes st 1, u) ∧
      u.toNat = st.cur.toNat % 2 ^ st.rem * 2 ^ (8 - st.rem) + v.toNat / 2 ^ st.rem := by
  obtain ⟨u, read, bits⟩ := bbReadByte_next hr hv
  refine ⟨u, read, ?_⟩
  rw [← bitsValue_byteBits, bits, take_unreadBits hr hv, bitsValue_append, bitsValue_lowBits _ (by omega),
    bitsValue_take_byteBits _ (by omega), List.length_take, byteBits_length, Nat.min_eq_left (Nat.sub_le _ _)]

/-- With no byte at the cursor fewer than 8 bits are unread, and a byte read runs out of data. -/
theorem bbReadByte_atEnd {st : BitBuffer} (hr : st.rem ≤ 7) (hv : st.data[st.cursor]? = none) :
    bbReadByte st = .error .outOfData := by
  have beyond := List.getElem?_eq_none_iff.mp hv
  have few : ¬ 8 ≤ (unreadBits st).length := by
    rw [unreadBits_length (by omega)]
    omega
  have spec := bbReadByte_spec hr
  rwa [if_neg few] at spec

theorem bbReadByte_state {st st' : BitBuffer} {u : Byte} (hr : st.rem ≤ 7) (h : bbReadByte st = .ok (st', u)) :
    st' = afterBytes st 1 := by
  cases hv : st.data[st.cursor]? with
  | none =>
    rw [bbReadByte_atEnd hr hv] at h
    cases h
  | some v =>
    obtain ⟨u', read⟩ := bbReadByte_of_getElem? hr hv
    rw [read] at h
    cases h
    rfl

/-- Byte reads that find their bytes leave the buffer that `afterBytes` gives. -/
theorem bbReadBytes_state {k : Nat} {st st' : BitBuffer} {vs : Bytes} (hr : st.rem ≤ 7)
    (h : bbReadBytes k st = .ok (st', vs)) : st' = afterBytes st k := by
  induction k generalizing st st' vs with
  | zero =>
    cases h
    exact (afterBytes_zero _).symm
  | succ k ih =>
    rw [bbReadBytes] at h
    split at h
    · cases h
    · next st1 v first =>
      split at h
      · cases h
      · next st2 vs' others =>
        cases h
        have one := bbReadByte_state hr first
        subst one
        rw [ih (st := afterBytes st 1) hr others, afterBytes_one_afterBytes]

/-- The `i32` of the first four bytes, big-endian (20_memory R52). -/
def leadingInt (bs : Bytes) : Int :=
  asI32 (wordOfBytes (bs.getD 0 0) (bs.getD 1 0) (bs.getD 2 0) (bs.getD 3 0))

/-- An integer read is four byte reads, assembled big-endian (41_bitbuffer R113). -/
theorem bbReadInt_eq_map (st : BitBuffer) :
    bbReadInt st = (bbReadBytes 4 st).map fun r => (r.1, leadingInt r.2) := by
  simp only [bbReadInt, bbReadBytes]
  cases bbReadByte st with
  | error x => rfl
  | ok r0 =>
    cases h1 : bbReadByte r0.1 with
    | error x => simp [h1, Except.map]
    | ok r1 =>
      cases h2 : bbReadByte r1.1 with
      | error x => simp [h1, h2, Except.map]
      | ok r2 => cases h3 : bbReadByte r2.1 <;> simp [h1, h2, h3, Except.map, leadingInt]

/-- With 32 bits unread an integer read returns the number they denote, as an `i32`. -/
theorem bbReadInt_of_le {st : BitBuffer} (hr : st.rem ≤ 7) (h : 32 ≤ (unreadBits st).length) :
    bbReadInt st =
      .ok (afterBytes st 4, asI32 (BitVec.ofNat 32 (bitsValue ((unreadBits st).take 32)))) := by
  have spec := bbReadBytes_spec 4 hr
  rw [if_pos (by omega)] at spec
  obtain ⟨st', vs, read, length, bits, -, -⟩ := spec
  obtain ⟨b0, b1, b2, b3, rfl⟩ := List.length_eq_four.mp length
  rw [bbReadInt_eq_map, read, ← bits, ← wordOfBytes_eq_bitsValue, bbReadBytes_state hr read]
  rfl

theorem bbReadInt_of_lt {st : BitBuffer} (hr : st.rem ≤ 7) (h : (unreadBits st).length < 32) :
    bbReadInt st = .error .outOfData := by
  have spec := bbReadBytes_spec 4 hr
  rw [if_neg (by omega)] at spec
  rw [bbReadInt_eq_map, spec]
  rfl

end Sys2Proof.Proofs.ByteReads
end

section
/-! The Bit Buffer commands that read a slot (spec/41_bitbuffer.md rules R111 to R113). -/

namespace Sys2Proof.Proofs.BufferReads

open Sys2Proof Sys2Proof.Machine Sys2Proof.Proofs.TakenCommands Sys2Proof.Proofs.BufferWrites
  Sys2Proof.Proofs.ByteReads

/-! The template of a read (41_bitbuffer R102), and the `u32` that each read writes to RES. -/

theorem readBody_of_ok {op : BitBuffer → Except FaultCode (BitBuffer × Word32)} {a : SlotNo} {s : State}
    {st : BitBuffer} {v : Word32} (h : op (s.slot a.toNat) = .ok (st, v)) :
    readBody op a s = .ok ((s.setSlot a.toNat st).setRes v) := by
  rw [readBody, slotIndex, h]

theorem readBody_of_error {op : BitBuffer → Except FaultCode (BitBuffer × Word32)} {a : SlotNo} {s : State}
    {x : FaultCode} (h : op (s.slot a.toNat) = .error x) : readBody op a s = .error x := by
  rw [readBody, slotIndex, h]

theorem rdbitValue_of_ok {st st' : BitBuffer} {b : Bool} (h : bbReadBit st = .ok (st', b)) :
    rdbitValue st = .ok (st', if b then 1 else 0) := by
  simp only [rdbitValue, h, bitToWord]

theorem rdbyteValue_of_ok {st st' : BitBuffer} {v : Byte} (h : bbReadByte st = .ok (st', v)) :
    rdbyteValue st = .ok (st', BitVec.ofNat 32 v.toNat) := by
  simp only [rdbyteValue, h, byteToWord_eq_ofNat]

theorem rdintValue_of_ok {st st' : BitBuffer} {w : Word32} (h : bbReadInt st = .ok (st', asI32 w)) :
    rdintValue st = .ok (st', w) := by
  simp only [rdintValue, h, asU32_asI32]

theorem rdbitValue_of_error {st : BitBuffer} {x : FaultCode} (h : bbReadBit st = .error x) :
    rdbitValue st = .error x := by
  rw [rdbitValue, h]

theorem rdbyteValue_of_error {st : BitBuffer} {x : FaultCode} (h : bbReadByte st = .error x) :
    rdbyteValue st = .error x := by
  rw [rdbyteValue, h]

theorem rdintValue_of_error {st : BitBuffer} {x : FaultCode} (h : bbReadInt st = .error x) :
    rdintValue st = .error x := by
  rw [rdintValue, h]

/-- Settles O36: of the three cases of a bit read, the last is the fault. -/
theorem rdbitReturnsNextBit : Obligations.RdbitReturnsNextBit := by
  unfold Obligations.RdbitReturnsNextBit
  intro a s ready ha st
  have taken : Takes Config.params (.rdbit a) s := takes_of_slotFields ready rfl ha
  have short : st.data.length ≤ Config.MAX_LEN := slot_length_le ready ha
  rw [exec_eq_execFor, ← faultStatus_outOfData]
  refine ⟨fun unread => ?fromCur, fun v aligned atCursor => ?pulled, fun aligned atEnd => ?outOfData⟩
  case fromCur =>
    exact taken.commits_setSlot_setRes (readBody_of_ok (rdbitValue_of_ok (bbReadBit_of_pos unread))) short
  case pulled =>
    exact taken.commits_setSlot_setRes (readBody_of_ok (rdbitValue_of_ok (bbReadBit_pull aligned atCursor))) short
  case outOfData =>
    exact taken.faults (readBody_of_error (rdbitValue_of_error (bbReadBit_atEnd aligned atEnd)))

/-- Settles O37: a byte at the cursor gives the splice of R112, which is that byte when no bit of `cur` is
unread; without one fewer than 8 bits are unread. -/
theorem rdbyteReturnsSplicedByte : Obligations.RdbyteReturnsSplicedByte := by
  unfold Obligations.RdbyteReturnsSplicedByte
  intro a s ready ha st
  have taken : Takes Config.params (.rdbyte a) s := takes_of_slotFields ready rfl ha
  have short : st.data.length ≤ Config.MAX_LEN := slot_length_le ready ha
  have few : st.rem ≤ 7 := slot_rem_le ready ha
  have reads (v : Byte) (atCursor : st.data[st.cursor]? = some v) :
      execFor Config.params (.rdbyte a) s = .next ((s.setSlot a.toNat (afterBytes st 1)).setRes (BitVec.ofNat 32
        (st.cur.toNat % 2 ^ st.rem * 2 ^ (8 - st.rem) + v.toNat / 2 ^ st.rem))) := by
    obtain ⟨u, read, value⟩ := bbReadByte_spliced few atCursor
    rw [← value]
    exact taken.commits_setSlot_setRes (readBody_of_ok (rdbyteValue_of_ok read)) short
  rw [exec_eq_execFor, ← faultStatus_outOfData]
  refine ⟨fun v aligned atCursor => ?aligned, fun v unread atCursor => ?spliced, fun atEnd => ?outOfData⟩
  case aligned => simpa [afterBytes, aligned, Nat.mod_one] using reads v atCursor
  case spliced => simpa [afterBytes, unread.ne', atCursor] using reads v atCursor
  case outOfData =>
    have noByte : st.data[st.cursor]? = none := List.getElem?_eq_none atEnd.ge
    exact taken.faults (readBody_of_error (rdbyteValue_of_error (bbReadByte_atEnd few noByte)))

/-- Settles O38: RDINT is four byte reads, which take the next 32 unread bits; `as_u32` gives back the pattern
that was read as an `i32`. -/
theorem rdintReturnsBigEndian : Obligations.RdintReturnsBigEndian := by
  unfold Obligations.RdintReturnsBigEndian
  intro a s ready ha st
  have taken : Takes Config.params (.rdint a) s := takes_of_slotFields ready rfl ha
  have short : st.data.length ≤ Config.MAX_LEN := slot_length_le ready ha
  have few : st.rem ≤ 7 := slot_rem_le ready ha
  rw [exec_eq_execFor, ← faultStatus_outOfData]
  refine ⟨fun enough => ?word, fun tooFew => ?outOfData⟩
  case word =>
    have body := readBody_of_ok (rdintValue_of_ok (bbReadInt_of_le few enough))
    simpa [afterBytes] using taken.commits_setSlot_setRes body short
  case outOfData =>
    exact taken.faults (readBody_of_error (rdintValue_of_error (bbReadInt_of_lt few tooFew)))

end Sys2Proof.Proofs.BufferReads
end

section
/-! The transforms on a core that takes them (spec/30_encoding.md rule R90): what the transform's function answers
for the source's bytes decides the next state. -/

namespace Sys2Proof.Proofs.TakenTransforms

open Sys2Proof Sys2Proof.Machine Sys2Proof.Proofs.TakenCommands

/-- A command with two slot fields is taken in every ready state of a core with those slots, equal or not. -/
theorem takes_of_slotPair {p : Params} {i : Instr} {s : State} {a b : SlotNo} (ready : s.Ready p)
    (slots : i.slotFields = [a, b]) (ha : a.toNat < p.nslot) (hb : b.toNat < p.nslot) : Takes p i s where
  ready := ready
  hasBody := by
    rintro rfl
    cases slots
  legal := by simp [wellFormed_iff, slots, ha, hb]

section
variable {p : Params} {i : Instr} {s : State} {a b : SlotNo} {f : Bytes → Except FaultCode Bytes}

theorem transformBody_of_ok {out : Bytes} (h : f (s.slot b.toNat).data = .ok out) :
    transformBody f a b s = .ok (s.setSlot a.toNat (preloaded out)) := by
  simp only [transformBody, slotIndex, h]

theorem transformBody_of_error {x : FaultCode} (h : f (s.slot b.toNat).data = .error x) :
    transformBody f a b s = .error x := by
  simp only [transformBody, slotIndex, h]

/-- An output that the destination can hold is committed. -/
theorem transform_commits {out : Bytes} (taken : Takes p i s) (body : bodyOf i s p = transformBody f a b s)
    (h : f (s.slot b.toNat).data = .ok out) (fits : out.length ≤ p.maxLen) :
    execFor p i s = .next (s.setSlot a.toNat (preloaded out)) :=
  taken.commits_setSlot (body.trans (transformBody_of_ok h)) fits

/-- An output that the destination cannot hold is CAPACITY. -/
theorem transform_faults_capacity {out : Bytes} (taken : Takes p i s) (body : bodyOf i s p = transformBody f a b s)
    (ha : a.toNat < p.nslot) (h : f (s.slot b.toNat).data = .ok out) (tooLong : p.maxLen < out.length) :
    execFor p i s = .next { s with status := faultStatus .capacity, fcmd := encode i } :=
  taken.faults_capacity ha (body.trans (transformBody_of_ok h)) tooLong

theorem transform_faults {x : FaultCode} (taken : Takes p i s) (body : bodyOf i s p = transformBody f a b s)
    (h : f (s.slot b.toNat).data = .error x) :
    execFor p i s = .next { s with status := faultStatus x, fcmd := encode i } :=
  taken.faults (body.trans (transformBody_of_error h))

end

theorem faultStatus_format : faultStatus .format = 0x301 := by decide

end Sys2Proof.Proofs.TakenTransforms
end

section
/-! Stability of insertion sort: entries that tie keep the order in which they stood. -/

namespace Sys2Proof.Proofs.StableSort

/-- The order of a stable sort by `r` of a list that stands in the order `q`: by `r`, and ties by `q`. -/
def TiesBy {α : Type} (r q : α → α → Prop) (a b : α) : Prop := r a b ∧ (r b a → q a b)

section
variable {α : Type} {r q : α → α → Prop} [DecidableRel r] [Std.Total r] [IsTrans α r]

/-- Insertion puts an entry that stood before all others before those that tie with it. -/
theorem pairwise_tiesBy_orderedInsert {a : α} {l : List α} (first : ∀ b ∈ l, q a b)
    (sorted : l.Pairwise (TiesBy r q)) : (l.orderedInsert r a).Pairwise (TiesBy r q) := by
  induction l with
  | nil => simp
  | cons b l ih =>
    obtain ⟨before, rest⟩ := List.pairwise_cons.mp sorted
    rw [List.orderedInsert_cons]
    split
    case isTrue hab =>
      refine List.pairwise_cons.mpr ⟨fun c hc => ⟨?_, fun _ => first c hc⟩, sorted⟩
      obtain rfl | hc := List.mem_cons.mp hc
      · exact hab
      · obtain ⟨hbc, -⟩ := before c hc
        exact trans_of r hab hbc
    case isFalse hab =>
      refine List.pairwise_cons.mpr ⟨fun c hc => ?_, ih (fun c hc => first c (List.mem_cons_of_mem b hc)) rest⟩
      obtain rfl | hc := (List.mem_orderedInsert r).mp hc
      · exact ⟨(total_of r c b).resolve_left hab, fun h => absurd h hab⟩
      · exact before c hc

/-- Insertion sort is stable. -/
theorem pairwise_tiesBy_insertionSort {l : List α} (h : l.Pairwise q) :
    (l.insertionSort r).Pairwise (TiesBy r q) := by
  induction l with
  | nil => simp
  | cons a l ih =>
    obtain ⟨first, rest⟩ := List.pairwise_cons.mp h
    exact pairwise_tiesBy_orderedInsert (fun b hb => first b ((List.mem_insertionSort r).mp hb)) (ih rest)

end

end Sys2Proof.Proofs.StableSort
end

section
/-! The forward Burrows-Wheeler transform (spec/42_bwt.md, section 1). -/

namespace Sys2Proof.Proofs.ForwardBwt

open Sys2Proof Sys2Proof.Machine Sys2Proof.Proofs.TakenCommands Sys2Proof.Proofs.TakenTransforms
  Sys2Proof.Proofs.StableSort

/-- The model's comparison is the lexicographic order of lists, bytes unsigned (42_bwt R151). -/
theorem lexLe_iff_le (us vs : Bytes) : lexLe us vs = true ↔ us ≤ vs := by
  induction us generalizing vs with
  | nil => simp [lexLe]
  | cons u us ih =>
    cases vs with
    | nil => simp [lexLe]
    | cons v vs =>
      rw [List.cons_le_cons_iff, ← ih, BitVec.lt_def, ← BitVec.toNat_inj, lexLe]
      split
      · simp [*]
      · split
        · simp; omega
        · have tie : u.toNat = v.toNat := by omega
          simp [tie]

/-- `rot(o)` is the library's rotation of the list (42_bwt R151). -/
theorem rotation_eq_rotate (x : Bytes) (o : Nat) : Machine.rotation x o = x.rotate o := by
  refine List.ext_getElem (by simp) fun k hk _ => ?_
  rw [rotation_length] at hk
  have inside : (o + k) % x.length < x.length := Nat.mod_lt _ (Nat.zero_lt_of_lt hk)
  simp [Machine.rotation, List.getElem_rotate, inside, Nat.add_comm k o]

/-- The sorted offsets are in order of their rotations, tied rotations in order of their offsets
(42_bwt R151, R152). -/
theorem bwtOrder_pairwise (x : Bytes) :
    (bwtOrder x).Pairwise fun o p => x.rotate o < x.rotate p ∨ (x.rotate o = x.rotate p ∧ o < p) := by
  have sortsBy : (fun o p => lexLe (Machine.rotation x o) (Machine.rotation x p) = true) =
      fun o p => x.rotate o ≤ x.rotate p := by
    simp only [lexLe_iff_le, rotation_eq_rotate]
  have total : Std.Total fun o p => x.rotate o ≤ x.rotate p := ⟨fun _ _ => List.le_total _ _⟩
  have trans : IsTrans Nat fun o p => x.rotate o ≤ x.rotate p := ⟨fun _ _ _ => List.le_trans⟩
  have sorted := pairwise_tiesBy_insertionSort (r := fun o p => x.rotate o ≤ x.rotate p)
    (List.pairwise_lt_range (n := x.length))
  simp only [bwtOrder, sortsBy]
  refine sorted.imp fun {o p} ⟨le, ties⟩ => ?_
  obtain lt | tie := List.le_iff_lt_or_eq.mp le
  · exact .inl lt
  · exact .inr ⟨tie, ties (List.le_iff_lt_or_eq.mpr (.inr tie.symm))⟩

/-- The empty input's output needs no case of its own but the index's (42_bwt R153, R154). -/
theorem bwt_eq_sorted (x : Bytes) :
    bwt x = wordBytes (BitVec.ofNat 32 (if x.length = 0 then 0 else (bwtOrder x).idxOf 0)) ++
      (bwtOrder x).map fun o => x.getD ((o + x.length - 1) % x.length) 0 := by
  have emptyColumn (h : x.length = 0) : bwtColumn x = [] := List.length_eq_zero_iff.mp ((bwtColumn_length x).trans h)
  have column : (if x.length = 0 then [] else bwtColumn x) = bwtColumn x := by
    split
    · next h => exact (emptyColumn h).symm
    · rfl
  rw [bwt_eq, column, bwtStart, bwtColumn]

theorem bwt_length (x : Bytes) : (bwt x).length = x.length + 4 := by
  rw [bwt_eq_sorted, List.length_append, List.length_map, (bwtOrder_perm x).length_eq, List.length_range]
  exact Nat.add_comm 4 x.length

/-- Settles O47: the model's own order of the offsets is the sorted one. -/
theorem bwtWritesSortedRotations : Obligations.BwtWritesSortedRotations := by
  unfold Obligations.BwtWritesSortedRotations
  intro a b s ready ha hb x
  have taken : Takes Config.params (.bwt a b) s := takes_of_slotPair ready rfl ha hb
  have body : bodyOf (.bwt a b) s = transformBody (fun x => .ok (bwt x)) a b s := rfl
  have length : (bwt x).length = x.length + 4 := bwt_length x
  rw [exec_eq_execFor, ← faultStatus_capacity]
  refine ⟨fun fits => ⟨bwtOrder x, bwtOrder_perm x, bwtOrder_pairwise x, ?sorted⟩, fun tooLong => ?capacity⟩
  case sorted =>
    rw [← bwt_eq_sorted]
    exact transform_commits taken body rfl (length.trans_le fits)
  case capacity => exact transform_faults_capacity taken body ha rfl (tooLong.trans_eq length.symm)

end Sys2Proof.Proofs.ForwardBwt
end

section
/-! The inverse Burrows-Wheeler transform (spec/42_bwt.md, section 2). -/

namespace Sys2Proof.Proofs.InverseBwt

open Sys2Proof Sys2Proof.Machine Sys2Proof.Proofs.TakenCommands Sys2Proof.Proofs.ByteReads
  Sys2Proof.Proofs.TakenTransforms Sys2Proof.Proofs.StableSort

/-! The sorted table (42_bwt R157). -/

theorem ibwtPairs_map_fst (bytes : Bytes) : (ibwtPairs bytes).map Prod.fst = List.range bytes.length := by
  rw [List.range_eq_range', ← List.zipIdx_map_snd 0 bytes, ibwtPairs, List.map_map]
  rfl

theorem ibwtSorted_perm_zipIdx (bytes : Bytes) : ((ibwtSorted bytes).map Prod.swap).Perm bytes.zipIdx := by
  have swapBack : (ibwtPairs bytes).map Prod.swap = bytes.zipIdx := by
    simp [ibwtPairs, Function.comp_def]
  exact swapBack ▸ (ibwtSorted_perm bytes).map Prod.swap

/-- The table is sorted by byte, ties by position. -/
theorem ibwtSorted_pairwise (bytes : Bytes) :
    (ibwtSorted bytes).Pairwise fun p q => p.2.toNat < q.2.toNat ∨ (p.2 = q.2 ∧ p.1 < q.1) := by
  have total : Std.Total fun p q : Nat × Byte => p.2.toNat ≤ q.2.toNat := ⟨fun _ _ => Nat.le_total _ _⟩
  have trans : IsTrans (Nat × Byte) fun p q => p.2.toNat ≤ q.2.toNat := ⟨fun _ _ _ => Nat.le_trans⟩
  have readOrder : (ibwtPairs bytes).Pairwise fun p q => p.1 < q.1 := by
    rw [← List.pairwise_map (f := Prod.fst) (R := (· < ·)), ibwtPairs_map_fst]
    exact List.pairwise_lt_range
  refine (pairwise_tiesBy_insertionSort (r := fun p q : Nat × Byte => p.2.toNat ≤ q.2.toNat) readOrder).imp
    fun {p q} ⟨le, ties⟩ => ?_
  obtain lt | tie := Nat.lt_or_eq_of_le le
  · exact .inl lt
  · exact .inr ⟨BitVec.eq_of_toNat_eq tie, ties tie.ge⟩

@[simp] theorem ibwtSorted_length (bytes : Bytes) : (ibwtSorted bytes).length = bytes.length := by
  rw [(ibwtSorted_perm bytes).length_eq, ← List.length_map (f := Prod.fst), ibwtPairs_map_fst, List.length_range]

/-- Every position in the table is a row of it. -/
theorem pos_lt_of_mem_ibwtSorted {bytes : Bytes} {p : Nat × Byte} (h : p ∈ ibwtSorted bytes) :
    p.1 < bytes.length := by
  have read : p.1 ∈ (ibwtPairs bytes).map Prod.fst := List.mem_map_of_mem ((ibwtSorted_perm bytes).mem_iff.mp h)
  rwa [ibwtPairs_map_fst, List.mem_range] at read

/-! The chain through the table (42_bwt R158). -/

/-- The row that the reconstruction goes to from a row of the table. -/
def ibwtNext (sorted : List (Nat × Byte)) (row : Nat) : Nat := (sorted.getD row (0, 0)).1

/-- The row after `k` steps of the reconstruction. -/
def ibwtRow (sorted : List (Nat × Byte)) (start k : Nat) : Nat := (ibwtNext sorted)^[k] start

theorem ibwtRow_zero (sorted : List (Nat × Byte)) (start : Nat) : ibwtRow sorted start 0 = start := rfl

theorem ibwtRow_succ (sorted : List (Nat × Byte)) (start k : Nat) :
    ibwtRow sorted start (k + 1) = ibwtNext sorted (ibwtRow sorted start k) :=
  Function.iterate_succ_apply' _ _ _

/-- The reconstruction emits the bytes of the rows it goes through. -/
theorem ibwtChase_getElem? (sorted : List (Nat × Byte)) {n k : Nat} (start : Nat) (hk : k < n) :
    (ibwtChase sorted n start)[k]? = some (sorted.getD (ibwtRow sorted start k) (0, 0)).2 := by
  induction n generalizing start k with
  | zero => omega
  | succ n ih =>
    cases k with
    | zero => rfl
    | succ k => exact ih (ibwtNext sorted start) (Nat.lt_of_succ_lt_succ hk)

/-- The chain never leaves the table. -/
theorem ibwtRow_lt {bytes : Bytes} {start : Nat} (h : start < bytes.length) (k : Nat) :
    ibwtRow (ibwtSorted bytes) start k < bytes.length := by
  induction k with
  | zero => exact h
  | succ k ih =>
    have inTable : ibwtRow (ibwtSorted bytes) start k < (ibwtSorted bytes).length := by simpa using ih
    rw [ibwtRow_succ, ibwtNext, List.getD_eq_getElem _ _ inTable]
    exact pos_lt_of_mem_ibwtSorted (List.getElem_mem inTable)

/-- Each step emits the byte of its row and goes to that row's position. -/
theorem ibwtChase_step {bytes : Bytes} {start n k : Nat} (inside : start < bytes.length) (hk : k < n) :
    ∃ p, ((ibwtSorted bytes).map Prod.swap)[ibwtRow (ibwtSorted bytes) start k]? = some p ∧
      (ibwtChase (ibwtSorted bytes) n start)[k]? = some p.1 ∧
      ibwtRow (ibwtSorted bytes) start (k + 1) = p.2 := by
  have inTable : ibwtRow (ibwtSorted bytes) start k < (ibwtSorted bytes).length :=
    (ibwtRow_lt inside k).trans_eq (ibwtSorted_length bytes).symm
  refine ⟨(ibwtSorted bytes)[ibwtRow (ibwtSorted bytes) start k].swap, by simp, ?emitted, ?next⟩
  case emitted => rw [ibwtChase_getElem? _ _ hk, List.getD_eq_getElem _ _ inTable, Prod.fst_swap]
  case next => rw [ibwtRow_succ, ibwtNext, List.getD_eq_getElem _ _ inTable, Prod.snd_swap]

/-! The function `ibwt`, a case at a time (42_bwt R156, R159). -/

/-- The header of at least 4 bytes, read from a fresh reader (41_bitbuffer R113). -/
theorem bbReadInt_preloaded_of_le {bs : Bytes} (h : 4 ≤ bs.length) :
    bbReadInt (preloaded bs) = .ok ({ preloaded bs with cursor := 4 }, leadingInt bs) := by
  match bs, h with
  | b0 :: b1 :: b2 :: b3 :: rest, _ => exact bbReadInt_preloaded b0 b1 b2 b3 rest

/-- The bytes that follow the header. -/
theorem bbReadBytes_after_header {bs : Bytes} (h : 4 ≤ bs.length) :
    ∃ st, bbReadBytes (bs.length - 4) { preloaded bs with cursor := 4 } = .ok (st, bs.drop 4) := by
  have fits : 4 + (bs.length - 4) ≤ bs.length := by omega
  have whole : (bs.drop 4).take (bs.length - 4) = bs.drop 4 := List.take_of_length_le (by simp)
  have reads := bbReadBytes_aligned (bs.length - 4) (st := { preloaded bs with cursor := 4 }) rfl h
  simp only [preloaded, if_pos fits, whole] at reads
  exact ⟨_, reads⟩

theorem leadingInt_eq_toInt (bs : Bytes) :
    leadingInt bs = (wordOfBytes (bs.getD 0 0) (bs.getD 1 0) (bs.getD 2 0) (bs.getD 3 0)).toInt := by
  rw [leadingInt, asI32, BitVec.toInt_eq_toNat_cond]
  split <;> split <;> omega

theorem ibwt_of_lt {bs : Bytes} (h : bs.length < 4) : ibwt bs = .error .outOfData := by
  rw [ibwt, bbReadInt_preloaded_short h]

theorem ibwt_of_eq {bs : Bytes} (h : bs.length = 4) : ibwt bs = .ok [] := by
  simp [ibwt, bbReadInt_preloaded_of_le h.ge, h]

/-- With a table to follow, the start decides the answer. -/
theorem ibwt_of_gt {bs : Bytes} (h : 4 < bs.length) :
    ibwt bs =
      if leadingInt bs < 0 ∨ (bs.length : Int) - 4 ≤ leadingInt bs then .error .format
      else .ok (ibwtChase (ibwtSorted (bs.drop 4)) (bs.length - 4) (leadingInt bs).toNat) := by
  have rows : ((bs.length - 4 : Nat) : Int) = (bs.length : Int) - 4 := by omega
  obtain ⟨st, reads⟩ := bbReadBytes_after_header h.le
  simp only [ibwt, bbReadInt_preloaded_of_le h.le, reads, rows, flush_writeBytes_empty]
  rw [if_neg (by omega)]

/-- A start that passes the check of R159 is a row of the table. -/
theorem toNat_lt_drop_length {bs : Bytes} {start : Int} (nonneg : 0 ≤ start) (inside : start < (bs.length : Int) - 4) :
    start.toNat < (bs.drop 4).length := by
  rw [List.length_drop]
  omega

/-- Settles O48: the table is the model's own with its entries swapped, and the chain stays inside it. -/
theorem ibwtFollowsSortedTable : Obligations.IbwtFollowsSortedTable := by
  unfold Obligations.IbwtFollowsSortedTable
  intro a b s ready ha hb bs start
  have taken : Takes Config.params (.ibwt a b) s := takes_of_slotPair ready rfl ha hb
  have body : bodyOf (.ibwt a b) s = transformBody ibwt a b s := rfl
  have short : bs.length ≤ Config.MAX_LEN := slot_length_le ready hb
  have header : leadingInt bs = start := leadingInt_eq_toInt bs
  rw [exec_eq_execFor, ← faultStatus_outOfData, ← faultStatus_format]
  refine ⟨fun noHeader => ?outOfData, fun noTable => ?empty, fun hasTable outside => ?format,
    fun hasTable nonneg inside => ?chain⟩
  case outOfData => exact transform_faults taken body (ibwt_of_lt noHeader)
  case empty => exact transform_commits taken body (ibwt_of_eq noTable) (Nat.zero_le _)
  case format =>
    have answer := ibwt_of_gt hasTable
    rw [header, if_pos outside] at answer
    exact transform_faults taken body answer
  case chain =>
    have answer := ibwt_of_gt hasTable
    rw [header, if_neg (not_or.mpr ⟨nonneg.not_gt, inside.not_ge⟩)] at answer
    refine ⟨_, (ibwtSorted (bs.drop 4)).map Prod.swap, ibwtRow (ibwtSorted (bs.drop 4)) start.toNat,
      transform_commits taken body answer ?_, ibwtChase_length _ _ _, ibwtSorted_perm_zipIdx _,
      List.pairwise_map.mpr (ibwtSorted_pairwise _), ibwtRow_zero _ _,
      fun k hk => ibwtChase_step (toNat_lt_drop_length nonneg inside) hk⟩
    rw [ibwtChase_length]
    exact (Nat.sub_le _ _).trans short

end Sys2Proof.Proofs.InverseBwt
end

section
/-! Move-to-front, both ways (spec/43_mtf.md, sections 1 and 2). The list moves by the indices alone, which MTFD
reads and MTFE emits, so both commands are told by the decoder: decoding MTFE's output gives back its input. -/

namespace Sys2Proof.Proofs.MoveToFront

open Sys2Proof Sys2Proof.Machine Sys2Proof.Proofs.TakenCommands Sys2Proof.Proofs.TakenTransforms

/-! The recency list is a permutation of the 256 bytes: every byte is an entry and an index of it (43_mtf R180). -/

theorem mtfIdentity_length : mtfIdentity.length = 256 := by simp [mtfIdentity]

theorem mem_mtfIdentity (v : Byte) : v ∈ mtfIdentity := by
  have small : v.toNat < 256 := v.isLt
  exact List.mem_map.mpr ⟨v.toNat, List.mem_range.mpr small, by simp⟩

section
variable {arr : Bytes} (perm : arr.Perm mtfIdentity)
include perm

theorem toNat_lt_length (c : Byte) : c.toNat < arr.length := by
  rw [perm.length_eq, mtfIdentity_length]
  exact c.isLt

theorem idxOf_lt_length (v : Byte) : arr.idxOf v < arr.length :=
  List.idxOf_lt_length_of_mem (perm.mem_iff.mpr (mem_mtfIdentity v))

/-- The index of an entry fits a byte. -/
theorem toNat_ofNat_idxOf (v : Byte) : (BitVec.ofNat 8 (arr.idxOf v)).toNat = arr.idxOf v := by
  have small := idxOf_lt_length perm v
  rw [perm.length_eq, mtfIdentity_length] at small
  rw [BitVec.toNat_ofNat, Nat.mod_eq_of_lt small]

theorem getD_idxOf (v : Byte) : arr.getD (arr.idxOf v) 0 = v := by
  rw [List.getD_eq_getElem _ _ (idxOf_lt_length perm v), List.getElem_idxOf]

end

/-! The moves (43_mtf R183). -/

/-- A move takes the entry out of its place and puts it in front. -/
theorem mtfMove_perm {arr : Bytes} {c : Nat} (h : c < arr.length) : (mtfMove arr c).Perm arr := by
  rw [mtfMove, List.getD_eq_getElem _ _ h, ← List.eraseIdx_eq_take_drop_succ]
  exact List.getElem_cons_eraseIdx_perm h

/-- The recency list after the moves for the indices `cs`. -/
def mtfMoves (arr cs : Bytes) : Bytes := cs.foldl (fun list c => mtfMove list c.toNat) arr

theorem mtfMoves_take_succ (arr : Bytes) {cs : Bytes} {j : Nat} {c : Byte} (h : cs[j]? = some c) :
    mtfMoves arr (cs.take (j + 1)) = mtfMove (mtfMoves arr (cs.take j)) c.toNat := by
  simp [mtfMoves, List.take_add_one, h]

theorem mtfMoves_perm {arr : Bytes} (perm : arr.Perm mtfIdentity) (cs : Bytes) :
    (mtfMoves arr cs).Perm mtfIdentity := by
  induction cs generalizing arr with
  | nil => exact perm
  | cons c cs ih => exact ih ((mtfMove_perm (toNat_lt_length perm c)).trans perm)

/-! The decoder and the encoder (43_mtf R181, R182). -/

/-- The decoder emits the entries of the lists it goes through. -/
theorem mtfEntries_getElem? (arr : Bytes) {cs : Bytes} {j : Nat} {c : Byte} (h : cs[j]? = some c) :
    (mtfEntries arr cs)[j]? = some ((mtfMoves arr (cs.take j)).getD c.toNat 0) := by
  induction cs generalizing arr j with
  | nil => cases h
  | cons d cs ih =>
    cases j with
    | zero =>
      cases h
      rfl
    | succ j => exact ih (mtfMove arr d.toNat) h

/-- Decoding the emitted indices from the same list on gives the bytes back: both sides make the same moves. -/
theorem mtfEntries_mtfIndices {arr : Bytes} (perm : arr.Perm mtfIdentity) (x : Bytes) :
    mtfEntries arr (mtfIndices arr x) = x := by
  induction x generalizing arr with
  | nil => rfl
  | cons v vs ih =>
    have moved : (mtfMove arr (arr.idxOf v)).Perm mtfIdentity := (mtfMove_perm (idxOf_lt_length perm v)).trans perm
    rw [mtfIndices, mtfEntries, toNat_ofNat_idxOf perm, getD_idxOf perm, ih moved]

/-- One step of the decoder from the identity on: it emits the list's entry at the index, and that entry moves to
the front. -/
theorem mtfEntries_step {cs : Bytes} {j : Nat} {c : Byte} (h : cs[j]? = some c) :
    ∃ v, (mtfEntries mtfIdentity cs)[j]? = some v ∧ (mtfMoves mtfIdentity (cs.take j))[c.toNat]? = some v ∧
      (mtfMoves mtfIdentity (cs.take j)).Perm mtfIdentity ∧
      mtfMoves mtfIdentity (cs.take (j + 1)) = v :: ((mtfMoves mtfIdentity (cs.take j)).take c.toNat ++
        (mtfMoves mtfIdentity (cs.take j)).drop (c.toNat + 1)) := by
  have perm : (mtfMoves mtfIdentity (cs.take j)).Perm mtfIdentity := mtfMoves_perm (List.Perm.refl _) _
  have inList := toNat_lt_length perm c
  refine ⟨_, mtfEntries_getElem? _ h, ?entry, perm, mtfMoves_take_succ _ h⟩
  case entry => rw [List.getD_eq_getElem _ _ inList, List.getElem?_eq_getElem inList]

/-! The commands. -/

/-- A transform that refuses no input and keeps its length raises nothing: what a slot holds, the destination can
hold. -/
theorem exec_of_length_eq {i : Instr} {s : State} {a b : SlotNo} {f : Bytes → Bytes} (ready : s.Ready)
    (slots : i.slotFields = [a, b]) (ha : a.toNat < Config.NSLOT) (hb : b.toNat < Config.NSLOT)
    (body : bodyOf i s = transformBody (fun x => .ok (f x)) a b s)
    (length : (f (s.slot b.toNat).data).length = (s.slot b.toNat).data.length) :
    exec i s = .next (s.setSlot a.toNat (preloaded (f (s.slot b.toNat).data))) := by
  rw [exec_eq_execFor]
  exact transform_commits (takes_of_slotPair ready slots ha hb) body rfl
    (length.trans_le (slot_length_le ready hb))

/-- Settles O49: decoding the output gives the input back, so the list moves as the decoder of the output moves
it. -/
theorem mtfeEmitsListIndices : Obligations.MtfeEmitsListIndices := by
  unfold Obligations.MtfeEmitsListIndices
  intro a b s ready ha hb x
  have length : (mtfEncode x).length = x.length := by rw [mtfEncode_eq, mtfIndices_length]
  have decoded : mtfEntries mtfIdentity (mtfEncode x) = x := by
    rw [mtfEncode_eq, mtfEntries_mtfIndices (List.Perm.refl _)]
  refine ⟨mtfEncode x, fun j => mtfMoves mtfIdentity ((mtfEncode x).take j),
    exec_of_length_eq ready rfl ha hb rfl length, length, rfl, fun j v hv => ?_⟩
  obtain ⟨hj, -⟩ := List.getElem?_eq_some_iff.mp hv
  have hc := List.getElem?_eq_getElem (hj.trans_eq length.symm)
  obtain ⟨w, emitted, entry, perm, moved⟩ := mtfEntries_step hc
  obtain rfl : v = w := by rwa [decoded, hv, Option.some.injEq] at emitted
  exact ⟨_, hc, entry, perm, moved⟩

/-- Settles O50: the lists are the decoder's own. -/
theorem mtfdEmitsListEntries : Obligations.MtfdEmitsListEntries := by
  unfold Obligations.MtfdEmitsListEntries
  intro a b s ready ha hb y
  have length : (mtfDecode y).length = y.length := by rw [mtfDecode_eq, mtfEntries_length]
  refine ⟨mtfDecode y, fun j => mtfMoves mtfIdentity (y.take j),
    exec_of_length_eq ready rfl ha hb rfl length, length, rfl, fun j c hc => ?_⟩
  rw [mtfDecode_eq]
  exact mtfEntries_step hc

end Sys2Proof.Proofs.MoveToFront
end

section
/-! Run-length encoding (spec/45_rle.md, sections 1 and 2): the maximal runs of the input, the spans they make, and
the bytes of the blocks. -/

namespace Sys2Proof.Proofs.RunLengthEncode

open Sys2Proof Sys2Proof.Machine Sys2Proof.Proofs.TakenCommands Sys2Proof.Proofs.TakenTransforms

/-! The maximal runs (45_rle R241). -/

/-- No run goes on across position `p`: it is the start of the input, or its end, or two bytes differ there. -/
def RunBreak (x : Bytes) (p : Nat) : Prop := p = 0 ∨ x[p - 1]? ≠ x[p]?

/-- The groups are the runs of `x` from `p` to its end, in order; only the first may have begun before `p`. -/
inductive RunsFrom (x : Bytes) : Nat → List RleGroup → Prop
  | nil : RunsFrom x x.length []
  | cons {g : RleGroup} {gs : List RleGroup} (nonempty : 0 < g.len)
      (same : ∀ j, g.start ≤ j → j < g.start + g.len → x[j]? = some g.val)
      (stops : RunBreak x (g.start + g.len)) (rest : RunsFrom x (g.start + g.len) gs) : RunsFrom x g.start (g :: gs)

/-- A byte before the runs joins the first of them if it is equal, else it is a run of its own. -/
theorem rleGroups_cons_runsFrom {x vs : Bytes} {p : Nat} {v : Byte} (hv : x[p]? = some v)
    (runs : RunsFrom x (p + 1) (rleGroups (p + 1) vs)) : RunsFrom x p (rleGroups p (v :: vs)) := by
  have single (j : Nat) (lo : p ≤ j) (hi : j < p + 1) : x[j]? = some v := by
    obtain rfl : j = p := by omega
    exact hv
  rw [rleGroups]
  generalize rleGroups (p + 1) vs = groups at runs
  generalize start : p + 1 = q at runs
  cases runs with
  | nil =>
    have noByte : x[p + 1]? = none := List.getElem?_eq_none start.ge
    have atEnd : RunBreak x (p + 1) := .inr (by simp [hv, noByte])
    exact .cons (g := ⟨p, 1, v⟩) Nat.one_pos single atEnd (start ▸ .nil)
  | @cons g gs nonempty same stops rest =>
    by_cases joins : g.val = v
    · have longer : g.start + g.len = p + (g.len + 1) := by omega
      rw [longer] at stops rest
      simp only [if_pos joins]
      have extended (j : Nat) (lo : p ≤ j) (hi : j < p + (g.len + 1)) : x[j]? = some v := by
        obtain rfl | later := Nat.eq_or_lt_of_le lo
        · exact hv
        · exact joins ▸ same j (by omega) (by omega)
      exact .cons (g := ⟨p, g.len + 1, v⟩) (Nat.succ_pos _) extended stops rest
    · have first : x[p + 1]? = some g.val := start ▸ same _ le_rfl (by omega)
      have differs : RunBreak x (p + 1) := .inr (by simpa [hv, first] using Ne.symm joins)
      simp only [if_neg joins]
      exact .cons (g := ⟨p, 1, v⟩) Nat.one_pos single differs (start ▸ .cons nonempty same stops rest)

theorem rleGroups_runsFrom (seen vs : Bytes) :
    RunsFrom (seen ++ vs) seen.length (rleGroups seen.length vs) := by
  induction vs generalizing seen with
  | nil => simpa [rleGroups] using RunsFrom.nil (x := seen)
  | cons v vs ih => exact rleGroups_cons_runsFrom (by simp) (by simpa using ih (seen ++ [v]))

/-! The spans (45_rle R241, R242). -/

/-- The span is a maximal run of at least 3 equal bytes of `x`. -/
def IsRepeating (x : Bytes) (sp : RleSpan) : Prop :=
  3 ≤ sp.count ∧ ∃ v : Byte, (∀ j, sp.start ≤ j → j < sp.start + sp.count → x[j]? = some v) ∧
    (sp.start = 0 ∨ x[sp.start - 1]? ≠ some v) ∧ x[sp.start + sp.count]? ≠ some v

/-- The span is a nonempty stretch of `x` that holds no three equal bytes in a row. -/
def IsLiteral (x : Bytes) (sp : RleSpan) : Prop :=
  1 ≤ sp.count ∧ ∀ (v : Byte) (lo : Nat), sp.start ≤ lo → lo + 3 ≤ sp.start + sp.count →
    ¬∀ j, lo ≤ j → j < lo + 3 → x[j]? = some v

/-- The span is what its flag says. -/
def SpanOk (x : Bytes) (sp : RleSpan) : Prop :=
  (sp.rep = true → IsRepeating x sp) ∧ (sp.rep = false → IsLiteral x sp)

/-- The spans cover `x` from `p` to its end, in order, and no two literal ones are adjacent. -/
inductive SpansFrom (x : Bytes) : Nat → List RleSpan → Prop
  | nil : SpansFrom x x.length []
  | cons {sp : RleSpan} {sps : List RleSpan} (ok : SpanOk x sp)
      (apart : ∀ sq, sps[0]? = some sq → sp.rep = true ∨ sq.rep = true)
      (rest : SpansFrom x (sp.start + sp.count) sps) : SpansFrom x sp.start (sp :: sps)

theorem spanOk_repeating {x : Bytes} {p n : Nat} (h : IsRepeating x ⟨p, n, true⟩) : SpanOk x ⟨p, n, true⟩ :=
  ⟨fun _ => h, nofun⟩

theorem spanOk_literal {x : Bytes} {p n : Nat} (h : IsLiteral x ⟨p, n, false⟩) : SpanOk x ⟨p, n, false⟩ :=
  ⟨nofun, fun _ => h⟩

/-- A run of at least 3 bytes between two breaks is maximal. -/
theorem isRepeating_of_breaks {x : Bytes} {p n : Nat} {v : Byte} (long : 2 < n)
    (same : ∀ j, p ≤ j → j < p + n → x[j]? = some v) (starts : RunBreak x p) (stops : RunBreak x (p + n)) :
    IsRepeating x ⟨p, n, true⟩ := by
  have first : x[p]? = some v := same p le_rfl (by omega)
  have last : x[p + n - 1]? = some v := same (p + n - 1) (by omega) (by omega)
  refine ⟨long, v, same, starts.imp_right fun differ => first ▸ differ, fun goesOn => ?_⟩
  obtain zero | differ := stops
  · omega
  · exact differ (last.trans goesOn.symm)

theorem isLiteral_of_short {x : Bytes} {p n : Nat} (nonempty : 0 < n) (short : n ≤ 2) :
    IsLiteral x ⟨p, n, false⟩ := by
  refine ⟨nonempty, fun _ lo hlo hhi _ => ?_⟩
  simp only at hlo hhi
  omega

/-- A short run before a literal span makes a longer one: three bytes that begin in the run lie across its end,
where the bytes differ. -/
theorem isLiteral_of_short_append {x : Bytes} {p n : Nat} {sp : RleSpan} (nonempty : 0 < n) (short : n ≤ 2)
    (stops : RunBreak x (p + n)) (start : sp.start = p + n) (literal : IsLiteral x sp) :
    IsLiteral x ⟨p, n + sp.count, false⟩ := by
  obtain ⟨-, noRun⟩ := literal
  refine ⟨by simp only; omega, fun v lo hlo hhi equal => ?_⟩
  simp only at hlo hhi
  by_cases inSpan : p + n ≤ lo
  · exact noRun v lo (by omega) (by omega) equal
  · obtain zero | differ := stops
    · omega
    · exact differ ((equal _ (by omega) (by omega)).trans (equal _ (by omega) (by omega)).symm)

/-- The groups of an input make its spans. -/
theorem rleSpans_spansFrom {x : Bytes} {p : Nat} {gs : List RleGroup} (runs : RunsFrom x p gs)
    (starts : RunBreak x p) : SpansFrom x p (rleSpans gs) := by
  induction runs with
  | nil => exact .nil
  | @cons g gs nonempty same stops rest ih =>
    have spans := ih stops
    rw [rleSpans]
    by_cases long : 2 < g.len
    · rw [if_pos long]
      exact .cons (sp := ⟨g.start, g.len, true⟩) (spanOk_repeating (isRepeating_of_breaks long same starts stops))
        (fun _ _ => .inl rfl) spans
    · have short : g.len ≤ 2 := Nat.le_of_not_lt long
      have alone : SpanOk x ⟨g.start, g.len, false⟩ := spanOk_literal (isLiteral_of_short nonempty short)
      rw [if_neg long]
      generalize rleSpans gs = sps at spans
      generalize start : g.start + g.len = q at spans
      cases spans with
      | nil => exact .cons (sp := ⟨g.start, g.len, false⟩) alone nofun (start ▸ .nil)
      | @cons sp sps ok apart rest =>
        cases flag : sp.rep with
        | true =>
          simp only [flag, if_true]
          refine .cons (sp := ⟨g.start, g.len, false⟩) alone (fun sq hsq => .inr ?_) (start ▸ .cons ok apart rest)
          cases hsq
          exact flag
        | false =>
          have merged := isLiteral_of_short_append nonempty short stops start.symm (ok.2 flag)
          have sameEnd : sp.start + sp.count = g.start + (g.len + sp.count) := by omega
          simp only [flag, Bool.false_eq_true, if_false]
          exact .cons (sp := ⟨g.start, g.len + sp.count, false⟩) (spanOk_literal merged)
            (fun sq hsq => by simpa [flag] using apart sq hsq) (sameEnd ▸ rest)

/-- The spans that the encoder cuts its input into. -/
theorem rleSpans_rleGroups (x : Bytes) : SpansFrom x 0 (rleSpans (rleGroups 0 x)) :=
  rleSpans_spansFrom (rleGroups_runsFrom [] x) (.inl rfl)

namespace SpansFrom

variable {x : Bytes} {p : Nat} {spans : List RleSpan}

theorem sum_count (h : SpansFrom x p spans) : p + (spans.map fun sp => sp.count).sum = x.length := by
  induction h with
  | nil => rfl
  | cons ok apart rest ih => rw [List.map_cons, List.sum_cons, ← Nat.add_assoc, ih]

theorem start_eq (h : SpansFrom x p spans) {k : Nat} {sp : RleSpan} (hk : spans[k]? = some sp) :
    sp.start = p + ((spans.take k).map fun sq => sq.count).sum := by
  induction h generalizing k with
  | nil => cases hk
  | cons ok apart rest ih =>
    cases k with
    | zero =>
      cases hk
      rfl
    | succ k => rw [ih hk, List.take_succ_cons, List.map_cons, List.sum_cons, Nat.add_assoc]

theorem no_adjacent_literals (h : SpansFrom x p spans) {k : Nat} {sp sq : RleSpan} (hsp : spans[k]? = some sp)
    (hsq : spans[k + 1]? = some sq) : sp.rep = true ∨ sq.rep = true := by
  induction h generalizing k with
  | nil => cases hsp
  | cons ok apart rest ih =>
    cases k with
    | zero =>
      cases hsp
      exact apart sq hsq
    | succ k => exact ih hsp hsq

theorem spanOk (h : SpansFrom x p spans) {sp : RleSpan} (mem : sp ∈ spans) : SpanOk x sp := by
  induction h with
  | nil => cases mem
  | cons ok apart rest ih =>
    obtain rfl | mem := List.mem_cons.mp mem
    · exact ok
    · exact ih mem

theorem end_le_length (h : SpansFrom x p spans) {sp : RleSpan} (mem : sp ∈ spans) :
    sp.start + sp.count ≤ x.length := by
  induction h with
  | nil => cases mem
  | cons ok apart rest ih =>
    obtain rfl | mem := List.mem_cons.mp mem
    · exact rest.sum_count ▸ Nat.le_add_right _ _
    · exact ih mem

end SpansFrom

/-! The bytes of a block (45_rle R240, R244). -/

/-- The header of a block of `c` bytes. -/
def headerBytes (c : Nat) (rep : Bool) : Bytes :=
  if c ≤ 63 then [BitVec.ofNat 8 ((if rep then 128 else 0) + c)]
  else [BitVec.ofNat 8 ((if rep then 128 else 0) + 64 + c / 256), BitVec.ofNat 8 c]

/-- The bytes a block becomes. -/
def blockBytes (x : Bytes) (blk : RleSpan) : Bytes :=
  headerBytes blk.count blk.rep ++
    if blk.rep then [x.getD blk.start 0] else (x.drop blk.start).take blk.count

theorem bbWriteBytes_append (out : BitBuffer) (us vs : Bytes) :
    bbWriteBytes out (us ++ vs) = bbWriteBytes (bbWriteBytes out us) vs :=
  List.foldl_append

theorem rleHeader_eq (out : BitBuffer) (c : Nat) (rep : Bool) :
    rleHeader out c rep = bbWriteBytes out (headerBytes c rep) := by
  have lowByte : BitVec.ofNat 8 (c % 256) = BitVec.ofNat 8 c := BitVec.eq_of_toNat_eq (by simp)
  rw [rleHeader, headerBytes, lowByte]
  split <;> rfl

/-- The literal bytes of a block inside the input are a stretch of it. -/
theorem literal_eq_take_drop {x : Bytes} {start count : Nat} (inside : start + count ≤ x.length) :
    ((List.range count).map fun k => x.getD (start + k) 0) = (x.drop start).take count := by
  refine List.ext_getElem (by simp; omega) fun k hk _ => ?_
  have inInput : start + k < x.length := by
    simp only [List.length_map, List.length_range] at hk
    omega
  simp [inInput]

theorem rleEmit_eq {x : Bytes} {blk : RleSpan} (out : BitBuffer) (inside : blk.start + blk.count ≤ x.length) :
    rleEmit x out blk = bbWriteBytes out (blockBytes x blk) := by
  rw [rleEmit, blockBytes, bbWriteBytes_append, rleHeader_eq, literal_eq_take_drop inside]
  split <;> rfl

/-- The blocks are written one after the other. -/
theorem foldl_rleEmit {x : Bytes} {blks : List RleSpan} (out : BitBuffer)
    (inside : ∀ blk ∈ blks, blk.start + blk.count ≤ x.length) :
    blks.foldl (rleEmit x) out = bbWriteBytes out (blks.flatMap (blockBytes x)) := by
  induction blks generalizing out with
  | nil => rfl
  | cons blk blks ih =>
    obtain ⟨first, rest⟩ := List.forall_mem_cons.mp inside
    rw [List.foldl_cons, rleEmit_eq out first, ih _ rest, List.flatMap_cons, bbWriteBytes_append]

/-! The encoder (45_rle R243, R244). -/

/-- No block reaches past the end of the span it is cut from. -/
theorem end_le_of_mem_rleSplit {sp blk : RleSpan} (h : blk ∈ rleSplit sp) :
    blk.start + blk.count ≤ sp.start + sp.count := by
  obtain ⟨k, hk, rfl⟩ := List.mem_map.mp h
  simp only [List.mem_range, rleMaxBlock] at hk ⊢
  omega

theorem block_inside {x : Bytes} {blk : RleSpan} (h : blk ∈ rleBlocks x) : blk.start + blk.count ≤ x.length := by
  obtain ⟨sp, hsp, hblk⟩ := List.mem_flatMap.mp h
  exact (end_le_of_mem_rleSplit hblk).trans ((rleSpans_rleGroups x).end_le_length hsp)

/-- The output is the bytes of the blocks, in order. -/
theorem rleEncode_eq (x : Bytes) : rleEncode x = (rleBlocks x).flatMap (blockBytes x) := by
  rw [rleEncode, foldl_rleEmit _ fun _ => block_inside, flush_writeBytes_empty]

/-- The output, a span at a time. -/
theorem rleEncode_eq_spans (x : Bytes) :
    rleEncode x = (rleSpans (rleGroups 0 x)).flatMap fun sp =>
      (List.range ((sp.count + 16382) / 16383)).flatMap fun k =>
        blockBytes x ⟨sp.start + 16383 * k, min 16383 (sp.count - 16383 * k), sp.rep⟩ := by
  simp only [rleEncode_eq, rleBlocks, List.flatMap_assoc, rleSplit, List.flatMap_map, rleMaxBlock]

/-- Settles O54: the spans are the model's own. -/
theorem rleeWritesMaximalBlocks : Obligations.RleeWritesMaximalBlocks := by
  unfold Obligations.RleeWritesMaximalBlocks
  intro a b s ready ha hb x block blocks
  have taken : Takes Config.params (.rlee a b) s := takes_of_slotPair ready rfl ha hb
  have body : bodyOf (.rlee a b) s = transformBody (fun x => .ok (rleEncode x)) a b s := rfl
  have cut := rleSpans_rleGroups x
  have output : rleEncode x = (rleSpans (rleGroups 0 x)).flatMap blocks := rleEncode_eq_spans x
  refine ⟨rleSpans (rleGroups 0 x), by simpa using cut.sum_count, fun k sp hk => by simpa using cut.start_eq hk,
    fun k sp sq => cut.no_adjacent_literals, fun sp mem => (cut.spanOk mem).1, fun sp mem => (cut.spanOk mem).2, ?_⟩
  rw [exec_eq_execFor, ← faultStatus_capacity, ← output]
  split
  case isTrue fits => exact transform_commits taken body rfl fits
  case isFalse tooLong => exact transform_faults_capacity taken body ha rfl (Nat.lt_of_not_le tooLong)

end Sys2Proof.Proofs.RunLengthEncode
end

section
/-! The fault record (spec/60_exceptions.md): what a core with a fault recorded does, how a command records one, and
how CLRF clears it. -/

namespace Sys2Proof.Proofs.FaultRecord

open Sys2Proof Sys2Proof.Machine

/-! A core with a fault recorded (60_exceptions R272). -/

/-- A command other than CLRF is discarded while a fault is recorded. -/
theorem execFor_of_faulted (p : Params) {i : Instr} {s : State} (notClrf : i ≠ .clrf) (faulted : s.faulted = true) :
    execFor p i s = .next s := by
  rw [execFor_eq_runCommand p i notClrf]
  exact runCommand_faulted faulted

/-- Every word but a legal CLRF is discarded while a fault is recorded, legal or not; the command index counts it. -/
theorem issue_of_faulted {p : Params} {w : Word64} {s : State} (faulted : s.faulted = true)
    (notClrf : decode w p ≠ some .clrf) : issue w s p = .next { s with issued := s.issued + 1 } := by
  obtain ⟨i, legal, runs⟩ | ⟨-, -, discards⟩ | ⟨-, unfaulted, -⟩ := issue_cases p w s
  · have iNotClrf : i ≠ .clrf := by
      rintro rfl
      exact notClrf legal
    rw [runs]
    exact execFor_of_faulted p iNotClrf faulted
  · exact discards
  · exact absurd (faulted.symm.trans unfaulted) (by decide)

theorem step_issue_of_faulted {s : State} {w : Word64} {rest : List HostAction} (hq : s.NextIsIssue w rest)
    (faulted : s.faulted = true) (notClrf : decode w ≠ some .clrf) : step s = .next (s.issuing rest) := by
  have stepIssues : step s = issue w { s with hostQueue := rest } := step_cons hq
  rw [stepIssues]
  exact issue_of_faulted faulted notClrf

/-- HOST_READ of a slot of the core is answered (20_memory R55). -/
theorem hostRead_of_inContract (p : Params) (s : State) {a : Nat} (ha : a < p.nslot) :
    hostRead a s p = .next { s with hostReply := .bytes (s.slot a).data } :=
  if_pos ha

/-- The parts of STATUS and FCMD's legal values (10_state R27, R28; 60_exceptions R270, R280). -/
theorem statusOk_iff {s : State} : s.statusOk = true ↔
    statusReserved s.status = 0 ∧ (statusFcode s.status).toNat ≤ 5 ∧
      (statusFcode s.status = 0 ↔ s.faulted = false) ∧ (s.faulted = false → s.fcmd = 0) := by
  cases faulted : s.faulted <;> simp [State.statusOk, faulted, and_assoc]

/-- A STATUS with no reserved bit set is the bits of it that READREG returns (10_state R27). -/
theorem readBits_of_reserved {v : Word32} (reserved : statusReserved v = 0) : v &&& 0x0000FF01 = v :=
  calc v &&& 0x0000FF01
    _ = statusReserved v ||| (v &&& 0x0000FF01) := by rw [reserved]; exact BitVec.zero_or.symm
    _ = v &&& (0xFFFF00FE ||| 0x0000FF01) := BitVec.and_or_distrib_left.symm
    _ = v := BitVec.and_allOnes

/-- The bits that READREG returns are FAULT and those of FCODE (10_state R27). -/
theorem readMask_bits : ∀ k < 32, (0x0000FF01 : Word32).getLsbD k = true → k = 0 ∨ 8 ≤ k ∧ k - 8 < 8 := by
  decide

/-- STATUS is 0 when its reserved bits, FCODE and FAULT are (10_state R27). -/
theorem status_eq_zero {v : Word32} (reserved : statusReserved v = 0) (fcode : statusFcode v = 0)
    (fault : statusFault v = false) : v = 0 := by
  have readBits : v = v &&& 0x0000FF01 := (readBits_of_reserved reserved).symm
  refine BitVec.eq_of_getLsbD_eq fun k hk => (Bool.eq_false_iff.mpr fun isSet => ?_).trans BitVec.getLsbD_zero.symm
  have masked : (v &&& 0x0000FF01).getLsbD k = true := readBits ▸ isSet
  rw [BitVec.getLsbD_and, Bool.and_eq_true] at masked
  obtain ⟨-, inMask⟩ := masked
  obtain rfl | ⟨low, high⟩ := readMask_bits k hk inMask
  · exact absurd (fault.symm.trans isSet) (by decide)
  · have bit : (statusFcode v).getLsbD (k - 8) = true := by
      rw [statusFcode, BitVec.getLsbD_extractLsb', Nat.add_sub_cancel' low]
      simp [high, isSet]
    simp [fcode] at bit

/-- READREG of STATUS returns its value: the reserved bits, which it reads as 0, are 0 (10_state R27). -/
theorem regValue_status_of_inv {p : Params} {s : State} (inv : s.Inv p) : regValue .status s = .word s.status := by
  obtain ⟨-, -, legal⟩ := inv
  obtain ⟨reserved, -⟩ := statusOk_iff.mp legal
  exact congrArg HostReply.word (readBits_of_reserved reserved)

/-- Settles O9: the record decides an ISSUE only; the host's accesses do not read it. -/
theorem faultedCoreDiscardsCommands : Obligations.FaultedCoreDiscardsCommands := by
  unfold Obligations.FaultedCoreDiscardsCommands
  intro s rest faulted
  refine ⟨fun w hq notClrf => step_issue_of_faulted hq faulted notClrf, fun a bs hq ha hb => ?load,
    fun a hq ha => ?read, fun r hq inv => ?readReg⟩
  case load =>
    obtain ⟨loads, -⟩ := HostLoad.hostLoadReplacesSlot s a bs rest hq
    exact loads ha hb
  case read =>
    have stepReads : step s = hostRead a { s with hostQueue := rest } := step_cons hq
    rw [stepReads]
    exact hostRead_of_inContract Config.params _ ha
  case readReg =>
    have stepReads : step s = .next { s with hostQueue := rest, hostReply := regValue r s } := step_cons hq
    cases r with
    | res | fcmd => exact stepReads
    | status => rw [stepReads, regValue_status_of_inv inv]

/-! Fault entry (60_exceptions R271). -/

/-- A legal word is its command's word: FCMD receives the word that was issued (30_encoding R84). -/
theorem encode_of_decode {w : Word64} {p : Params} {i : Instr} (legal : decode w p = some i) : encode i = w := by
  obtain ⟨selected, -⟩ := decode_eq_some.mp legal
  rw [encode, IllegalWords.encodeFields_of_decodeFields selected, wordOf_fieldsOf]

/-- A command that ends with a fault recorded, where none was before, has done a fault entry and nothing else: CLRF
leaves no fault, and a committed body leaves STATUS alone. -/
theorem eq_takeFault_of_execFor {p : Params} {i : Instr} {s t : State} (unfaulted : s.faulted = false)
    (runs : execFor p i s = .next t) (faulted : t.faulted = true) : ∃ x, t = takeFault x (encode i) s := by
  by_cases clrf : i = .clrf
  · subst clrf
    cases runs
    simp at faulted
  · rw [execFor_eq_runCommand p i clrf] at runs
    cases runCommand_does runs with
    | discarded already => exact absurd (already.symm.trans unfaulted) (by decide)
    | illegal => exact ⟨_, rfl⟩
    | faults x => exact ⟨x, rfl⟩
    | tooLong => exact ⟨_, rfl⟩
    | commits _ _ _ answers _ =>
      have status : t.status = s.status := (bodyOf_frame clrf answers).1.status
      have same : t.faulted = s.faulted := congrArg statusFault status
      exact absurd (same.symm.trans faulted) (by simp [unfaulted])

/-- Settles O19: a word that records a fault is legal, and its command enters the fault with the word in FCMD, or it
is illegal, and ISSUE does. -/
theorem faultEntryIsPrecise : Obligations.FaultEntryIsPrecise := by
  unfold Obligations.FaultEntryIsPrecise
  intro s t w rest hq unfaulted stepNext faulted
  have stepIssues : step s = issue w { s with hostQueue := rest } := step_cons hq
  rw [stepIssues] at stepNext
  obtain ⟨i, legal, runs⟩ | ⟨-, already, -⟩ | ⟨-, -, enters⟩ :=
    issue_cases Config.params w { s with hostQueue := rest }
  · rw [runs] at stepNext
    obtain ⟨x, rfl⟩ := eq_takeFault_of_execFor (s := s.issuing rest) unfaulted stepNext faulted
    exact ⟨x, by rw [encode_of_decode legal]; rfl⟩
  · exact absurd (already.symm.trans unfaulted) (by decide)
  · rw [enters] at stepNext
    cases stepNext
    exact ⟨.illegal, rfl⟩

/-! An idle core (60_exceptions R288). -/

theorem stepFor_of_no_action (p : Params) {s : State} (idle : s.hostQueue = []) : stepFor p s = .next s := by
  have noAction : nextAction s = none := by simp [nextAction, idle]
  simp [stepFor, noAction]

/-- Settles O15, from the idle step for every value of the parameters. -/
theorem idleCoreKeepsState : Obligations.IdleCoreKeepsState := by
  unfold Obligations.IdleCoreKeepsState
  exact fun s idle => stepFor_of_no_action Config.params idle

/-! Fault return (60_exceptions R280). -/

/-- With no fault recorded there is nothing to clear: STATUS and FCMD are 0 already (10_state R27, R28). -/
theorem clearFault_of_ready {p : Params} {s : State} (ready : s.Ready p) : clearFault s = s := by
  obtain ⟨⟨-, -, legal⟩, unfaulted⟩ := ready
  obtain ⟨reserved, -, noCode, noWord⟩ := statusOk_iff.mp legal
  have status : s.status = 0 := status_eq_zero reserved (noCode.mpr unfaulted) unfaulted
  have fcmd : s.fcmd = 0 := noWord unfaulted
  rw [clearFault, ← status, ← fcmd]

/-- The only legal word with CLRF's opcode is CLRF's own (30_encoding R83, R84). -/
theorem decode_eq_none_of_clrfOpcode {w : Word64} {p : Params} (op : (fieldsOf w).op = 0xF0) (other : w ≠ 0xF0) :
    decode w p = none := by
  refine IllegalWords.decode_eq_none_of_fields fun i _ hf => ?_
  cases i with
  | clrf => exact other (fieldsOf_inj hf)
  | _ => simp [hf, encodeFields] at op

/-- Settles O21: a CLRF word with another field set is an illegal word. -/
theorem clrfClearsTheFaultRecord : Obligations.ClrfClearsTheFaultRecord := by
  unfold Obligations.ClrfClearsTheFaultRecord
  refine ⟨exec_clrf, fun s ready => ?ready, fun s w rest hq op other => ?malformed⟩
  case ready => rw [exec_clrf, clearFault_of_ready ready]
  case malformed =>
    have illegal : decode w = none := decode_eq_none_of_clrfOpcode op other
    have notClrf : decode w ≠ some .clrf := by simp [illegal]
    exact ⟨fun faulted => step_issue_of_faulted hq faulted notClrf,
      fun unfaulted => IllegalWords.illegalWordOnlyRecordsFault s w rest hq unfaulted illegal⟩

end Sys2Proof.Proofs.FaultRecord
end

section
/-! The encoding of the commands (spec/30_encoding.md, sections 1 to 3): the decoder and the encoder undo each
other, and the rows of the opcode table are the rows that both follow. -/

namespace Sys2Proof.Proofs.Encoding

open Sys2Proof Sys2Proof.Machine

/-- Settles O1: the fields of a command select it, and a word has the fields it was made of. -/
theorem decodeOfEncodeIsIdentity : Obligations.DecodeOfEncodeIsIdentity := by
  unfold Obligations.DecodeOfEncodeIsIdentity
  intro p i legal
  exact decode_encode_of_fields (IllegalWords.decodeFields_encodeFields i) legal

/-- Settles O2: each arm of the decoder fixes all six fields of the word. -/
theorem encodeOfDecodeIsIdentity : Obligations.EncodeOfDecodeIsIdentity := by
  unfold Obligations.EncodeOfDecodeIsIdentity
  intro p w i decoded
  obtain ⟨-, legal⟩ := decode_eq_some.mp decoded
  exact ⟨legal, FaultRecord.encode_of_decode decoded⟩

/-- Settles O6: each of the words, decoded. -/
theorem listedWordsDecodeAsListed : Obligations.ListedWordsDecodeAsListed := by
  unfold Obligations.ListedWordsDecodeAsListed
  decide

/-! The opcode table (30_encoding R83, R87). -/

/-- The row of the opcode table that a command belongs to. -/
def rowOf : Instr → OpcodeRow
  | .new _ => rowSA "NEW" 0x01
  | .wrbit _ _ => ⟨"WRBIT", 0x02, 0xFFFFFFFFFFFEF0FF⟩
  | .wrbyte _ _ => ⟨"WRBYTE", 0x03, 0xFFFFFFFFFF00F0FF⟩
  | .wrbytes _ _ => rowSASB "WRBYTES" 0x04
  | .wrint _ _ => rowSAOpnd "WRINT" 0x05
  | .flush _ => rowSA "FLUSH" 0x06
  | .rdbit _ => rowSA "RDBIT" 0x07
  | .rdbyte _ => rowSA "RDBYTE" 0x08
  | .rdint _ => rowSA "RDINT" 0x09
  | .rstpos _ => rowSA "RSTPOS" 0x0A
  | .eod _ => rowSA "EOD" 0x0B
  | .getb _ _ => rowSAOpnd "GETB" 0x0C
  | .setb _ _ _ => ⟨"SETB", 0x0D, 0x00000000FF00F0FF⟩
  | .len _ => rowSA "LEN" 0x0E
  | .bwt _ _ => rowSASB "BWT" 0x10
  | .ibwt _ _ => rowSASB "IBWT" 0x11
  | .mtfe _ _ => rowSASB "MTFE" 0x20
  | .mtfd _ _ => rowSASB "MTFD" 0x21
  | .hufc _ _ => rowSASB "HUFC" 0x30
  | .hufx _ _ => rowSASB "HUFX" 0x31
  | .rlee _ _ => rowSASB "RLEE" 0x40
  | .rled _ _ => rowSASB "RLED" 0x41
  | .clrf => ⟨"CLRF", 0xF0, 0xFFFFFFFFFFFFFFFF⟩

theorem rowOf_mem (i : Instr) : rowOf i ∈ opcodeRows := by
  cases i <;> simp [rowOf, opcodeRows]

/-- Every row is the row of some command. -/
theorem exists_rowOf {r : OpcodeRow} (h : r ∈ opcodeRows) : ∃ i, rowOf i = r := by
  have rows : opcodeRows = [Instr.new 0, .wrbit 0 false, .wrbyte 0 0, .wrbytes 0 0, .wrint 0 0, .flush 0, .rdbit 0,
    .rdbyte 0, .rdint 0, .rstpos 0, .eod 0, .getb 0 0, .setb 0 0 0, .len 0, .bwt 0 0, .ibwt 0 0, .mtfe 0 0,
    .mtfd 0 0, .hufc 0 0, .hufx 0 0, .rlee 0 0, .rled 0 0, .clrf].map rowOf := rfl
  rw [rows] at h
  obtain ⟨i, -, hi⟩ := List.mem_map.mp h
  exact ⟨i, hi⟩

theorem rowOf_mnemonic (i : Instr) : (rowOf i).mnemonic = i.mnemonic := by
  cases i <;> rfl

/-- The fields of a row's mask: 0 for a field that the row's commands carry, else ones; WRBIT carries one bit of
IMM8 (30_encoding R83, R87). -/
def maskFields : Instr → Fields
  | .wrbit _ _ => ⟨0xFF, 0, 0xF, 0xFE, 0xFF, 0xFFFFFFFF⟩
  | .wrbyte _ _ => ⟨0xFF, 0, 0xF, 0, 0xFF, 0xFFFFFFFF⟩
  | .wrint _ _ | .getb _ _ => ⟨0xFF, 0, 0xF, 0xFF, 0xFF, 0⟩
  | .setb _ _ _ => ⟨0xFF, 0, 0xF, 0, 0xFF, 0⟩
  | .new _ | .flush _ | .rdbit _ | .rdbyte _ | .rdint _ | .rstpos _ | .eod _ | .len _ =>
    ⟨0xFF, 0, 0xF, 0xFF, 0xFF, 0xFFFFFFFF⟩
  | .wrbytes _ _ | .bwt _ _ | .ibwt _ _ | .mtfe _ _ | .mtfd _ _ | .hufc _ _ | .hufx _ _ | .rlee _ _ | .rled _ _ =>
    ⟨0xFF, 0, 0, 0xFF, 0xFF, 0xFFFFFFFF⟩
  | .clrf => ⟨0xFF, 0xF, 0xF, 0xFF, 0xFF, 0xFFFFFFFF⟩

theorem fieldsOf_rowOf_mask (i : Instr) : fieldsOf (rowOf i).mask = maskFields i := by
  cases i <;> simp only [rowOf, rowSA, rowSASB, rowSAOpnd, maskFields] <;> decide

theorem fieldsOf_rowOf_pattern (i : Instr) :
    fieldsOf (rowOf i).pattern = ⟨(encodeFields i).op, 0, 0, 0, 0, 0⟩ := by
  cases i <;> simp only [rowOf, rowSA, rowSASB, rowSAOpnd, encodeFields] <;> decide

/-- The slot fields that a row's mask leaves free are those the row's commands use (30_encoding R83, R88). -/
theorem wellFormed_iff_mask {i : Instr} {p : Params} :
    i.wellFormed p = true ↔
      ((rowOf i).mask.extractLsb' 8 4 = 0 → (encodeFields i).sa.toNat < p.nslot) ∧
      ((rowOf i).mask.extractLsb' 12 4 = 0 → (encodeFields i).sb.toNat < p.nslot) := by
  have sa : (rowOf i).mask.extractLsb' 8 4 = (maskFields i).sa := congrArg Fields.sa (fieldsOf_rowOf_mask i)
  have sb : (rowOf i).mask.extractLsb' 12 4 = (maskFields i).sb := congrArg Fields.sb (fieldsOf_rowOf_mask i)
  rw [TakenCommands.wellFormed_iff, sa, sb]
  cases i <;> simp [Instr.slotFields, maskFields, encodeFields]

/-- The fields of a masked word are the masked fields (30_encoding R81). -/
theorem fieldsOf_and (w m : Word64) :
    fieldsOf (w &&& m) =
      ⟨(fieldsOf w).op &&& (fieldsOf m).op, (fieldsOf w).sa &&& (fieldsOf m).sa, (fieldsOf w).sb &&& (fieldsOf m).sb,
        (fieldsOf w).imm8 &&& (fieldsOf m).imm8, (fieldsOf w).rsv &&& (fieldsOf m).rsv,
        (fieldsOf w).opnd &&& (fieldsOf m).opnd⟩ := by
  simp [fieldsOf, BitVec.extractLsb'_and]

/-- A word matches the row of a command when the fields that the row fixes are the command's: OP is, and the others
are 0 (30_encoding R84, R87). -/
theorem isMatch_rowOf_iff (i : Instr) (w : Word64) :
    (rowOf i).isMatch w = true ↔
      (fieldsOf w).op = (encodeFields i).op ∧ (fieldsOf w).sa &&& (maskFields i).sa = 0 ∧
      (fieldsOf w).sb &&& (maskFields i).sb = 0 ∧ (fieldsOf w).imm8 &&& (maskFields i).imm8 = 0 ∧
      (fieldsOf w).rsv = 0 ∧ (fieldsOf w).opnd &&& (maskFields i).opnd = 0 := by
  have ones (v : Byte) : v &&& 0xFF = v := BitVec.and_allOnes
  have op : (maskFields i).op = 0xFF := by cases i <;> rfl
  have rsv : (maskFields i).rsv = 0xFF := by cases i <;> rfl
  have byFields : (rowOf i).isMatch w = true ↔
      fieldsOf (w &&& (rowOf i).mask) = fieldsOf (rowOf i).pattern := by
    rw [OpcodeRow.isMatch, beq_iff_eq]
    exact ⟨congrArg fieldsOf, fieldsOf_inj⟩
  rw [byFields, fieldsOf_and, fieldsOf_rowOf_mask, fieldsOf_rowOf_pattern, Fields.mk.injEq, op, rsv, ones, ones]

/-- The word of a command matches the command's row. -/
theorem isMatch_rowOf {i : Instr} {w : Word64} (h : fieldsOf w = encodeFields i) : (rowOf i).isMatch w = true := by
  rw [isMatch_rowOf_iff, h]
  cases i with
  | wrbit a bit => cases bit <;> simp [encodeFields, maskFields]
  | _ => simp [encodeFields, maskFields]

/-- A byte with no bit but bit 0 is 0 or 1. -/
theorem eq_zero_or_one_of_mask {v : Byte} (h : v &&& 0xFE = 0) : v = 0 ∨ v = 1 := by
  revert v
  decide

/-- A word that matches a row is the word of a command of that row: the fields that the row leaves free are
operands of its commands, and it fixes all others. -/
theorem decodeFields_of_isMatch {i : Instr} {w : Word64} (h : (rowOf i).isMatch w = true) :
    ∃ j, decodeFields (fieldsOf w) = some j ∧ rowOf j = rowOf i := by
  have ones4 (v : SlotNo) : v &&& 0xF = v := BitVec.and_allOnes
  have ones8 (v : Byte) : v &&& 0xFF = v := BitVec.and_allOnes
  have ones32 (v : Word32) : v &&& 0xFFFFFFFF = v := BitVec.and_allOnes
  rw [isMatch_rowOf_iff] at h
  generalize fieldsOf w = f at h ⊢
  obtain ⟨op, sa, sb, imm8, rsv, opnd⟩ := f
  cases i <;> simp only [maskFields, encodeFields, ones4, ones8, ones32] at h
  case wrbit =>
    obtain ⟨rfl, -, rfl, bit, rfl, rfl⟩ := h
    obtain rfl | rfl := eq_zero_or_one_of_mask bit <;> exact ⟨_, rfl, rfl⟩
  case wrbyte =>
    obtain ⟨rfl, -, rfl, -, rfl, rfl⟩ := h
    exact ⟨_, rfl, rfl⟩
  case setb =>
    obtain ⟨rfl, -, rfl, -, rfl, -⟩ := h
    exact ⟨_, rfl, rfl⟩
  case wrint | getb =>
    obtain ⟨rfl, -, rfl, rfl, rfl, -⟩ := h
    exact ⟨_, rfl, rfl⟩
  case new | flush | rdbit | rdbyte | rdint | rstpos | eod | len =>
    obtain ⟨rfl, -, rfl, rfl, rfl, rfl⟩ := h
    exact ⟨_, rfl, rfl⟩
  case wrbytes | bwt | ibwt | mtfe | mtfd | hufc | hufx | rlee | rled =>
    obtain ⟨rfl, -, -, rfl, rfl, rfl⟩ := h
    exact ⟨_, rfl, rfl⟩
  case clrf =>
    obtain ⟨rfl, rfl, rfl, rfl, rfl, rfl⟩ := h
    exact ⟨_, rfl, rfl⟩

/-- The rows' opcodes are distinct, and a row fixes all of OP, so no word matches two rows. -/
theorem rowOf_eq_of_isMatch {i j : Instr} {w : Word64} (hi : (rowOf i).isMatch w = true)
    (hj : (rowOf j).isMatch w = true) : rowOf i = rowOf j := by
  obtain ⟨opi, -⟩ := (isMatch_rowOf_iff i w).mp hi
  obtain ⟨opj, -⟩ := (isMatch_rowOf_iff j w).mp hj
  have sameOp : (encodeFields i).op = (encodeFields j).op := opi.symm.trans opj
  have samePattern : (rowOf i).pattern = (rowOf j).pattern :=
    fieldsOf_inj (by rw [fieldsOf_rowOf_pattern, fieldsOf_rowOf_pattern, sameOp])
  have distinct : (opcodeRows.map OpcodeRow.pattern).Nodup := by decide
  exact List.inj_on_of_nodup_map distinct (rowOf_mem i) (rowOf_mem j) samePattern

/-- Settles O3: a word decodes to a command exactly when it is the command's word, which matches the command's row. -/
theorem decodeFollowsOpcodeTable : Obligations.DecodeFollowsOpcodeTable := by
  unfold Obligations.DecodeFollowsOpcodeTable
  refine ⟨fun p w i decoded => ?_, fun p w r hr isMatch sa sb => ?_, fun w r r' hr hr' isMatch isMatch' => ?_,
    fun r hr => ?_⟩
  · obtain ⟨selected, legal⟩ := decode_eq_some.mp decoded
    have fields := (IllegalWords.encodeFields_of_decodeFields selected).symm
    obtain ⟨sa, sb⟩ := wellFormed_iff_mask.mp legal
    rw [← fields] at sa sb
    exact ⟨rowOf i, rowOf_mem i, rowOf_mnemonic i, isMatch_rowOf fields, sa, sb⟩
  · obtain ⟨i, rfl⟩ := exists_rowOf hr
    obtain ⟨j, selected, row⟩ := decodeFields_of_isMatch isMatch
    rw [← row, ← IllegalWords.encodeFields_of_decodeFields selected] at sa sb
    exact ⟨j, decode_eq_some.mpr ⟨selected, wellFormed_iff_mask.mpr ⟨sa, sb⟩⟩, by rw [← rowOf_mnemonic, row]⟩
  · obtain ⟨i, rfl⟩ := exists_rowOf hr
    obtain ⟨j, rfl⟩ := exists_rowOf hr'
    exact rowOf_eq_of_isMatch isMatch isMatch'
  · revert r
    decide

end Sys2Proof.Proofs.Encoding
end

section
/-! What every read of the internal reader can answer (spec/41_bitbuffer.md rules R103, R104, R111 to R113): a buffer
that keeps `data` and the encode state, or OUT_OF_DATA; so it is for the Huffman parse, the symbols and the RLE
blocks, which are made of such reads. -/

namespace Sys2Proof.Proofs.ReadLaws

open Sys2Proof Sys2Proof.Machine

/-- A read keeps the buffer, or it runs out of data. -/
def ReadAnswers {α : Type} (st : BitBuffer) : Except FaultCode (BitBuffer × α) → Prop
  | .ok (st', _) => ReadKeeps st st'
  | .error x => x = .outOfData

variable {α : Type} {st st' : BitBuffer}

theorem ReadAnswers.keeps {r : Except FaultCode (BitBuffer × α)} {v : α} (answers : ReadAnswers st r)
    (h : r = .ok (st', v)) : ReadKeeps st st' := by
  subst h
  exact answers

theorem ReadAnswers.outOfData {r : Except FaultCode (BitBuffer × α)} {x : FaultCode} (answers : ReadAnswers st r)
    (h : r = .error x) : x = .outOfData := by
  subst h
  exact answers

/-- A read after another. -/
theorem ReadAnswers.after {r : Except FaultCode (BitBuffer × α)} (first : ReadKeeps st st')
    (answers : ReadAnswers st' r) : ReadAnswers st r := by
  match r, answers with
  | .ok _, keeps => exact first.trans keeps
  | .error _, outOfData => exact outOfData

theorem bbReadBit_answers (st : BitBuffer) : ReadAnswers st (bbReadBit st) := by
  cases h : bbReadBit st with
  | error x => exact bbReadBit_error h
  | ok r => exact bbReadBit_keeps h

theorem bbReadBitsInto_answers (k : Nat) (st : BitBuffer) (v : Byte) : ReadAnswers st (bbReadBitsInto k st v) := by
  induction k generalizing st v with
  | zero => exact ReadKeeps.refl st
  | succ k ih =>
    have first := bbReadBit_answers st
    rw [bbReadBitsInto]
    cases h : bbReadBit st with
    | error x => exact first.outOfData h
    | ok r => exact .after (first.keeps h) (ih _ _)

theorem bbReadByte_answers (st : BitBuffer) : ReadAnswers st (bbReadByte st) := by
  rw [bbReadByte]
  split
  · split
    · rfl
    · next v hv =>
      obtain ⟨inside, -⟩ := List.getElem?_eq_some_iff.mp hv
      exact ⟨rfl, rfl, rfl, Nat.le_succ _, fun _ => inside, id⟩
  · exact bbReadBitsInto_answers 8 st 0

theorem bbReadBytes_answers (k : Nat) (st : BitBuffer) : ReadAnswers st (bbReadBytes k st) := by
  induction k generalizing st with
  | zero => exact ReadKeeps.refl st
  | succ k ih =>
    have first := bbReadByte_answers st
    rw [bbReadBytes]
    cases h : bbReadByte st with
    | error x => exact first.outOfData h
    | ok r =>
      have others := ih r.1
      refine .after (first.keeps h) ?_
      cases h' : bbReadBytes k r.1 with
      | error x =>
        simp only [h']
        exact others.outOfData h'
      | ok r' =>
        simp only [h']
        exact others.keeps h'

theorem bbReadInt_answers (st : BitBuffer) : ReadAnswers st (bbReadInt st) := by
  have bytes := bbReadBytes_answers 4 st
  rw [ByteReads.bbReadInt_eq_map]
  cases h : bbReadBytes 4 st with
  | error x => exact bytes.outOfData h
  | ok r => exact bytes.keeps h

/-! The three reads of the commands (41_bitbuffer R111 to R113). -/

theorem rdbitValue_answers (st : BitBuffer) : ReadAnswers st (rdbitValue st) := by
  have read := bbReadBit_answers st
  rw [rdbitValue]
  split
  · next h => exact read.outOfData h
  · next h => exact read.keeps h

theorem rdbyteValue_answers (st : BitBuffer) : ReadAnswers st (rdbyteValue st) := by
  have read := bbReadByte_answers st
  rw [rdbyteValue]
  split
  · next h => exact read.outOfData h
  · next h => exact read.keeps h

theorem rdintValue_answers (st : BitBuffer) : ReadAnswers st (rdintValue st) := by
  have read := bbReadInt_answers st
  rw [rdintValue]
  split
  · next h => exact read.outOfData h
  · next h => exact read.keeps h

/-! The reads of the decoders (44_huffman R206, R207; 45_rle R245). -/

theorem hufParse_answers (fuel : Nat) (st : BitBuffer) : ReadAnswers st (hufParse fuel st) := by
  induction fuel generalizing st with
  | zero => rfl
  | succ fuel ih =>
    have bit := bbReadBit_answers st
    rw [hufParse]
    split
    · next h => exact bit.outOfData h
    · next inp1 h =>
      have byte := bbReadByte_answers inp1
      refine .after (bit.keeps h) ?_
      split
      · next h1 => exact byte.outOfData h1
      · next h1 => exact byte.keeps h1
    · next inp1 h =>
      refine .after (bit.keeps h) ?_
      split
      · next h1 => exact (ih inp1).outOfData h1
      · next inp2 l h1 =>
        refine .after ((ih inp1).keeps h1) ?_
        split
        · next h2 => exact (ih inp2).outOfData h2
        · next h2 => exact (ih inp2).keeps h2

theorem hufDecodeSymbol_answers (root : HufTree) (st : BitBuffer) : ReadAnswers st (hufDecodeSymbol root st) := by
  induction root generalizing st with
  | leaf v => exact ReadKeeps.refl st
  | internal l r ihl ihr =>
    have bit := bbReadBit_answers st
    rw [hufDecodeSymbol]
    split
    · next h => exact bit.outOfData h
    · next inp1 b h =>
      refine .after (bit.keeps h) ?_
      split
      · exact ihr inp1
      · exact ihl inp1

theorem rleReadCount_answers (h : Byte) (st : BitBuffer) : ReadAnswers st (rleReadCount h st) := by
  have byte := bbReadByte_answers st
  rw [rleReadCount]
  split
  · split
    · next read => exact byte.outOfData read
    · next read => exact byte.keeps read
  · exact ReadKeeps.refl st

theorem rleReadBlock_answers (rep : Bool) (c : Nat) (st : BitBuffer) : ReadAnswers st (rleReadBlock rep c st) := by
  have byte := bbReadByte_answers st
  rw [rleReadBlock]
  split
  · split
    · next read => exact byte.outOfData read
    · next read => exact byte.keeps read
  · exact bbReadBytes_answers c st

/-! The faults of the decoders (42_bwt R156, R159; 44_huffman R212; 45_rle R246). -/

theorem hufDecodeLoop_error {root : HufTree} {k : Nat} {inp out : BitBuffer} {x : FaultCode}
    (h : hufDecodeLoop root k inp out = .error x) : x = .outOfData := by
  induction k generalizing inp out with
  | zero => cases h
  | succ k ih =>
    rw [hufDecodeLoop] at h
    split at h
    · next read =>
      cases h
      exact (hufDecodeSymbol_answers root inp).outOfData read
    · exact ih h

theorem hufExpand_error {bs : Bytes} {x : FaultCode} (h : hufExpand bs = .error x) :
    x = .outOfData ∨ x = .format := by
  rw [hufExpand] at h
  split at h
  · next read =>
    cases h
    exact .inl ((bbReadInt_answers _).outOfData read)
  · split at h
    · cases h
      exact .inr rfl
    · split at h
      · cases h
      · split at h
        · next inp _ _ _ _ parse =>
          cases h
          exact .inl ((hufParse_answers _ _).outOfData parse)
        · split at h
          · next loop =>
            cases h
            exact .inl (hufDecodeLoop_error loop)
          · cases h

theorem ibwt_error {bs : Bytes} {x : FaultCode} (h : ibwt bs = .error x) : x = .outOfData ∨ x = .format := by
  obtain short | exact4 | long := Nat.lt_trichotomy bs.length 4
  · rw [InverseBwt.ibwt_of_lt short] at h
    cases h
    exact .inl rfl
  · rw [InverseBwt.ibwt_of_eq exact4] at h
    cases h
  · rw [InverseBwt.ibwt_of_gt long] at h
    split at h
    · cases h
      exact .inr rfl
    · cases h

theorem rleDecodeLoop_error {fuel : Nat} {inp out : BitBuffer} {x : FaultCode}
    (h : rleDecodeLoop fuel inp out = .error x) : x = .outOfData := by
  induction fuel generalizing inp out with
  | zero =>
    rw [rleDecodeLoop] at h
    split at h
    · cases h
    · cases h
      rfl
  | succ fuel ih =>
    rw [rleDecodeLoop] at h
    split at h
    · cases h
    · split at h
      · next header =>
        cases h
        exact (bbReadByte_answers _).outOfData header
      · split at h
        · next count =>
          cases h
          exact (rleReadCount_answers _ _).outOfData count
        · split at h
          · next block =>
            cases h
            exact (rleReadBlock_answers _ _ _).outOfData block
          · exact ih h

theorem rleDecode_error {bs : Bytes} {x : FaultCode} (h : rleDecode bs = .error x) : x = .outOfData := by
  rw [rleDecode] at h
  split at h
  · next loop =>
    cases h
    exact rleDecodeLoop_error loop
  · cases h

end Sys2Proof.Proofs.ReadLaws
end

section
/-! The invariant (spec/10_state.md, sections 1 and 2): reset has it, and every Bit Buffer operation, every command
and every host action keeps it. -/

namespace Sys2Proof.Proofs.Invariant

open Sys2Proof Sys2Proof.Machine Sys2Proof.Proofs.ReadLaws

/-! The legal values of a buffer's fields (10_state R21, R22). -/

/-- Everything a legal buffer must be but short enough, which the CAPACITY check sees to (30_encoding R90). -/
def FieldsOk (st : BitBuffer) : Prop := EncodeOk st ∧ st.cursor ≤ st.data.length ∧ st.rem ≤ 7

theorem wf_iff_fieldsOk {st : BitBuffer} {p : Params} :
    st.wf p = true ↔ st.data.length ≤ p.maxLen ∧ FieldsOk st := by
  simp only [BitBuffer_wf_iff, FieldsOk, EncodeOk, and_assoc]

/-- A fresh buffer is legal but for its length. -/
theorem fieldsOk_preloaded (bs : Bytes) : FieldsOk (preloaded bs) := by
  simp [FieldsOk, EncodeOk]

/-- A write leaves the cursor inside, since `data` only grows. -/
theorem fieldsOk_of_writeKeeps {st st' : BitBuffer} (keeps : WriteKeeps st st') (ok : FieldsOk st) : FieldsOk st' := by
  obtain ⟨encode, inside, rem⟩ := ok
  refine ⟨keeps.ok encode, ?_, keeps.rem ▸ rem⟩
  rw [keeps.cursor]
  exact inside.trans keeps.data.length_le

theorem fieldsOk_of_readKeeps {st st' : BitBuffer} (keeps : ReadKeeps st st') (ok : FieldsOk st) : FieldsOk st' := by
  obtain ⟨encode, inside, rem⟩ := ok
  refine ⟨?_, ?_, keeps.rem rem⟩
  · rw [EncodeOk, keeps.npend, keeps.pend]
    exact encode
  · rw [keeps.data]
    exact keeps.inside inside

theorem fieldsOk_resetPosition {st : BitBuffer} (ok : FieldsOk st) : FieldsOk (bbResetPosition st) :=
  ⟨ok.1, Nat.zero_le _, Nat.zero_le _⟩

/-! The bodies of the commands. -/

/-- The slots of a state are legal but for their lengths. -/
def SlotsOk (s : State) : Prop := ∀ n, FieldsOk (s.slot n)

theorem slotsOk_setSlot {s : State} {n : Nat} {st : BitBuffer} (slots : SlotsOk s) (ok : FieldsOk st) :
    SlotsOk (s.setSlot n st) := by
  intro k
  rw [slot_setSlot]
  split
  · exact ok
  · exact slots k

theorem slotsOk_of_readBody {op : BitBuffer → Except FaultCode (BitBuffer × Word32)} {a : SlotNo} {s t : State}
    (slots : SlotsOk s) (answers : ∀ st, ReadAnswers st (op st))
    (h : readBody op a s = .ok t) : SlotsOk t := by
  obtain ⟨st, v, read, rfl⟩ := readBody_ok h
  exact slotsOk_setSlot slots (fieldsOk_of_readKeeps ((answers _).keeps read) (slots _))

theorem slotsOk_of_transformBody {f : Bytes → Except FaultCode Bytes} {a b : SlotNo} {s t : State}
    (slots : SlotsOk s) (h : transformBody f a b s = .ok t) : SlotsOk t := by
  obtain ⟨out, -, rfl⟩ := transformBody_ok h
  exact slotsOk_setSlot slots (fieldsOk_preloaded out)

/-- What a write operation writes back is legal if the operation keeps a buffer's form. -/
theorem slotsOk_of_write {s : State} {n : Nat} {op : BitBuffer → BitBuffer} (slots : SlotsOk s)
    (keeps : ∀ st, WriteKeeps st (op st)) : SlotsOk (s.setSlot n (op (s.slot n))) :=
  slotsOk_setSlot slots (fieldsOk_of_writeKeeps (keeps _) (slots n))

/-- A body that answers leaves every slot legal but for its length. -/
theorem slotsOk_of_bodyOf {p : Params} {i : Instr} {s t : State} (slots : SlotsOk s) (h : bodyOf i s p = .ok t) :
    SlotsOk t := by
  cases i with
  | new a => cases h; exact slotsOk_setSlot slots (fieldsOk_preloaded [])
  | wrbit a bit => cases h; exact slotsOk_of_write (op := (bbWriteBit · bit)) slots (bbWriteBit_keeps · bit)
  | wrbyte a v => cases h; exact slotsOk_of_write (op := (bbWriteByte · v)) slots (bbWriteByte_keeps · v)
  | wrbytes a b =>
    cases h
    exact slotsOk_of_write (op := (bbWriteBytes · _)) slots (bbWriteBytes_keeps · _)
  | wrint a w => cases h; exact slotsOk_of_write (op := (bbWriteInt · w)) slots (bbWriteInt_keeps · w)
  | flush a => cases h; exact slotsOk_of_write slots bbFlush_keeps
  | rdbit a => exact slotsOk_of_readBody slots rdbitValue_answers h
  | rdbyte a => exact slotsOk_of_readBody slots rdbyteValue_answers h
  | rdint a => exact slotsOk_of_readBody slots rdintValue_answers h
  | rstpos a => cases h; exact slotsOk_setSlot slots (fieldsOk_resetPosition (slots _))
  | eod a | len a => cases h; exact slots
  | getb a k => obtain ⟨v, -, rfl⟩ := getbBody_ok h; exact slots
  | setb a k v =>
    obtain ⟨-, rfl⟩ := setbBody_ok h
    obtain ⟨encode, inside, rem⟩ := slots (slotIndex a)
    exact slotsOk_setSlot slots ⟨encode, by simpa using inside, rem⟩
  | bwt a b | mtfe a b | mtfd a b | hufc a b | rlee a b =>
    cases h
    exact slotsOk_setSlot slots (fieldsOk_preloaded _)
  | ibwt a b | hufx a b | rled a b => exact slotsOk_of_transformBody slots h
  | clrf => cases h; exact slots

/-! The fault record (10_state R27, R28). -/

theorem statusOk_takeFault (x : FaultCode) (w : Word64) (s : State) : (takeFault x w s).statusOk = true := by
  rw [FaultRecord.statusOk_iff, takeFault_status, takeFault_faulted]
  have legal : statusReserved (faultStatus x) = 0 ∧ (statusFcode (faultStatus x)).toNat ≤ 5 ∧
      statusFcode (faultStatus x) ≠ 0 := by cases x <;> decide
  obtain ⟨reserved, small, nonzero⟩ := legal
  exact ⟨reserved, small, ⟨fun zero => absurd zero nonzero, nofun⟩, nofun⟩

theorem statusOk_of_zero {s : State} (status : s.status = 0) (fcmd : s.fcmd = 0) : s.statusOk = true := by
  have unfaulted : s.faulted = false := by
    rw [State.faulted, status]
    decide
  rw [FaultRecord.statusOk_iff, unfaulted, status, fcmd]
  decide

theorem statusOk_congr {s t : State} (status : t.status = s.status) (fcmd : t.fcmd = s.fcmd) :
    t.statusOk = s.statusOk := by
  simp only [State.statusOk, State.faulted, status, fcmd]

/-! The invariant, in its three parts. -/

/-- A slot number past the last reads as the empty buffer, which is legal. -/
theorem slot_of_length_le {s : State} {n : Nat} (h : s.slots.length ≤ n) : s.slot n = BitBuffer.empty := by
  simp [State.slot, List.getElem?_eq_none h]

/-- The invariant says that there are NSLOT slots, that none is too long, that all are legal otherwise, and that the
fault record is legal. -/
theorem inv_iff {s : State} {p : Params} :
    s.Inv p ↔ s.slots.length = p.nslot ∧ Memory.wf s p = true ∧ SlotsOk s ∧ s.statusOk = true := by
  rw [memory_wf_iff]
  constructor
  · rintro ⟨slotCount, slots, status⟩
    refine ⟨slotCount, fun n hn => (wf_iff_fieldsOk.mp (slots n (slotCount ▸ hn))).1, fun n => ?_, status⟩
    by_cases hn : n < p.nslot
    · exact (wf_iff_fieldsOk.mp (slots n hn)).2
    · rw [slot_of_length_le (by omega)]
      exact fieldsOk_preloaded []
  · rintro ⟨slotCount, short, slots, status⟩
    exact ⟨slotCount, fun n hn => wf_iff_fieldsOk.mpr ⟨short n (by omega), slots n⟩, status⟩

/-- The host's side is no part of the invariant. -/
theorem inv_congr {s t : State} {p : Params} (slots : t.slots = s.slots) (status : t.status = s.status)
    (fcmd : t.fcmd = s.fcmd) (inv : s.Inv p) : t.Inv p := by
  have slot (n : Nat) : t.slot n = s.slot n := by rw [State.slot, slots, State.slot]
  obtain ⟨slotCount, legal, record⟩ := inv
  exact ⟨slots ▸ slotCount, fun n hn => slot n ▸ legal n hn, (statusOk_congr status fcmd).trans record⟩

theorem inv_takeFault {s : State} {p : Params} (x : FaultCode) (w : Word64) (inv : s.Inv p) :
    (takeFault x w s).Inv p := by
  obtain ⟨slotCount, legal, -⟩ := inv
  exact ⟨slotCount, legal, statusOk_takeFault x w s⟩

theorem inv_clearFault {s : State} {p : Params} (inv : s.Inv p) : (clearFault s).Inv p := by
  obtain ⟨slotCount, legal, -⟩ := inv
  exact ⟨slotCount, legal, statusOk_of_zero rfl rfl⟩

theorem inv_resetFor (p : Params) : (State.resetFor p).Inv p :=
  inv_iff.mpr ⟨resetFor_slots_length p, resetFor_memory_wf p,
    fun n => by rw [resetFor_slot]; exact fieldsOk_preloaded [], statusOk_of_zero rfl rfl⟩

/-- Loading a slot with a sequence that fits keeps the invariant (20_memory R54). -/
theorem inv_setSlot_preloaded {s : State} {p : Params} {bs : Bytes} (a : Nat) (inv : s.Inv p)
    (fits : bs.length ≤ p.maxLen) : (s.setSlot a (preloaded bs)).Inv p := by
  obtain ⟨slotCount, short, slots, record⟩ := inv_iff.mp inv
  exact inv_iff.mpr ⟨(setSlot_slots_length _ _ _).trans slotCount, setSlot_keeps_memory_wf a short fits,
    slotsOk_setSlot slots (fieldsOk_preloaded bs), record⟩

/-! Every command, every host action and every step. -/

/-- Every command keeps the invariant: what it commits has passed the CAPACITY check and leaves the fault record
alone. -/
theorem execFor_keeps_inv {p : Params} {i : Instr} {s t : State} (inv : s.Inv p) (h : execFor p i s = .next t) :
    t.Inv p := by
  by_cases clrf : i = .clrf
  · subst clrf
    cases h
    exact inv_clearFault inv
  · rw [execFor_eq_runCommand p i clrf] at h
    cases runCommand_does h with
    | discarded => exact inv
    | illegal | faults | tooLong => exact inv_takeFault _ _ inv
    | commits _ _ _ answers short =>
      obtain ⟨slotCount, -, slots, record⟩ := inv_iff.mp inv
      obtain ⟨keeps, -⟩ := bodyOf_frame clrf answers
      exact inv_iff.mpr ⟨keeps.slotCount.trans slotCount, short, slotsOk_of_bodyOf slots answers,
        (statusOk_congr keeps.status keeps.fcmd).trans record⟩

theorem issue_keeps_inv {p : Params} {w : Word64} {s t : State} (inv : s.Inv p) (h : issue w s p = .next t) :
    t.Inv p := by
  have counted : State.Inv { s with issued := s.issued + 1 } p := inv_congr rfl rfl rfl inv
  obtain ⟨i, -, runs⟩ | ⟨-, -, discards⟩ | ⟨-, -, enters⟩ := issue_cases p w s
  · exact execFor_keeps_inv counted (runs ▸ h)
  · rw [discards] at h
    cases h
    exact counted
  · rw [enters] at h
    cases h
    exact inv_takeFault _ _ counted

theorem hostAct_keeps_inv {p : Params} {act : HostAction} {s t : State} (inv : s.Inv p)
    (h : hostAct act s p = .next t) : t.Inv p := by
  cases act with
  | issue w => exact issue_keeps_inv inv h
  | readReg r => cases h; exact inv_congr rfl rfl rfl inv
  | reset => cases h; exact inv_congr rfl rfl rfl (inv_resetFor p)
  | load a bs => obtain ⟨-, fits, rfl⟩ := hostLoad_next h; exact inv_setSlot_preloaded a inv fits
  | read a => obtain ⟨-, rfl⟩ := hostRead_next h; exact inv_congr rfl rfl rfl inv

theorem stepFor_keeps_inv {p : Params} {s t : State} (inv : s.Inv p) (h : stepFor p s = .next t) : t.Inv p := by
  cases hq : s.hostQueue with
  | nil =>
    rw [FaultRecord.stepFor_of_no_action p hq] at h
    cases h
    exact inv
  | cons act rest =>
    rw [stepFor_cons hq] at h
    exact hostAct_keeps_inv (s := { s with hostQueue := rest }) (inv_congr rfl rfl rfl inv) h

/-- Settles O17: reset has the invariant for every value of the parameters, this hardware's among them. -/
theorem resetSatisfiesInv : Obligations.ResetSatisfiesInv := by
  unfold Obligations.ResetSatisfiesInv
  exact ⟨inv_resetFor Config.params, inv_resetFor⟩

/-- Settles O18: a step takes one host action, and each kind of action keeps the invariant. -/
theorem stepKeepsInv : Obligations.StepKeepsInv := by
  unfold Obligations.StepKeepsInv
  exact ⟨fun _ _ inv h => stepFor_keeps_inv inv h, fun _ _ _ inv h => stepFor_keeps_inv inv h⟩

end Sys2Proof.Proofs.Invariant
end

section
/-! What a command leaves alone (spec/10_state.md, sections 1, 2 and 5): the slots other than SA's, the bytes that
were there, RES, the fault record and the host's side. -/

namespace Sys2Proof.Proofs.Frames

open Sys2Proof Sys2Proof.Machine Sys2Proof.Proofs.ReadLaws

/-- What a command other than CLRF did is one of the five things a command can do. -/
theorem execFor_does {p : Params} {i : Instr} {s t : State} (notClrf : i ≠ .clrf) (h : execFor p i s = .next t) :
    CommandDoes p i (fun s => bodyOf i s p) s t :=
  runCommand_does (execFor_eq_runCommand p i notClrf s ▸ h)

theorem exec_does {i : Instr} {s t : State} (notClrf : i ≠ .clrf) (h : exec i s = .next t) :
    CommandDoes Config.params i (fun s => bodyOf i s) s t :=
  execFor_does notClrf (exec_eq_execFor i s ▸ h)

/-- What holds of a state, of every state with a fault entered from it, and of what its body answers, holds after a
command. -/
theorem exec_induction {i : Instr} {s t : State} {motive : State → Prop} (h : exec i s = .next t)
    (notClrf : i ≠ .clrf) (same : motive s) (enters : ∀ x, motive (takeFault x (encode i) s))
    (answers : ∀ t', s.faulted = false → bodyOf i s = .ok t' → motive t') : motive t := by
  cases exec_does notClrf h with
  | discarded => exact same
  | illegal | faults | tooLong => exact enters _
  | commits _ unfaulted _ body => exact answers t unfaulted body

/-! The slots (10_state R20, R34). -/

theorem memRead_congr {s t : State} {n : Nat} (h : t.slot n = s.slot n) (j : Nat) : memRead t n j = memRead s n j := by
  rw [memRead, h, memRead]

/-- The slot a body may write is the one in SA. -/
theorem destSlot_eq_sa {i : Instr} {n : Nat} (h : destSlot i = some n) : n = (encodeFields i).sa.toNat := by
  cases i <;> cases h <;> rfl

/-- A command leaves every slot but its destination alone. -/
theorem exec_slot_of_ne {i : Instr} {s t : State} (h : exec i s = .next t) {n : Nat} (other : destSlot i ≠ some n) :
    t.slot n = s.slot n := by
  by_cases clrf : i = .clrf
  · subst clrf
    cases h
    rfl
  · exact exec_induction (motive := fun t => t.slot n = s.slot n) h clrf rfl (fun _ => rfl)
      fun t' _ body => (bodyOf_frame clrf body).2 n other

/-- Settles O23: the destination is the slot in SA. -/
theorem commandsWriteOnlySlotSA : Obligations.CommandsWriteOnlySlotSA := by
  unfold Obligations.CommandsWriteOnlySlotSA
  intro i s t h n other
  have slot : t.slot n = s.slot n := exec_slot_of_ne h fun dest => other (destSlot_eq_sa dest)
  exact ⟨slot, memRead_congr slot⟩

/-! The operations that write one slot. -/

/-- A relation that every buffer has to itself and to what a write operation makes of it holds of every slot before
and after the write. -/
theorem rel_setSlot {s : State} {r : BitBuffer → BitBuffer → Prop} {a : SlotNo} {st : BitBuffer}
    (refl : ∀ st, r st st) (write : r (s.slot (slotIndex a)) st) (n : Nat) :
    r (s.slot n) ((s.setSlot (slotIndex a) st).slot n) := by
  rw [slot_setSlot]
  split
  · next same =>
    obtain ⟨rfl, -⟩ := same
    exact write
  · exact refl _

/-- The parts of a buffer that reading does not touch: `data` and the encode state (10_state R24). -/
def SameWritten (st st' : BitBuffer) : Prop := st'.data = st.data ∧ st'.pend = st.pend ∧ st'.npend = st.npend

theorem SameWritten.refl (st : BitBuffer) : SameWritten st st := ⟨rfl, rfl, rfl⟩

theorem sameWritten_of_readBody {op : BitBuffer → Except FaultCode (BitBuffer × Word32)} {a : SlotNo} {s t : State}
    (answers : ∀ st, ReadAnswers st (op st)) (h : readBody op a s = .ok t) (n : Nat) :
    SameWritten (s.slot n) (t.slot n) := by
  obtain ⟨st, v, read, rfl⟩ := readBody_ok h
  have keeps := (answers _).keeps read
  exact rel_setSlot SameWritten.refl ⟨keeps.data, keeps.pend, keeps.npend⟩ n

/-- The reads and RSTPOS leave what was written alone. -/
theorem sameWritten_of_bodyOf {i : Instr} {a : SlotNo} {s t : State}
    (mem : i ∈ [Instr.rdbit a, .rdbyte a, .rdint a, .rstpos a]) (h : bodyOf i s = .ok t) (n : Nat) :
    SameWritten (s.slot n) (t.slot n) := by
  simp only [List.mem_cons, List.not_mem_nil, or_false] at mem
  obtain rfl | rfl | rfl | rfl := mem
  · exact sameWritten_of_readBody rdbitValue_answers h n
  · exact sameWritten_of_readBody rdbyteValue_answers h n
  · exact sameWritten_of_readBody rdintValue_answers h n
  · cases h
    have rewound : SameWritten (s.slot (slotIndex a)) (bbResetPosition (s.slot (slotIndex a))) := ⟨rfl, rfl, rfl⟩
    exact rel_setSlot SameWritten.refl rewound n

/-- Settles O24: a read keeps `data` and the encode state of its slot; the queries and CLRF have no destination. -/
theorem readsAndQueriesKeepMemory : Obligations.ReadsAndQueriesKeepMemory := by
  unfold Obligations.ReadsAndQueriesKeepMemory
  refine fun i s t h => ⟨fun a mem n => ?reads, fun a k mem => ?queries⟩
  case reads =>
    have notClrf : i ≠ .clrf := by
      rintro rfl
      simp at mem
    have same : SameWritten (s.slot n) (t.slot n) :=
      exec_induction (motive := fun t => SameWritten (s.slot n) (t.slot n)) h notClrf (SameWritten.refl _)
        (fun _ => SameWritten.refl _) fun t' _ body => sameWritten_of_bodyOf mem body n
    obtain ⟨data, pend, npend⟩ := same
    exact ⟨fun j => by rw [memRead, data, memRead], pend, npend⟩
  case queries =>
    have noDest : destSlot i = none := by
      simp only [List.mem_cons, List.not_mem_nil, or_false] at mem
      obtain rfl | rfl | rfl | rfl := mem <;> rfl
    have slot (n : Nat) : t.slot n = s.slot n := exec_slot_of_ne h (by simp [noDest])
    exact ⟨slot, fun n => memRead_congr (slot n)⟩

/-- The appending commands write what their operation makes of slot SA, and it keeps the bytes that were there and
the decode state (41_bitbuffer R101). -/
theorem exists_write_of_append {a b : SlotNo} {bit : Bool} {v : Byte} {w : Word32} {i : Instr} (s : State)
    (mem : i ∈ [Instr.wrbit a bit, .wrbyte a v, .wrbytes a b, .wrint a w, .flush a]) :
    i ≠ .clrf ∧ destSlot i = some (slotIndex a) ∧ ∃ st, WriteKeeps (s.slot (slotIndex a)) st ∧
      bodyOf i s = .ok (s.setSlot (slotIndex a) st) := by
  simp only [List.mem_cons, List.not_mem_nil, or_false] at mem
  obtain rfl | rfl | rfl | rfl | rfl := mem
  · exact ⟨nofun, rfl, _, bbWriteBit_keeps _ bit, rfl⟩
  · exact ⟨nofun, rfl, _, bbWriteByte_keeps _ v, rfl⟩
  · exact ⟨nofun, rfl, _, bbWriteBytes_keeps _ (s.slot (slotIndex b)).data, rfl⟩
  · exact ⟨nofun, rfl, _, bbWriteInt_keeps _ w, rfl⟩
  · exact ⟨nofun, rfl, _, bbFlush_keeps _, rfl⟩

/-- Settles O25: an append leaves the old bytes in front. -/
theorem appendsKeepOldBytes : Obligations.AppendsKeepOldBytes := by
  unfold Obligations.AppendsKeepOldBytes
  intro a b bit v w i s t mem h
  obtain ⟨notClrf, dest, st, write, body⟩ := exists_write_of_append s mem
  have others (n : Nat) (other : n ≠ slotIndex a) : t.slot n = s.slot n :=
    exec_slot_of_ne h (by simp [dest, other.symm])
  have same : WriteKeeps (s.slot (slotIndex a)) (t.slot (slotIndex a)) ∧ t.res = s.res := by
    refine exec_induction (motive := fun t => WriteKeeps (s.slot (slotIndex a)) (t.slot (slotIndex a)) ∧ t.res = s.res)
      h notClrf ⟨WriteKeeps.refl _, rfl⟩ (fun _ => ⟨WriteKeeps.refl _, rfl⟩) fun t' _ body' => ?_
    rw [body] at body'
    cases body'
    exact ⟨rel_setSlot WriteKeeps.refl write _, rfl⟩
  obtain ⟨keeps, res⟩ := same
  refine ⟨fun n other => ⟨others n other, memRead_congr (others n other)⟩, fun j hj => ?_, keeps.cursor, keeps.cur,
    keeps.rem, res⟩
  obtain ⟨appended, data⟩ := keeps.data
  rw [memRead, ← data, List.getElem?_append_left hj, memRead]

/-! SETB (20_memory R51). -/

/-- A byte stands only in a slot of the core. -/
theorem lt_slots_length_of_lt_data {s : State} {n j : Nat} (h : j < (s.slot n).data.length) : n < s.slots.length := by
  by_contra beyond
  rw [Invariant.slot_of_length_le (Nat.le_of_not_lt beyond)] at h
  simp at h

/-- The parts of a buffer that replacing a byte does not touch (10_state R21). -/
def SameButBytes (st st' : BitBuffer) : Prop :=
  st'.data.length = st.data.length ∧ st'.pend = st.pend ∧ st'.npend = st.npend ∧ st'.cursor = st.cursor ∧
    st'.cur = st.cur ∧ st'.rem = st.rem

theorem SameButBytes.refl (st : BitBuffer) : SameButBytes st st := ⟨rfl, rfl, rfl, rfl, rfl, rfl⟩

/-- Settles O26: where SETB commits, it is a MemWrite at an index inside `data`. -/
theorem setbStoresOneByte : Obligations.SetbStoresOneByte := by
  unfold Obligations.SetbStoresOneByte
  intro a k v s t h
  have notClrf : Instr.setb a k v ≠ .clrf := nofun
  refine ⟨fun unfaulted unfaulted' => ?stored, fun n j other => ?others, fun n => ?fields, ?res⟩
  case stored =>
    cases exec_does notClrf h with
    | discarded faulted => exact absurd (faulted.symm.trans unfaulted) (by decide)
    | illegal | faults | tooLong => simp at unfaulted'
    | commits _ _ _ body =>
      obtain ⟨inside, rfl⟩ := setbBody_ok body
      exact memRead_memWrite_same v (lt_slots_length_of_lt_data inside) inside
  case others =>
    refine exec_induction (motive := fun t => memRead t n j = memRead s n j) h notClrf rfl (fun _ => rfl)
      fun t' _ body => ?_
    obtain ⟨-, rfl⟩ := setbBody_ok body
    exact memRead_memWrite_ne v other
  case fields =>
    refine exec_induction (motive := fun t => SameButBytes (s.slot n) (t.slot n)) h notClrf (SameButBytes.refl _)
      (fun _ => SameButBytes.refl _) fun t' _ body => ?_
    obtain ⟨-, rfl⟩ := setbBody_ok body
    have replaced : SameButBytes (s.slot (slotIndex a))
        { s.slot (slotIndex a) with data := (s.slot (slotIndex a)).data.set (byteIndex k) v } :=
      ⟨List.length_set, rfl, rfl, rfl, rfl, rfl⟩
    exact rel_setSlot SameButBytes.refl replaced n
  case res =>
    refine exec_induction (motive := fun t => t.res = s.res) h notClrf rfl (fun _ => rfl) fun t' _ body => ?_
    obtain ⟨-, rfl⟩ := setbBody_ok body
    rfl

/-! RES (10_state R26). -/

/-- The commands that return a value to RES. -/
def returning : List String := ["RDBIT", "RDBYTE", "RDINT", "EOD", "GETB", "LEN"]

theorem setRes_setRes (s : State) (v w : Word32) : (s.setRes v).setRes w = s.setRes w := rfl

theorem transformBody_setRes (f : Bytes → Except FaultCode Bytes) (a b : SlotNo) (s : State) (v : Word32) :
    transformBody f a b (s.setRes v) = (transformBody f a b s).map fun t => t.setRes v := by
  simp only [transformBody, setRes_slot]
  cases f (s.slot (slotIndex b)).data <;> rfl

theorem readBody_setRes (op : BitBuffer → Except FaultCode (BitBuffer × Word32)) (a : SlotNo) (s : State)
    (v : Word32) : readBody op a (s.setRes v) = readBody op a s := by
  simp only [readBody, setRes_slot]
  cases op (s.slot (slotIndex a)) <;> rfl

/-- A body that returns no value answers from the state with another RES the same but for RES, which it keeps. -/
theorem bodyOf_of_notReturning {i : Instr} (silent : i.mnemonic ∉ returning) (s : State) :
    (∀ t, bodyOf i s = .ok t → t.res = s.res) ∧
      ∀ v, bodyOf i (s.setRes v) = (bodyOf i s).map fun t => t.setRes v := by
  cases i
  case rdbit | rdbyte | rdint | eod | getb | len => simp [returning, Instr.mnemonic] at silent
  case new | wrbit | wrbyte | wrbytes | wrint | flush | rstpos | bwt | mtfe | mtfd | hufc | rlee =>
    refine ⟨fun t body => ?_, fun v => rfl⟩
    cases body
    rfl
  case setb a k u =>
    refine ⟨fun t body => ?_, fun v => ?_⟩
    · obtain ⟨-, rfl⟩ := setbBody_ok body
      rfl
    · simp only [bodyOf, setbBody, memRead, setRes_slot]
      cases (s.slot (slotIndex a)).data[byteIndex k]? <;> rfl
  case ibwt | hufx | rled =>
    refine ⟨fun t body => ?_, transformBody_setRes _ _ _ s⟩
    obtain ⟨out, -, rfl⟩ := transformBody_ok body
    rfl
  case clrf => exact ⟨fun t body => by cases body; rfl, fun v => rfl⟩

/-- A body that returns a value overwrites RES. -/
theorem bodyOf_of_returning {i : Instr} (returns : i.mnemonic ∈ returning) (s : State) (v : Word32) :
    bodyOf i (s.setRes v) = bodyOf i s := by
  cases i
  case rdbit | rdbyte | rdint => exact readBody_setRes _ _ s v
  case eod | len => rfl
  case getb a k => simp only [bodyOf, getbBody, memRead, setRes_slot, setRes_setRes]
  all_goals simp [returning, Instr.mnemonic] at returns

/-- Each of the five things a command can do is what its execution answers. -/
theorem runCommand_of_does {p : Params} {i : Instr} {body : State → Except FaultCode State} {s t : State}
    (h : CommandDoes p i body s t) : runCommand i body s p = .next t := by
  cases h with
  | discarded faulted => exact runCommand_faulted faulted
  | illegal unfaulted illegal => exact runCommand_illFormed unfaulted illegal
  | faults x unfaulted legal fault => exact runCommand_error unfaulted legal fault
  | tooLong t' unfaulted legal answers long => exact runCommand_capacity unfaulted legal answers long
  | commits _ unfaulted legal answers short => exact runCommand_ok unfaulted legal answers short

/-- A command whose body keeps RES ends the same from the state with another RES, but for RES. -/
theorem does_setRes_of_keeps {p : Params} {i : Instr} {body : State → Except FaultCode State} {s t : State}
    {v : Word32} (keeps : body (s.setRes v) = (body s).map fun t => t.setRes v) (h : CommandDoes p i body s t) :
    CommandDoes p i body (s.setRes v) (t.setRes v) := by
  cases h with
  | discarded faulted => exact .discarded faulted
  | illegal unfaulted illegal => exact .illegal unfaulted illegal
  | faults x unfaulted legal fault => exact .faults x unfaulted legal (by rw [keeps, fault]; rfl)
  | tooLong t' unfaulted legal answers long =>
    exact .tooLong (t'.setRes v) unfaulted legal (by rw [keeps, answers]; rfl) long
  | commits _ unfaulted legal answers short =>
    exact .commits (t.setRes v) unfaulted legal (by rw [keeps, answers]; rfl) short

/-- A command whose body overwrites RES commits the same from the state with another RES, and where it commits
nothing it keeps the other RES. -/
theorem does_setRes_of_overwrites {p : Params} {i : Instr} {body : State → Except FaultCode State} {s t : State}
    {v : Word32} (overwrites : body (s.setRes v) = body s) (h : CommandDoes p i body s t) :
    CommandDoes p i body (s.setRes v) t ∨ (t.res = s.res ∧ CommandDoes p i body (s.setRes v) (t.setRes v)) := by
  cases h with
  | discarded faulted => exact .inr ⟨rfl, .discarded faulted⟩
  | illegal unfaulted illegal => exact .inr ⟨rfl, .illegal unfaulted illegal⟩
  | faults x unfaulted legal fault => exact .inr ⟨rfl, .faults x unfaulted legal (overwrites.trans fault)⟩
  | tooLong t' unfaulted legal answers long =>
    exact .inr ⟨rfl, .tooLong t' unfaulted legal (overwrites.trans answers) long⟩
  | commits _ unfaulted legal answers short =>
    exact .inl (.commits t unfaulted legal (overwrites.trans answers) short)

/-- A command that ends with a fault recorded has not written RES. -/
theorem exec_res_of_faulted {i : Instr} {s t : State} (h : exec i s = .next t) (faulted : t.faulted = true) :
    t.res = s.res := by
  by_cases clrf : i = .clrf
  · subst clrf
    cases h
    rfl
  · cases exec_does clrf h with
    | discarded | illegal | faults | tooLong => rfl
    | commits _ unfaulted _ body =>
      have status : t.status = s.status := (bodyOf_frame clrf body).1.status
      have same : t.faulted = s.faulted := congrArg statusFault status
      exact absurd (same.symm.trans faulted) (by simp [unfaulted])

theorem exec_res_of_silent {i : Instr} {s t : State} (h : exec i s = .next t) (silent : i.mnemonic ∉ returning) :
    t.res = s.res := by
  by_cases clrf : i = .clrf
  · subst clrf
    cases h
    rfl
  · exact exec_induction (motive := fun t => t.res = s.res) h clrf rfl (fun _ => rfl)
      fun t' _ body => (bodyOf_of_notReturning silent s).1 t' body

/-- Settles O27: a body either keeps RES or overwrites it, and reads it in neither case. -/
theorem resIsWrittenOnlyByReadsAndReadByNone : Obligations.ResIsWrittenOnlyByReadsAndReadByNone := by
  unfold Obligations.ResIsWrittenOnlyByReadsAndReadByNone
  refine fun i s t h => ⟨exec_res_of_silent h, exec_res_of_faulted h, fun v => ?_⟩
  by_cases clrf : i = .clrf
  · subst clrf
    cases h
    exact .inr ⟨rfl, rfl⟩
  · have does := exec_does clrf h
    rw [exec_eq_runCommand i clrf]
    by_cases returns : i.mnemonic ∈ returning
    · obtain same | ⟨res, keeps⟩ := does_setRes_of_overwrites (bodyOf_of_returning returns s v) does
      · exact .inl (runCommand_of_does same)
      · exact .inr ⟨res, runCommand_of_does keeps⟩
    · have keeps := does_setRes_of_keeps ((bodyOf_of_notReturning returns s).2 v) does
      exact .inr ⟨exec_res_of_silent h returns, runCommand_of_does keeps⟩

/-! The fault record and the host's side (10_state R27, R28; notes/assumptions 1 to 3). -/

/-- No command touches the host's side. -/
theorem execFor_keeps_host {p : Params} {i : Instr} {s t : State} (h : execFor p i s = .next t) :
    t.hostQueue = s.hostQueue ∧ t.hostReply = s.hostReply ∧ t.issued = s.issued := by
  by_cases clrf : i = .clrf
  · subst clrf
    cases h
    exact ⟨rfl, rfl, rfl⟩
  · cases execFor_does clrf h with
    | discarded | illegal | faults | tooLong => exact ⟨rfl, rfl, rfl⟩
    | commits _ _ _ body =>
      obtain ⟨keeps, -⟩ := bodyOf_frame clrf body
      exact ⟨keeps.hostQueue, keeps.hostReply, keeps.issued⟩

/-- Settles O28: of the five things a command can do, only a fault entry writes STATUS or FCMD. -/
theorem statusIsWrittenOnlyByFaultAndClrf : Obligations.StatusIsWrittenOnlyByFaultAndClrf := by
  unfold Obligations.StatusIsWrittenOnlyByFaultAndClrf
  refine fun i s t h => ⟨fun notClrf faulted => ?discards, fun notClrf unfaulted => ?runs, fun clrf => ?clears,
    execFor_keeps_host (exec_eq_execFor i s ▸ h)⟩
  case discards =>
    rw [exec_eq_execFor, FaultRecord.execFor_of_faulted _ notClrf faulted] at h
    cases h
    exact ⟨rfl, rfl⟩
  case runs =>
    cases exec_does notClrf h with
    | discarded => exact .inl ⟨rfl, rfl⟩
    | illegal => exact .inr ⟨.illegal, rfl⟩
    | faults x => exact .inr ⟨x, rfl⟩
    | tooLong => exact .inr ⟨.capacity, rfl⟩
    | commits _ _ _ body =>
      obtain ⟨keeps, -⟩ := bodyOf_frame notClrf body
      exact .inl ⟨keeps.status, keeps.fcmd⟩
  case clears =>
    subst clrf
    cases h
    exact ⟨rfl, rfl⟩

/-! The transforms (30_encoding R90). -/

/-- The state a transform leaves, by what its function answers: the output in slot `n` if it fits, else CAPACITY;
or the function's own fault. -/
def transformed (p : Params) (i : Instr) (n : Nat) (s : State) : Except FaultCode Bytes → State
  | .ok out => if out.length ≤ p.maxLen then s.setSlot n (preloaded out) else takeFault .capacity (encode i) s
  | .error x => takeFault x (encode i) s

/-- A transform that the core takes leaves the state that its function's answer decides. -/
theorem execFor_transform {p : Params} {i : Instr} {s : State} {a b : SlotNo} {f : Bytes → Except FaultCode Bytes}
    (taken : TakenCommands.Takes p i s) (body : bodyOf i s p = transformBody f a b s) (ha : a.toNat < p.nslot) :
    execFor p i s = .next (transformed p i a.toNat s (f (s.slot b.toNat).data)) := by
  cases answer : f (s.slot b.toNat).data with
  | error x => exact TakenTransforms.transform_faults taken body answer
  | ok out =>
    rw [transformed]
    split
    · next fits => exact TakenTransforms.transform_commits taken body answer fits
    · next long => exact TakenTransforms.transform_faults_capacity taken body ha answer (Nat.lt_of_not_le long)

/-- Each of the transforms runs a function of the source's bytes. -/
theorem exists_function_of_transform {a b : SlotNo} {i : Instr}
    (mem : i ∈ [Instr.bwt a b, .ibwt a b, .mtfe a b, .mtfd a b, .hufc a b, .hufx a b, .rlee a b, .rled a b]) :
    i.slotFields = [a, b] ∧ ∃ f, ∀ s, bodyOf i s = transformBody f a b s := by
  simp only [List.mem_cons, List.not_mem_nil, or_false] at mem
  obtain rfl | rfl | rfl | rfl | rfl | rfl | rfl | rfl := mem
  · exact ⟨rfl, fun x => .ok (bwt x), fun _ => rfl⟩
  · exact ⟨rfl, ibwt, fun _ => rfl⟩
  · exact ⟨rfl, fun x => .ok (mtfEncode x), fun _ => rfl⟩
  · exact ⟨rfl, fun y => .ok (mtfDecode y), fun _ => rfl⟩
  · exact ⟨rfl, fun x => .ok (hufCompress x), fun _ => rfl⟩
  · exact ⟨rfl, hufExpand, fun _ => rfl⟩
  · exact ⟨rfl, fun x => .ok (rleEncode x), fun _ => rfl⟩
  · exact ⟨rfl, rleDecode, fun _ => rfl⟩

/-- Settles O29: the function's answer, which is the same for both states, decides fault and destination. -/
theorem transformsReadOnlySourceData : Obligations.TransformsReadOnlySourceData := by
  unfold Obligations.TransformsReadOnlySourceData
  intro a b i s s' t t' mem legal ready ready' source h h'
  obtain ⟨slots, f, body⟩ := exists_function_of_transform mem
  have fields := TakenCommands.wellFormed_iff.mp legal
  have ha : a.toNat < Config.params.nslot := fields a (by simp [slots])
  have hb : b.toNat < Config.params.nslot := fields b (by simp [slots])
  have outcome {s : State} (ready : s.Ready) :
      exec i s = .next (transformed Config.params i a.toNat s (f (s.slot b.toNat).data)) := by
    rw [exec_eq_execFor]
    exact execFor_transform (TakenTransforms.takes_of_slotPair ready slots ha hb) (body s) ha
  have slot {s : State} (ready : s.Ready) (st : BitBuffer) : (s.setSlot a.toNat st).slot a.toNat = st :=
    slot_setSlot_same _ _ _ (ready.1.1 ▸ ha)
  have source' : (s'.slot b.toNat).data = (s.slot b.toNat).data := source.symm
  rw [outcome ready] at h
  rw [outcome ready', source'] at h'
  cases h
  cases h'
  cases f (s.slot b.toNat).data with
  | error x => exact .inl ⟨by simp [transformed], by simp [transformed], rfl, rfl⟩
  | ok out =>
    simp only [transformed, slotIndex]
    split
    · exact .inr ⟨ready.2, ready'.2, (slot ready _).trans (slot ready' _).symm⟩
    · exact .inl ⟨by simp, by simp, rfl, rfl⟩

end Sys2Proof.Proofs.Frames
end

section
/-! The Bit Buffer as a stream (spec/41_bitbuffer.md, sections 2 and 3): a buffer is determined by the bits written to
it, so what a write leaves is read off the stream; and what was written is read back. -/

namespace Sys2Proof.Proofs.BitStreams

open Sys2Proof Sys2Proof.Machine Sys2Proof.Proofs.TakenCommands Sys2Proof.Proofs.ByteReads

/-! Bits and the numbers they denote. -/

theorem bitsValue_lt (bits : Bits) : bitsValue bits < 2 ^ bits.length := by
  induction bits using List.reverseRecOn with
  | nil => simp [bitsValue]
  | append_singleton bs b ih =>
    have bit : b.toNat ≤ 1 := Bool.toNat_le b
    rw [bitsValue_append_singleton, List.length_append, List.length_singleton, pow_succ]
    omega

theorem toNat_injective : ∀ u v : Bool, u.toNat = v.toNat → u = v := by decide

/-- As many bits that denote the same number are the same bits. -/
theorem bits_eq_of_bitsValue {us vs : Bits} (length : us.length = vs.length) (value : bitsValue us = bitsValue vs) :
    us = vs := by
  induction us using List.reverseRecOn generalizing vs with
  | nil => exact (List.length_eq_zero_iff.mp length.symm).symm
  | append_singleton us u ih =>
    obtain rfl | ⟨vs, v, rfl⟩ := vs.eq_nil_or_concat'
    · simp at length
    · have bitU : u.toNat ≤ 1 := Bool.toNat_le u
      have bitV : v.toNat ≤ 1 := Bool.toNat_le v
      rw [bitsValue_append_singleton, bitsValue_append_singleton] at value
      have sameBit : u = v := toNat_injective u v (by omega)
      have sameBits : us = vs := ih (by simpa using length) (by omega)
      rw [sameBits, sameBit]

theorem flatMap_byteBits_length (bs : Bytes) : (bs.flatMap byteBits).length = 8 * bs.length := by
  induction bs with
  | nil => rfl
  | cons b bs ih => rw [List.flatMap_cons, List.length_append, ih, byteBits_length, List.length_cons]; ring

/-! A buffer is determined by its stream (10_state R21). -/

theorem streamBits_length {st : BitBuffer} (ok : EncodeOk st) :
    (streamBits st).length = 8 * st.data.length + st.npend := by
  obtain ⟨pending, -⟩ := ok
  rw [streamBits, List.length_append, flatMap_byteBits_length, lowBits_length _ (by omega)]

/-- `pend` holds no more than the pending bits, so they determine it. -/
theorem pend_eq_of_lowBits {u v : Byte} {k : Nat} (hk : k ≤ 7) (hu : u.toNat < 2 ^ k) (hv : v.toNat < 2 ^ k)
    (h : lowBits u k = lowBits v k) : u = v := by
  have value := congrArg bitsValue h
  rw [bitsValue_lowBits u (by omega), bitsValue_lowBits v (by omega), Nat.mod_eq_of_lt hu, Nat.mod_eq_of_lt hv] at value
  exact BitVec.eq_of_toNat_eq value

/-- Two legal buffers with the same stream have the same bytes and the same pending bits. -/
theorem encodeState_eq_of_stream {st st' : BitBuffer} (ok : EncodeOk st) (ok' : EncodeOk st')
    (stream : streamBits st = streamBits st') :
    st.data = st'.data ∧ st.npend = st'.npend ∧ st.pend = st'.pend := by
  have length := congrArg List.length stream
  rw [streamBits_length ok, streamBits_length ok'] at length
  obtain ⟨few, small⟩ := ok
  obtain ⟨few', small'⟩ := ok'
  have npend : st.npend = st'.npend := by omega
  have bytes : st.data.length = st'.data.length := by omega
  obtain ⟨dataBits, pendingBits⟩ :=
    List.append_inj stream (by rw [flatMap_byteBits_length, flatMap_byteBits_length, bytes])
  rw [← npend] at small' pendingBits
  exact ⟨flatMap_byteBits_inj dataBits, npend, pend_eq_of_lowBits few small small' pendingBits⟩

/-- Two writes that emit the same bits leave the same buffer. -/
theorem eq_of_writeKeeps {st st1 st2 : BitBuffer} (ok : EncodeOk st) (keeps1 : WriteKeeps st st1)
    (keeps2 : WriteKeeps st st2) (stream : streamBits st1 = streamBits st2) : st1 = st2 := by
  obtain ⟨data, npend, pend⟩ := encodeState_eq_of_stream (keeps1.ok ok) (keeps2.ok ok) stream
  have cursor := keeps1.cursor.trans keeps2.cursor.symm
  have cur := keeps1.cur.trans keeps2.cur.symm
  have rem := keeps1.rem.trans keeps2.rem.symm
  cases st1
  cases st2
  simp only [BitBuffer.mk.injEq] at *
  exact ⟨data, pend, npend, cursor, cur, rem⟩

/-! A byte write (41_bitbuffer R106). -/

/-- The byte that a byte write appends: the pending bits, then the head of the operand. -/
def splicedByte (st : BitBuffer) (v : Byte) : Byte :=
  BitVec.ofNat 8 (st.pend.toNat * 2 ^ (8 - st.npend) + v.toNat / 2 ^ st.npend)

theorem splicedByte_bits {st : BitBuffer} (v : Byte) (ok : EncodeOk st) :
    byteBits (splicedByte st v) = lowBits st.pend st.npend ++ (byteBits v).take (8 - st.npend) := by
  obtain ⟨few, small⟩ := ok
  have value : bitsValue (lowBits st.pend st.npend ++ (byteBits v).take (8 - st.npend)) =
      st.pend.toNat * 2 ^ (8 - st.npend) + v.toNat / 2 ^ st.npend := by
    rw [bitsValue_append, bitsValue_lowBits _ (by omega), Nat.mod_eq_of_lt small, bitsValue_take_byteBits v (by omega),
      List.length_take, byteBits_length, Nat.min_eq_left (Nat.sub_le _ _)]
  have length : (lowBits st.pend st.npend ++ (byteBits v).take (8 - st.npend)).length = 8 := by
    rw [List.length_append, lowBits_length _ (by omega), List.length_take, byteBits_length]
    omega
  have fits := bitsValue_lt (lowBits st.pend st.npend ++ (byteBits v).take (8 - st.npend))
  rw [length, value] at fits
  refine bits_eq_of_bitsValue length.symm ?_
  rw [bitsValue_byteBits, value, splicedByte, BitVec.toNat_ofNat, Nat.mod_eq_of_lt fits]

/-- The low bits of a byte's remainder are its own. -/
theorem lowBits_ofNat_mod (v : Byte) {k : Nat} (hk : k ≤ 7) :
    lowBits (BitVec.ofNat 8 (v.toNat % 2 ^ k)) k = lowBits v k := by
  have small : v.toNat % 2 ^ k < 2 ^ 8 := (Nat.mod_le _ _).trans_lt v.isLt
  refine bits_eq_of_bitsValue (by rw [lowBits_length _ (by omega), lowBits_length _ (by omega)]) ?_
  rw [bitsValue_lowBits _ (by omega), bitsValue_lowBits _ (by omega), BitVec.toNat_ofNat, Nat.mod_eq_of_lt small,
    Nat.mod_mod]

/-- What a byte write leaves: the splice appended, the tail of the operand pending (41_bitbuffer R106). -/
theorem bbWriteByte_eq {st : BitBuffer} (v : Byte) (ok : EncodeOk st) :
    bbWriteByte st v =
      { st with data := st.data ++ [splicedByte st v], pend := BitVec.ofNat 8 (v.toNat % 2 ^ st.npend) } := by
  have few : st.npend ≤ 7 := ok.1
  have small : v.toNat % 2 ^ st.npend < 2 ^ 8 := (Nat.mod_le _ _).trans_lt v.isLt
  have keeps : WriteKeeps st
      { st with data := st.data ++ [splicedByte st v], pend := BitVec.ofNat 8 (v.toNat % 2 ^ st.npend) } := by
    refine ⟨rfl, rfl, rfl, List.prefix_append _ _, fun _ => ⟨few, ?_⟩⟩
    simp only [BitVec.toNat_ofNat, Nat.mod_eq_of_lt small]
    exact Nat.mod_lt _ (Nat.two_pow_pos _)
  refine eq_of_writeKeeps ok (bbWriteByte_keeps st v) keeps ?_
  rw [bbWriteByte_stream v ok]
  simp only [streamBits, List.flatMap_append, List.flatMap_singleton, splicedByte_bits v ok, lowBits_ofNat_mod v few]
  rw [lowBits, lowBits, List.append_assoc, List.append_assoc, List.append_assoc, List.take_append_drop]

/-- Settles O32: the write appends one byte, whatever is pending. -/
theorem wrbyteAppendsSplicedByte : Obligations.WrbyteAppendsSplicedByte := by
  unfold Obligations.WrbyteAppendsSplicedByte
  intro a v s ready ha st
  have taken : Takes Config.params (.wrbyte a v) s := takes_of_slotFields ready rfl ha
  have body : bodyOf (.wrbyte a v) s = .ok (s.setSlot a.toNat (bbWriteByte st v)) := rfl
  rw [bbWriteByte_eq v (encodeOk_of_wf (ready_slot_wf ready ha))] at body
  rw [exec_eq_execFor, ← faultStatus_capacity]
  refine ⟨fun room => ?byteAppended, fun full => ?capacity⟩
  case byteAppended => exact taken.commits_setSlot body (by simpa using room)
  case capacity => exact taken.faults_capacity ha body (by simpa using full.ge)

/-! Runs of byte writes (41_bitbuffer R107, R108). -/

/-- Byte writes append as many bytes and leave as many bits pending. -/
theorem bbWriteBytes_lengths {st : BitBuffer} (bs : Bytes) (ok : EncodeOk st) :
    (bbWriteBytes st bs).data.length = st.data.length + bs.length ∧ (bbWriteBytes st bs).npend = st.npend := by
  have ok' := (bbWriteBytes_keeps st bs).ok ok
  have length := congrArg List.length (bbWriteBytes_stream bs ok)
  rw [streamBits_length ok', List.length_append, streamBits_length ok, flatMap_byteBits_length] at length
  obtain ⟨few, -⟩ := ok
  obtain ⟨few', -⟩ := ok'
  omega

/-- Settles O33: the sequence is read off before the write, so SA = SB makes no difference. -/
theorem wrbytesAppendsSourceData : Obligations.WrbytesAppendsSourceData := by
  unfold Obligations.WrbytesAppendsSourceData
  intro a b s ready ha hb st seq
  have taken : Takes Config.params (.wrbytes a b) s := TakenTransforms.takes_of_slotPair ready rfl ha hb
  have body : bodyOf (.wrbytes a b) s = .ok (s.setSlot a.toNat (bbWriteBytes st seq)) := rfl
  have ok : EncodeOk st := encodeOk_of_wf (ready_slot_wf ready ha)
  have keeps := bbWriteBytes_keeps st seq
  obtain ⟨length, npend⟩ := bbWriteBytes_lengths seq ok
  rw [exec_eq_execFor, ← faultStatus_capacity]
  refine ⟨fun fits => ⟨bbWriteBytes st seq, taken.commits_setSlot body (length.trans_le fits),
    bbWriteBytes_stream seq ok, length, npend, (keeps.ok ok).2, keeps.data, keeps.cursor, keeps.cur, keeps.rem⟩,
    fun tooLong => taken.faults_capacity ha body (tooLong.trans_eq length.symm)⟩

/-- Settles O34: WRINT writes the four bytes of its operand, the most significant first. -/
theorem wrintAppendsBigEndian : Obligations.WrintAppendsBigEndian := by
  unfold Obligations.WrintAppendsBigEndian
  intro a w s ready ha st
  have taken : Takes Config.params (.wrint a w) s := takes_of_slotFields ready rfl ha
  have body : bodyOf (.wrint a w) s = .ok (s.setSlot a.toNat (bbWriteInt st w)) := rfl
  have ok : EncodeOk st := encodeOk_of_wf (ready_slot_wf ready ha)
  have keeps := bbWriteInt_keeps st w
  have stream := bbWriteInt_stream w ok
  obtain ⟨length, npend⟩ := bbWriteBytes_lengths (wordBytes w) ok
  have aligned (nothing : st.npend = 0) : (bbWriteInt st w).data = st.data ++ wordBytes w := by
    rw [bbWriteInt, bbWriteBytes_aligned _ nothing]
  rw [exec_eq_execFor, ← faultStatus_capacity]
  refine ⟨fun fits => ⟨bbWriteInt st w, taken.commits_setSlot body (length.trans_le fits), ?_, length, npend,
    (keeps.ok ok).2, keeps.cursor, keeps.cur, keeps.rem, aligned⟩,
    fun tooLong => taken.faults_capacity ha body (tooLong.trans_eq length.symm)⟩
  simpa [wordBytes] using stream

/-! COPY (30_encoding R92). -/

theorem setSlot_setSlot (s : State) (n : Nat) (st st' : BitBuffer) :
    (s.setSlot n st).setSlot n st' = s.setSlot n st' := by
  simp [State.setSlot]

/-- Settles O46: NEW leaves the destination empty and the source, another slot, as it was; WRBYTES then appends to an
empty buffer with nothing pending. -/
theorem copyLeavesDestinationPreloaded : Obligations.CopyLeavesDestinationPreloaded := by
  unfold Obligations.CopyLeavesDestinationPreloaded
  refine ⟨fun a => if_pos rfl, fun d e s differ ready hd he => ?_⟩
  have empties : exec (.new d) s = .next (s.setSlot d.toNat (preloaded [])) :=
    BufferWrites.newEmptiesTheSlot d s ready hd
  have ready' : (s.setSlot d.toNat (preloaded [])).Ready :=
    ⟨Invariant.inv_setSlot_preloaded _ ready.1 (Nat.zero_le _), ready.2⟩
  have slots : e.toNat ≠ d.toNat := fun same => differ (BitVec.eq_of_toNat_eq same).symm
  have source : (s.setSlot d.toNat (preloaded [])).slot e.toNat = s.slot e.toNat := slot_setSlot_ne s _ _ _ slots
  have dest : (s.setSlot d.toNat (preloaded [])).slot d.toNat = preloaded [] :=
    slot_setSlot_same s _ _ (ready.1.1 ▸ hd)
  have taken : Takes Config.params (.wrbytes d e) (s.setSlot d.toNat (preloaded [])) :=
    TakenTransforms.takes_of_slotPair ready' rfl hd he
  have body : bodyOf (.wrbytes d e) (s.setSlot d.toNat (preloaded [])) =
      .ok (s.setSlot d.toNat (preloaded (s.slot e.toNat).data)) := by
    rw [bodyOf, wrbytesBody, writeBody, slotIndex, slotIndex, source, dest, setSlot_setSlot,
      bbWriteBytes_aligned _ (preloaded_npend _)]
    rfl
  refine ⟨.new d, .wrbytes d e, _, if_neg differ, empties, ?_⟩
  rw [exec_eq_execFor]
  refine taken.commits body ?_
  exact withinCapacity_setSlot _ (ready_withinCapacity ready) (slot_length_le ready he)

/-! Path equivalence (41_bitbuffer, section 3). -/

theorem bbWriteByte_eq_writeBits {st : BitBuffer} (v : Byte) (ok : EncodeOk st) :
    bbWriteByte st v = bbWriteBits st (byteBits v) :=
  eq_of_writeKeeps ok (bbWriteByte_keeps st v) (bbWriteBits_keeps st _)
    ((bbWriteByte_stream v ok).trans (bbWriteBits_stream _ ok).symm)

/-- The byte that the next eight unread bits make, shifted in. -/
theorem foldl_shiftInBit_eq {v : Byte} {bits : Bits} (h : byteBits v = bits) : bits.foldl shiftInBit 0 = v := by
  have length : bits.length = 8 := h ▸ byteBits_length v
  have low := lowBits_foldl_shiftInBit 0 bits length.le
  rw [length, lowBits_eight] at low
  exact byteBits_inj (low.trans h.symm)

/-- Aligned, eight bit reads pull the byte at the cursor and read all of it. -/
theorem bbReadBitsInto_aligned {st : BitBuffer} {v : Byte} (aligned : st.rem = 0) (hv : st.data[st.cursor]? = some v) :
    ∃ u, bbReadBitsInto 8 st 0 = .ok ({ st with cur := v, cursor := st.cursor + 1 }, u) := by
  obtain ⟨u, rest⟩ := bbReadBitsInto_of_le_rem (k := 7) (st := { st with cur := v, cursor := st.cursor + 1, rem := 7 })
    (shiftInBit 0 (v.getLsbD 7)) le_rfl
  refine ⟨u, ?_⟩
  rw [bbReadBitsInto, bbReadBit_pull aligned hv]
  simpa [aligned] using rest

/-- A byte read that answers returns what eight bit reads return, from the same place; aligned they leave another
`cur`, of which nothing is unread. -/
theorem bbReadBitsInto_of_bbReadByte {st st1 : BitBuffer} {v : Byte} (hr : st.rem ≤ 7)
    (h : bbReadByte st = .ok (st1, v)) :
    ∃ st2, bbReadBitsInto 8 st 0 = .ok (st2, v) ∧ st2.data = st1.data ∧ st2.cursor = st1.cursor ∧
      st2.rem = st1.rem ∧ (st1.cur = st2.cur ∨ st1.rem = 0) := by
  by_cases aligned : st.rem = 0
  · have byteSpec := bbReadByte_spec hr
    have bitsSpec := bbReadBitsInto_spec 8 (0 : Byte) hr
    split at byteSpec
    · next enough =>
      rw [if_pos enough] at bitsSpec
      obtain ⟨st', w, read, bits, -, -⟩ := byteSpec
      obtain ⟨st2, reads, -, -⟩ := bitsSpec
      rw [h] at read
      cases read
      rw [foldl_shiftInBit_eq bits] at reads
      rw [bbReadByte_aligned aligned] at h
      split at h
      · cases h
      · next u hu =>
        cases h
        obtain ⟨w, reads'⟩ := bbReadBitsInto_aligned aligned hu
        rw [reads] at reads'
        cases reads'
        exact ⟨_, reads, rfl, rfl, rfl, .inr aligned⟩
    · rw [byteSpec] at h
      cases h
  · rw [bbReadByte, if_neg aligned] at h
    exact ⟨st1, h, rfl, rfl, rfl, .inl rfl⟩

/-- Both ways of reading a byte run out of data with fewer than 8 bits unread. -/
theorem bbReadByte_error_iff {st : BitBuffer} (hr : st.rem ≤ 7) (x : FaultCode) :
    bbReadByte st = .error x ↔ bbReadBitsInto 8 st 0 = .error x := by
  have byteSpec := bbReadByte_spec hr
  have bitsSpec := bbReadBitsInto_spec 8 (0 : Byte) hr
  split at byteSpec
  · next enough =>
    rw [if_pos enough] at bitsSpec
    obtain ⟨_, _, read, -⟩ := byteSpec
    obtain ⟨_, reads, -⟩ := bitsSpec
    rw [read, reads]
    exact ⟨nofun, nofun⟩
  · next tooFew =>
    rw [if_neg tooFew] at bitsSpec
    rw [byteSpec, bitsSpec]

/-- Settles O44: both ways of writing emit the same bits, and both ways of reading take the same bits. -/
theorem byteAccessEqualsEightBitAccesses : Obligations.ByteAccessEqualsEightBitAccesses := by
  unfold Obligations.ByteAccessEqualsEightBitAccesses
  intro st wf
  obtain ⟨-, -, rem⟩ := (Invariant.wf_iff_fieldsOk.mp wf).2
  exact ⟨fun v => bbWriteByte_eq_writeBits v (encodeOk_of_wf wf), bbReadByte_error_iff rem,
    fun st1 v => bbReadBitsInto_of_bbReadByte rem⟩

/-! Write-read symmetry (41_bitbuffer R116). -/

theorem apply_keeps (st : BitBuffer) (w : StreamWrite) : WriteKeeps st (w.apply st) := by
  cases w with
  | bit b => exact bbWriteBit_keeps st b
  | byte v => exact bbWriteByte_keeps st v
  | int w => exact bbWriteInt_keeps st w

theorem apply_stream {st : BitBuffer} (w : StreamWrite) (ok : EncodeOk st) :
    streamBits (w.apply st) = streamBits st ++ w.bits := by
  cases w with
  | bit b => exact bbWriteBit_stream b ok
  | byte v => exact bbWriteByte_stream v ok
  | int w => exact bbWriteInt_stream w ok

/-- Writes add the bits they emit to the stream, in order. -/
theorem foldl_apply_stream (ws : List StreamWrite) {st : BitBuffer} (ok : EncodeOk st) :
    EncodeOk (ws.foldl StreamWrite.apply st) ∧
      streamBits (ws.foldl StreamWrite.apply st) = streamBits st ++ ws.flatMap StreamWrite.bits := by
  induction ws generalizing st with
  | nil => simpa using ok
  | cons w ws ih =>
    obtain ⟨ok', stream⟩ := ih ((apply_keeps st w).ok ok)
    refine ⟨ok', ?_⟩
    rw [List.foldl_cons, stream, apply_stream w ok, List.flatMap_cons, List.append_assoc]

/-- A flush pads the stream with fewer than 8 zero bits. -/
theorem exists_padding {st : BitBuffer} (ok : EncodeOk st) :
    ∃ pad, pad < 8 ∧ (bbFlush st).data.flatMap byteBits = streamBits st ++ List.replicate pad false := by
  refine ⟨_, ?_, bbFlush_data_bits ok⟩
  split <;> omega

/-- A read takes its width of the unread bits and returns the number they denote. -/
theorem streamRead_apply {st : BitBuffer} (r : StreamRead) (hr : st.rem ≤ 7)
    (enough : r.width ≤ (unreadBits st).length) :
    ∃ st', r.apply st = .ok (st', BitVec.ofNat 32 (bitsValue ((unreadBits st).take r.width))) ∧
      unreadBits st' = (unreadBits st).drop r.width ∧ st'.rem ≤ 7 := by
  cases r with
  | bit =>
    have spec := bbReadBit_spec hr
    split at spec
    · next nothing => simp [nothing, StreamRead.width] at enough
    · next b rest bits =>
      obtain ⟨st', read, unread⟩ := spec
      refine ⟨st', ?_, by simp [StreamRead.width, bits, unread], (bbReadBit_keeps read).rem hr⟩
      rw [StreamRead.apply, BufferReads.rdbitValue_of_ok read, bits]
      cases b <;> rfl
  | byte =>
    have enough8 : 8 ≤ (unreadBits st).length := enough
    have spec := bbReadByte_spec hr
    rw [if_pos enough8] at spec
    obtain ⟨st', v, read, bits, unread, keeps⟩ := spec
    refine ⟨st', ?_, unread, keeps.rem hr⟩
    rw [StreamRead.apply, BufferReads.rdbyteValue_of_ok read, StreamRead.width, ← bits, bitsValue_byteBits]
  | int =>
    have enough32 : 8 * 4 ≤ (unreadBits st).length := enough
    have spec := bbReadBytes_spec 4 hr
    rw [if_pos enough32] at spec
    obtain ⟨st', vs, read, -, -, unread, keeps⟩ := spec
    have read' := bbReadInt_of_le hr enough
    have state : st' = afterBytes st 4 := bbReadBytes_state hr read
    subst state
    exact ⟨_, BufferReads.rdintValue_of_ok read', unread, keeps.rem hr⟩

/-- Reads that take no more bits than are unread return the numbers those bits denote. -/
theorem streamReads_eq (rs : List StreamRead) {st : BitBuffer} (hr : st.rem ≤ 7)
    (enough : (rs.map StreamRead.width).sum ≤ (unreadBits st).length) :
    ∃ st', streamReads rs st = .ok (st', readValues rs (unreadBits st)) := by
  induction rs generalizing st with
  | nil => exact ⟨st, rfl⟩
  | cons r rs ih =>
    rw [List.map_cons, List.sum_cons] at enough
    obtain ⟨st1, first, unread, hr1⟩ := streamRead_apply r hr (by omega)
    obtain ⟨st2, others⟩ := ih hr1 (by rw [unread, List.length_drop]; omega)
    refine ⟨st2, ?_⟩
    simp only [streamReads, first, others, readValues, unread]

/-- Reads that stay inside the first bits do not see what follows. -/
theorem readValues_append (rs : List StreamRead) {bits : Bits} (tail : Bits)
    (enough : (rs.map StreamRead.width).sum ≤ bits.length) : readValues rs (bits ++ tail) = readValues rs bits := by
  induction rs generalizing bits with
  | nil => rfl
  | cons r rs ih =>
    rw [List.map_cons, List.sum_cons] at enough
    rw [readValues, readValues, List.take_append_of_le_length (by omega), List.drop_append_of_le_length (by omega),
      ih (by rw [List.length_drop]; omega)]

/-- Settles O45: the flushed bytes hold the written bits, and the reads see those bits alone. -/
theorem writesAreReadBack : Obligations.WritesAreReadBack := by
  unfold Obligations.WritesAreReadBack
  intro ws bits bytes
  obtain ⟨ok, stream⟩ := foldl_apply_stream ws encodeOk_empty
  obtain ⟨pad, few, padded⟩ := exists_padding ok
  have holds : bytes.flatMap byteBits = bits ++ List.replicate pad false := by
    rw [padded, stream]
    rfl
  refine ⟨⟨pad, few, holds⟩, fun rs enough => ?_⟩
  have unread : unreadBits (preloaded bytes) = bits ++ List.replicate pad false := holds
  obtain ⟨st, reads⟩ := streamReads_eq rs (st := preloaded bytes) (Nat.zero_le _)
    (by rw [unread, List.length_append]; omega)
  exact ⟨st, by rw [reads, unread, readValues_append rs _ enough]⟩

end Sys2Proof.Proofs.BitStreams
end

section
/-! The steps of the machine (spec/20_memory.md, section 3; spec/70_reset_and_hazards.md): what each host action
answers, and that a host which keeps its contract is never refused. -/

namespace Sys2Proof.Proofs.Steps

open Sys2Proof Sys2Proof.Machine

/-- ISSUE of a legal word runs its command, with the command index advanced (10_state R30). -/
theorem issue_of_decode {p : Params} {w : Word64} {i : Instr} {s : State} (legal : decode w p = some i) :
    issue w s p = execFor p i { s with issued := s.issued + 1 } := by
  obtain ⟨j, legal', runs⟩ | ⟨illegal, -⟩ | ⟨illegal, -⟩ := issue_cases p w s
  · rw [legal] at legal'
    cases legal'
    exact runs
  · simp [legal] at illegal
  · simp [legal] at illegal

theorem stepFor_issue_of_decode {p : Params} {s : State} {w : Word64} {rest : List HostAction} {i : Instr}
    (hq : s.NextIsIssue w rest) (legal : decode w p = some i) :
    stepFor p s = execFor p i { s with hostQueue := rest, issued := s.issued + 1 } := by
  have stepIssues : stepFor p s = issue w { s with hostQueue := rest } p := stepFor_cons hq
  rw [stepIssues, issue_of_decode legal]

/-- Settles O7: the step of this hardware is the step for its parameters. -/
theorem stepRunsDecodedCommand : Obligations.StepRunsDecodedCommand := by
  unfold Obligations.StepRunsDecodedCommand
  refine ⟨fun s w rest i hq legal => ?_, fun p s w rest i => stepFor_issue_of_decode,
    fun s => ⟨rfl, fun i => exec_eq_execFor i s⟩⟩
  rw [exec_eq_execFor]
  exact stepFor_issue_of_decode (p := Config.params) hq legal

/-- Settles O11: the answer of RESET is the state after reset with the host's side kept. -/
theorem resetActionResetsTheCore : Obligations.ResetActionResetsTheCore := by
  unfold Obligations.ResetActionResetsTheCore
  intro s rest hq
  exact ⟨_, step_cons hq, fun a _ => reset_slot a, rfl, rfl, rfl, rfl, rfl⟩

/-- HOST_READ of no slot of the core is refused (93_implementation_defined U19). -/
theorem hostRead_of_outsideContract {p : Params} (s : State) {a : Nat} (h : p.nslot ≤ a) :
    hostRead a s p = .refused .hostReadOutsideContract :=
  if_neg (Nat.not_lt.mpr h)

/-- Settles O13: the step is HOST_READ, whose answer its contract decides. -/
theorem hostReadReturnsData : Obligations.HostReadReturnsData := by
  unfold Obligations.HostReadReturnsData
  intro s a rest hq
  have stepReads : step s = hostRead a { s with hostQueue := rest } := step_cons hq
  rw [stepReads]
  exact ⟨FaultRecord.hostRead_of_inContract Config.params _, hostRead_of_outsideContract (p := Config.params) _⟩

/-- Settles O14: in a legal state the reserved bits of STATUS, which READREG masks, are 0. -/
theorem readRegReturnsValue : Obligations.ReadRegReturnsValue := by
  unfold Obligations.ReadRegReturnsValue
  intro s r rest hq inv
  have stepReads : step s = .next { s with hostQueue := rest, hostReply := regValue r s } := step_cons hq
  cases r with
  | res | fcmd => exact stepReads
  | status => rw [stepReads, FaultRecord.regValue_status_of_inv inv]

/-! Runs (70_reset_and_hazards, section 4). -/

/-- ISSUE always answers, and leaves the host's coming actions (70_reset R321). -/
theorem issue_next (p : Params) (w : Word64) (s : State) : ∃ t, issue w s p = .next t ∧ t.hostQueue = s.hostQueue := by
  obtain ⟨i, -, runs⟩ | ⟨-, -, discards⟩ | ⟨-, -, enters⟩ := issue_cases p w s
  · obtain ⟨t, ht⟩ := execFor_isNext p i { s with issued := s.issued + 1 }
    obtain ⟨queue, -⟩ := Frames.execFor_keeps_host ht
    exact ⟨t, runs.trans ht, queue⟩
  · exact ⟨_, discards, rfl⟩
  · exact ⟨_, enters, rfl⟩

/-- An action within the contract answers, and leaves the host's coming actions (20_memory R54 to R56). -/
theorem hostAct_next {p : Params} {act : HostAction} (s : State) (h : act.inContract p = true) :
    ∃ t, hostAct act s p = .next t ∧ t.hostQueue = s.hostQueue := by
  cases act with
  | issue w => exact issue_next p w s
  | readReg r => exact ⟨_, rfl, rfl⟩
  | reset => exact ⟨_, rfl, rfl⟩
  | load a bs =>
    simp only [HostAction.inContract, Bool.and_eq_true, decide_eq_true_eq] at h
    obtain ⟨ha, hb⟩ := h
    exact ⟨_, HostLoad.hostLoad_of_inContract p s ha hb, rfl⟩
  | read a =>
    simp only [HostAction.inContract, decide_eq_true_eq] at h
    exact ⟨_, FaultRecord.hostRead_of_inContract p s h, rfl⟩

/-- A step takes one action from a queue in contract, and the rest is still in contract. -/
theorem step_next {s : State} (h : ∀ act ∈ s.hostQueue, act.inContract = true) :
    ∃ t, step s = .next t ∧ ∀ act ∈ t.hostQueue, act.inContract = true := by
  cases hq : s.hostQueue with
  | nil => exact ⟨s, FaultRecord.idleCoreKeepsState s hq, h⟩
  | cons act rest =>
    rw [hq] at h
    obtain ⟨first, others⟩ := List.forall_mem_cons.mp h
    obtain ⟨t, answers, queue⟩ := hostAct_next { s with hostQueue := rest } first
    refine ⟨t, (step_cons hq).trans answers, ?_⟩
    rw [queue]
    exact others

/-- Settles O16, by induction on the run. -/
theorem hostInContractRunsForever : Obligations.HostInContractRunsForever := by
  unfold Obligations.HostInContractRunsForever
  intro k
  induction k with
  | zero => exact fun _ _ => trivial
  | succ k ih =>
    intro s h
    obtain ⟨t, steps, inContract⟩ := step_next h
    exact ⟨t, steps, ih t inContract⟩

end Sys2Proof.Proofs.Steps
end

section
/-! Which command raises which fault (spec/60_exceptions.md, section 1; spec/30_encoding.md, section 4). -/

namespace Sys2Proof.Proofs.FaultSources

open Sys2Proof Sys2Proof.Machine Sys2Proof.Proofs.TakenCommands Sys2Proof.Proofs.ReadLaws

/-! The CAPACITY check (30_encoding R90). -/

theorem withinCapacity_eq_false_iff {m : Nat} {s : State} :
    withinCapacity m s = false ↔ ∃ st ∈ s.slots, m < st.data.length := by
  simp [withinCapacity]

theorem withinCapacity_of_forall {m : Nat} {s : State} (h : ∀ st ∈ s.slots, st.data.length ≤ m) :
    withinCapacity m s = true := by
  simpa [withinCapacity] using h

/-- Settles O22: the check is of all slots of the candidate, and WRBYTE makes its slot one byte longer. -/
theorem capacityCheckForEveryMaxLen : Obligations.CapacityCheckForEveryMaxLen := by
  unfold Obligations.CapacityCheckForEveryMaxLen
  rw [← faultStatus_capacity]
  refine ⟨fun p i body s t unfaulted legal answers => ⟨fun long => ?tooLong, fun short => ?committed⟩,
    fun p a v s ready ha => ?wrbyte, params_inRange, rfl⟩
  case tooLong => exact runCommand_capacity unfaulted legal answers (withinCapacity_eq_false_iff.mpr long)
  case committed => exact runCommand_ok unfaulted legal answers (withinCapacity_of_forall short)
  case wrbyte =>
    have taken : Takes p (.wrbyte a v) s := takes_of_slotFields ready rfl ha
    have body : bodyOf (.wrbyte a v) s p = .ok (s.setSlot a.toNat (bbWriteByte (s.slot a.toNat) v)) := rfl
    refine ⟨fun full => ?capacity, fun room aligned => ?byteAppended⟩
    case capacity =>
      have ok : EncodeOk (s.slot a.toNat) := encodeOk_of_wf (ready_slot_wf ready ha)
      have long : p.maxLen < (bbWriteByte (s.slot a.toNat) v).data.length := by
        simp [BitStreams.bbWriteByte_eq v ok, full]
      exact taken.faults_capacity ha body long
    case byteAppended =>
      rw [bbWriteByte, if_pos aligned] at body
      exact taken.commits_setSlot body (by simpa using room)

/-! The faults of the commands' own rules. -/

theorem readBody_error {op : BitBuffer → Except FaultCode (BitBuffer × Word32)} {a : SlotNo} {s : State} {x : FaultCode}
    (answers : ∀ st, ReadAnswers st (op st)) (h : readBody op a s = .error x) : x = .outOfData := by
  rw [readBody] at h
  split at h
  · next fault =>
    cases h
    exact (answers _).outOfData fault
  · cases h

theorem transformBody_error {f : Bytes → Except FaultCode Bytes} {a b : SlotNo} {s : State} {x : FaultCode}
    (h : transformBody f a b s = .error x) : f (s.slot (slotIndex b)).data = .error x := by
  rw [transformBody] at h
  split at h
  · next fault =>
    cases h
    exact fault
  · cases h

theorem getbBody_error {a : SlotNo} {k : Word32} {s : State} {x : FaultCode} (h : getbBody a k s = .error x) :
    x = .indexRange := by
  rw [getbBody] at h
  split at h <;> cases h
  rfl

theorem setbBody_error {a : SlotNo} {k : Word32} {v : Byte} {s : State} {x : FaultCode}
    (h : setbBody a k v s = .error x) : x = .indexRange := by
  rw [setbBody] at h
  split at h <;> cases h
  rfl

/-- The commands whose rules can raise a fault, by the mnemonic (60_exceptions, section 1). -/
def faultSources : FaultCode → List String
  | .outOfData => ["RDBIT", "RDBYTE", "RDINT", "IBWT", "HUFX", "RLED"]
  | .indexRange => ["GETB", "SETB"]
  | .format => ["IBWT", "HUFX"]
  | .capacity => ["WRBIT", "WRBYTE", "WRBYTES", "WRINT", "FLUSH", "BWT", "HUFC", "RLEE", "RLED"]
  | .illegal => []

/-- A fault of a command's own rule comes from one of its sources. -/
theorem mnemonic_mem_of_body_error {i : Instr} {s : State} {x : FaultCode} (h : bodyOf i s = .error x) :
    i.mnemonic ∈ faultSources x := by
  cases i with
  | rdbit a => rw [readBody_error rdbitValue_answers h]; simp [faultSources, Instr.mnemonic]
  | rdbyte a => rw [readBody_error rdbyteValue_answers h]; simp [faultSources, Instr.mnemonic]
  | rdint a => rw [readBody_error rdintValue_answers h]; simp [faultSources, Instr.mnemonic]
  | getb a k => rw [getbBody_error h]; simp [faultSources, Instr.mnemonic]
  | setb a k v => rw [setbBody_error h]; simp [faultSources, Instr.mnemonic]
  | ibwt a b => obtain rfl | rfl := ibwt_error (transformBody_error h) <;> simp [faultSources, Instr.mnemonic]
  | hufx a b => obtain rfl | rfl := hufExpand_error (transformBody_error h) <;> simp [faultSources, Instr.mnemonic]
  | rled a b => rw [rleDecode_error (transformBody_error h)]; simp [faultSources, Instr.mnemonic]
  | _ => cases h

/-! The commands that cannot make a slot too long (30_encoding R90). -/

theorem hufDecodeLoop_length {root : HufTree} {k : Nat} {inp out out' : BitBuffer} (aligned : out.npend = 0)
    (h : hufDecodeLoop root k inp out = .ok out') :
    out'.npend = 0 ∧ out'.data.length = out.data.length + k := by
  induction k generalizing inp out with
  | zero =>
    cases h
    exact ⟨aligned, rfl⟩
  | succ k ih =>
    rw [hufDecodeLoop] at h
    split at h
    · cases h
    · rw [bbWriteByte, if_pos aligned] at h
      obtain ⟨npend, length⟩ := ih (out := bbAppend out _) aligned h
      refine ⟨npend, ?_⟩
      rw [length, bbAppend_data, List.length_append, List.length_singleton]
      omega

/-- An `i32` is below 2^31 (00_scope R11). -/
theorem asI32_le (w : Word32) : asI32 w ≤ 0x7FFFFFFF := by
  have := w.isLt
  rw [asI32]
  split <;> omega

theorem bbReadInt_le {st st' : BitBuffer} {n : Int} (h : bbReadInt st = .ok (st', n)) : n ≤ 0x7FFFFFFF := by
  rw [ByteReads.bbReadInt_eq_map] at h
  cases bytes : bbReadBytes 4 st with
  | error x => simp [bytes, Except.map] at h
  | ok r =>
    rw [bytes] at h
    cases h
    exact asI32_le _

/-- An expansion has as many bytes as its header says, which is an `i32` (44_huffman R212). -/
theorem hufExpand_length {bs out : Bytes} (h : hufExpand bs = .ok out) : out.length ≤ Config.MAX_LEN := by
  have maxLen : (Config.MAX_LEN : Int) = 0x7FFFFFFF := rfl
  rw [hufExpand] at h
  split at h
  · cases h
  · next inp n header =>
    have small := bbReadInt_le header
    split at h
    · cases h
    · split at h
      · cases h
        exact Nat.zero_le _
      · split at h
        · cases h
        · split at h
          · cases h
          · next out' loop =>
            cases h
            obtain ⟨aligned, length⟩ := hufDecodeLoop_length (empty_npend) loop
            rw [bbFlush_aligned aligned, length, empty_data, List.length_nil]
            omega

theorem ibwt_length {bs out : Bytes} (h : ibwt bs = .ok out) : out.length ≤ bs.length := by
  obtain short | exact4 | long := Nat.lt_trichotomy bs.length 4
  · rw [InverseBwt.ibwt_of_lt short] at h
    cases h
  · rw [InverseBwt.ibwt_of_eq exact4] at h
    cases h
    exact Nat.zero_le _
  · rw [InverseBwt.ibwt_of_gt long] at h
    split at h
    · cases h
    · cases h
      rw [ibwtChase_length]
      exact Nat.sub_le _ _

theorem withinCapacity_of_readBody {op : BitBuffer → Except FaultCode (BitBuffer × Word32)} {a : SlotNo} {s t : State}
    (ready : s.Ready) (ha : slotIndex a < Config.NSLOT) (answers : ∀ st, ReadAnswers st (op st))
    (h : readBody op a s = .ok t) : withinCapacity Config.MAX_LEN t = true := by
  obtain ⟨st, v, read, rfl⟩ := readBody_ok h
  have data := ((answers _).keeps read).data
  exact withinCapacity_setSlot _ (ready_withinCapacity ready) (data ▸ slot_length_le ready ha)

/-- A transform whose output is no longer than MAX_LEN leaves all slots short enough. -/
theorem withinCapacity_of_transformBody {f : Bytes → Except FaultCode Bytes} {a b : SlotNo} {s t : State}
    (ready : s.Ready) (h : transformBody f a b s = .ok t)
    (short : ∀ out, f (s.slot (slotIndex b)).data = .ok out → out.length ≤ Config.MAX_LEN) :
    withinCapacity Config.MAX_LEN t = true := by
  obtain ⟨out, answer, rfl⟩ := transformBody_ok h
  exact withinCapacity_setSlot _ (ready_withinCapacity ready) (short out answer)

/-- The commands that are no source of CAPACITY leave all slots short enough: they append nothing, or no more than
the source holds, or as many bytes as an `i32` says. -/
theorem withinCapacity_of_bodyOf {i : Instr} {s t : State} (ready : s.Ready) (legal : i.wellFormed = true)
    (noSource : i.mnemonic ∉ faultSources .capacity) (h : bodyOf i s = .ok t) :
    withinCapacity Config.MAX_LEN t = true := by
  have within : withinCapacity Config.MAX_LEN s = true := ready_withinCapacity ready
  have slot {a : SlotNo} (mem : a ∈ i.slotFields) : slotIndex a < Config.NSLOT := wellFormed_iff.mp legal a mem
  have source {b : SlotNo} (mem : b ∈ i.slotFields) : (s.slot (slotIndex b)).data.length ≤ Config.MAX_LEN :=
    slot_length_le ready (slot mem)
  cases i with
  | wrbit | wrbyte | wrbytes | wrint | flush | bwt | hufc | rlee | rled =>
    simp [faultSources, Instr.mnemonic] at noSource
  | new a => cases h; exact withinCapacity_setSlot _ within (Nat.zero_le _)
  | rstpos a => cases h; exact withinCapacity_setSlot _ within (source (.head _))
  | rdbit a => exact withinCapacity_of_readBody ready (slot (.head _)) rdbitValue_answers h
  | rdbyte a => exact withinCapacity_of_readBody ready (slot (.head _)) rdbyteValue_answers h
  | rdint a => exact withinCapacity_of_readBody ready (slot (.head _)) rdintValue_answers h
  | eod | len | clrf => cases h; exact within
  | getb a k => obtain ⟨v, -, rfl⟩ := getbBody_ok h; exact within
  | setb a k v => obtain ⟨-, rfl⟩ := setbBody_ok h; exact memWrite_keeps_memory_wf (p := Config.params) _ _ v within
  | ibwt a b =>
    exact withinCapacity_of_transformBody ready h fun out answer =>
      (ibwt_length answer).trans (source (.tail _ (.head _)))
  | hufx a b => exact withinCapacity_of_transformBody ready h fun out answer => hufExpand_length answer
  | mtfe a b =>
    cases h
    refine withinCapacity_setSlot _ within ?_
    rw [preloaded_data, mtfEncode_eq, mtfIndices_length]
    exact source (.tail _ (.head _))
  | mtfd a b =>
    cases h
    refine withinCapacity_setSlot _ within ?_
    rw [preloaded_data, mtfDecode_eq, mtfEntries_length]
    exact source (.tail _ (.head _))

/-- The fault codes are distinct in STATUS (60_exceptions R270, R271). -/
theorem faultStatus_injective {x y : FaultCode} (h : faultStatus x = faultStatus y) : x = y := by
  revert h
  cases x <;> cases y <;> decide

theorem statusFault_faultStatus (x : FaultCode) : statusFault (faultStatus x) = true := by
  cases x <;> decide

/-- A code that a well-formed command leaves in STATUS comes from one of the code's sources. -/
theorem mnemonic_mem_faultSources {i : Instr} {s t : State} {x : FaultCode} (ready : s.Ready)
    (legal : i.wellFormed = true) (h : exec i s = .next t) (status : t.status = faultStatus x) :
    i.mnemonic ∈ faultSources x := by
  have faulted : t.faulted = true := (congrArg statusFault status).trans (statusFault_faultStatus x)
  have notClrf : i ≠ .clrf := by
    rintro rfl
    cases h
    simp at faulted
  cases Frames.exec_does notClrf h with
  | discarded faulted => exact absurd (faulted.symm.trans ready.2) (by decide)
  | illegal _ illFormed => exact absurd (illFormed.symm.trans legal) (by decide)
  | faults y _ _ fault =>
    obtain rfl := faultStatus_injective status
    exact mnemonic_mem_of_body_error fault
  | tooLong t' _ _ answers long =>
    obtain rfl := faultStatus_injective status
    by_contra noSource
    exact absurd (long.symm.trans (withinCapacity_of_bodyOf ready legal noSource answers)) (by decide)
  | commits _ unfaulted _ answers _ =>
    obtain ⟨keeps, -⟩ := bodyOf_frame notClrf answers
    exact absurd ((congrArg statusFault keeps.status).symm.trans faulted) (ne_true_of_eq_false unfaulted)

/-- Settles O20: the sources of ILLEGAL are none. -/
theorem faultsComeFromTheirCommands : Obligations.FaultsComeFromTheirCommands := by
  unfold Obligations.FaultsComeFromTheirCommands
  intro i s t x ready legal h status
  have mem := mnemonic_mem_faultSources ready legal h status
  cases x with
  | illegal => exact List.not_mem_nil mem
  | _ => exact mem

end Sys2Proof.Proofs.FaultSources
end

section
/-! The round trip of move-to-front (spec/43_mtf.md, section 2). -/

namespace Sys2Proof.Proofs.MtfRoundTrip

open Sys2Proof Sys2Proof.Machine Sys2Proof.Proofs.MoveToFront

theorem mtfIdentity_nodup : mtfIdentity.Nodup := by
  refine List.Nodup.map_on (fun i hi j hj same => ?_) List.nodup_range
  rw [List.mem_range] at hi hj
  have value := congrArg BitVec.toNat same
  rwa [BitVec.toNat_ofNat, BitVec.toNat_ofNat, Nat.mod_eq_of_lt hi, Nat.mod_eq_of_lt hj] at value

/-- The entries of the recency list are distinct, so an entry's index is the one it was taken from. -/
theorem idxOf_getD {arr : Bytes} (perm : arr.Perm mtfIdentity) (c : Byte) :
    arr.idxOf (arr.getD c.toNat 0) = c.toNat := by
  have inList := toNat_lt_length perm c
  rw [List.getD_eq_getElem _ _ inList]
  exact (perm.nodup_iff.mpr mtfIdentity_nodup).idxOf_getElem _ inList

/-- Encoding the emitted entries from the same list on gives the indices back: both sides make the same moves. -/
theorem mtfIndices_mtfEntries {arr : Bytes} (perm : arr.Perm mtfIdentity) (cs : Bytes) :
    mtfIndices arr (mtfEntries arr cs) = cs := by
  induction cs generalizing arr with
  | nil => rfl
  | cons c cs ih =>
    have moved : (mtfMove arr c.toNat).Perm mtfIdentity := (mtfMove_perm (toNat_lt_length perm c)).trans perm
    rw [mtfEntries, mtfIndices, idxOf_getD perm, ih moved, BitVec.ofNat_toNat, BitVec.setWidth_eq]

/-- Settles O57: from the identity on, each side undoes the other. -/
theorem mtfRoundTrip : Obligations.MtfRoundTrip := by
  unfold Obligations.MtfRoundTrip
  intro x
  simp only [mtfEncode_eq, mtfDecode_eq]
  exact ⟨mtfEntries_mtfIndices (List.Perm.refl _) x, mtfIndices_mtfEntries (List.Perm.refl _) x⟩

end Sys2Proof.Proofs.MtfRoundTrip
end

section
/-! A reader at a byte boundary (spec/41_bitbuffer.md rules R112, R113), by the bytes it has left. -/

namespace Sys2Proof.Proofs.AlignedReader

open Sys2Proof Sys2Proof.Machine

/-- The reader stands at a byte boundary and has the bytes `rest` left. -/
structure HasLeft (st : BitBuffer) (rest : Bytes) : Prop where
  aligned : st.rem = 0
  inside : st.cursor ≤ st.data.length
  left : st.data.drop st.cursor = rest

theorem hasLeft_preloaded (bs : Bytes) : HasLeft (preloaded bs) bs := ⟨rfl, Nat.zero_le _, rfl⟩

variable {st : BitBuffer} {rest : Bytes} {v : Byte}

theorem HasLeft.length (h : HasLeft st rest) : rest.length = st.data.length - st.cursor := by
  rw [← h.left, List.length_drop]

/-- The end of data is when no byte is left (41_bitbuffer R118). -/
theorem HasLeft.isEndOfData (h : HasLeft st rest) : bbIsEndOfData st = true ↔ rest = [] := by
  have length := h.length
  have inside := h.inside
  rw [bbIsEndOfData, decide_eq_true_iff, ← List.length_eq_zero_iff]
  omega

theorem HasLeft.readByte_nil (h : HasLeft st []) : bbReadByte st = .error .outOfData := by
  have beyond : st.data[st.cursor]? = none := List.getElem?_eq_none (List.drop_eq_nil_iff.mp h.left)
  rw [bbReadByte_aligned h.aligned, beyond]

theorem HasLeft.readByte_cons (h : HasLeft st (v :: rest)) :
    ∃ st', bbReadByte st = .ok (st', v) ∧ HasLeft st' rest := by
  have atCursor : st.data[st.cursor]? = some v := by
    rw [← List.head?_drop, h.left, List.head?_cons]
  obtain ⟨inside, -⟩ := List.getElem?_eq_some_iff.mp atCursor
  refine ⟨{ st with cursor := st.cursor + 1 }, ?_, h.aligned, inside, ?_⟩
  · rw [bbReadByte_aligned h.aligned, atCursor]
  · rw [← List.drop_drop, h.left, List.drop_one, List.tail_cons]

theorem HasLeft.readBytes_of_le {k : Nat} (h : HasLeft st rest) (enough : k ≤ rest.length) :
    ∃ st', bbReadBytes k st = .ok (st', rest.take k) ∧ HasLeft st' (rest.drop k) := by
  have length := h.length
  have inside := h.inside
  have fits : st.cursor + k ≤ st.data.length := by omega
  refine ⟨{ st with cursor := st.cursor + k }, ?_, h.aligned, fits, ?_⟩
  · rw [bbReadBytes_aligned k h.aligned inside, if_pos fits, h.left]
  · rw [← List.drop_drop, h.left]

theorem HasLeft.readBytes_of_lt {k : Nat} (h : HasLeft st rest) (tooFew : rest.length < k) :
    bbReadBytes k st = .error .outOfData := by
  have length := h.length
  rw [bbReadBytes_aligned k h.aligned h.inside, if_neg (by omega)]

end Sys2Proof.Proofs.AlignedReader
end

section
/-! Run-length decoding (spec/45_rle.md, sections 1 and 3), a block at a time, and its round trip. -/

namespace Sys2Proof.Proofs.RunLengthDecode

open Sys2Proof Sys2Proof.Machine Sys2Proof.Proofs.TakenCommands Sys2Proof.Proofs.AlignedReader
  Sys2Proof.Proofs.RunLengthEncode

/-! One block, by the bytes of the stream (45_rle R240, R245, R246). -/

/-- The count of a block with header byte `h`, and the bytes after the count. -/
def blockCount (h : Byte) (rest : Bytes) : Option (Nat × Bytes) :=
  if h.getLsbD 6 then
    match rest with
    | [] => none
    | lo :: rest' => some ((h.extractLsb' 0 6).toNat * 256 + lo.toNat, rest')
  else some ((h.extractLsb' 0 6).toNat, rest)

/-- The bytes a block of count `c` stands for, and the bytes after the block. -/
def blockContent (rep : Bool) (c : Nat) (rest : Bytes) : Option (Bytes × Bytes) :=
  if rep then
    match rest with
    | [] => none
    | v :: rest' => some (List.replicate c v, rest')
  else if c ≤ rest.length then some (rest.take c, rest.drop c) else none

/-- The block with header byte `h`: the bytes it stands for and the bytes after it, or none if it is cut. -/
def blockOf (h : Byte) (rest : Bytes) : Option (Bytes × Bytes) :=
  (blockCount h rest).bind fun count => blockContent (h.getLsbD 7) count.1 count.2

/-- A reader that answers as `parse` does: its value, with what is left, or OUT_OF_DATA. -/
def Follows {α : Type} (r : Except FaultCode (BitBuffer × α)) : Option (α × Bytes) → Prop
  | some (a, rest) => ∃ st, r = .ok (st, a) ∧ HasLeft st rest
  | none => r = .error .outOfData

theorem rleReadCount_follows {st : BitBuffer} {rest : Bytes} (h : Byte) (left : HasLeft st rest) :
    Follows (rleReadCount h st) (blockCount h rest) := by
  unfold rleReadCount blockCount
  split
  · cases rest with
    | nil => rw [left.readByte_nil]; rfl
    | cons lo rest =>
      obtain ⟨st', read, left'⟩ := left.readByte_cons
      rw [read]
      exact ⟨st', rfl, left'⟩
  · exact ⟨st, rfl, left⟩

theorem rleReadBlock_follows {st : BitBuffer} {rest : Bytes} (rep : Bool) (c : Nat) (left : HasLeft st rest) :
    Follows (rleReadBlock rep c st) (blockContent rep c rest) := by
  unfold rleReadBlock blockContent
  split
  · cases rest with
    | nil => rw [left.readByte_nil]; rfl
    | cons v rest =>
      obtain ⟨st', read, left'⟩ := left.readByte_cons
      rw [read]
      exact ⟨st', rfl, left'⟩
  · split
    · next enough => exact left.readBytes_of_le enough
    · next tooFew => exact left.readBytes_of_lt (Nat.lt_of_not_le tooFew)

/-! The decoding loop (45_rle R245). -/

/-- A round of the loop that finds a whole block writes its bytes and goes on after it. -/
theorem rleDecodeLoop_block {fuel : Nat} {inp out : BitBuffer} {h : Byte} {rest vs rest' : Bytes}
    (left : HasLeft inp (h :: rest)) (block : blockOf h rest = some (vs, rest')) :
    ∃ inp', HasLeft inp' rest' ∧
      rleDecodeLoop (fuel + 1) inp out = rleDecodeLoop fuel inp' (bbWriteBytes out vs) := by
  obtain ⟨⟨c, rest1⟩, count, content⟩ := Option.bind_eq_some_iff.mp block
  have goesOn : bbIsEndOfData inp ≠ true := fun atEnd => List.cons_ne_nil _ _ (left.isEndOfData.mp atEnd)
  obtain ⟨inp1, header, left1⟩ := left.readByte_cons
  have counted := rleReadCount_follows h left1
  rw [count] at counted
  obtain ⟨inp2, readCount, left2⟩ := counted
  have contained := rleReadBlock_follows (h.getLsbD 7) c left2
  rw [content] at contained
  obtain ⟨inp3, readBlock, left3⟩ := contained
  refine ⟨inp3, left3, ?_⟩
  simp only [rleDecodeLoop, if_neg goesOn, header, readCount, readBlock]

/-- A round of the loop in a cut block runs out of data. -/
theorem rleDecodeLoop_cut {fuel : Nat} {inp out : BitBuffer} {h : Byte} {rest : Bytes}
    (left : HasLeft inp (h :: rest)) (cut : blockOf h rest = none) :
    rleDecodeLoop (fuel + 1) inp out = .error .outOfData := by
  have goesOn : bbIsEndOfData inp ≠ true := fun atEnd => List.cons_ne_nil _ _ (left.isEndOfData.mp atEnd)
  obtain ⟨inp1, header, left1⟩ := left.readByte_cons
  have counted := rleReadCount_follows h left1
  cases count : blockCount h rest with
  | none =>
    rw [count] at counted
    have readCount : rleReadCount h inp1 = .error .outOfData := counted
    simp only [rleDecodeLoop, if_neg goesOn, header, readCount]
  | some counts =>
    obtain ⟨c, rest1⟩ := counts
    rw [count] at counted
    obtain ⟨inp2, readCount, left2⟩ := counted
    have contained := rleReadBlock_follows (h.getLsbD 7) c left2
    rw [blockOf, count, Option.bind_some] at cut
    rw [cut] at contained
    have readBlock : rleReadBlock (h.getLsbD 7) c inp2 = .error .outOfData := contained
    simp only [rleDecodeLoop, if_neg goesOn, header, readCount, readBlock]

theorem rleDecodeLoop_end {fuel : Nat} {inp out : BitBuffer} (left : HasLeft inp []) :
    rleDecodeLoop fuel inp out = .ok out := by
  have atEnd : bbIsEndOfData inp = true := left.isEndOfData.mpr rfl
  cases fuel <;> simp only [rleDecodeLoop, atEnd, if_true]

theorem blockCount_length {h : Byte} {rest rest' : Bytes} {c : Nat} (hc : blockCount h rest = some (c, rest')) :
    rest'.length ≤ rest.length := by
  unfold blockCount at hc
  split at hc
  · split at hc
    · cases hc
    · cases hc
      exact Nat.le_succ _
  · cases hc
    exact le_rfl

theorem blockContent_length {rep : Bool} {c : Nat} {rest vs rest' : Bytes}
    (hc : blockContent rep c rest = some (vs, rest')) : rest'.length ≤ rest.length := by
  unfold blockContent at hc
  split at hc
  · split at hc
    · cases hc
    · cases hc
      exact Nat.le_succ _
  · split at hc
    · cases hc
      rw [List.length_drop]
      exact Nat.sub_le _ _
    · cases hc

theorem blockOf_length {h : Byte} {rest vs rest' : Bytes} (block : blockOf h rest = some (vs, rest')) :
    rest'.length ≤ rest.length := by
  obtain ⟨⟨c, rest1⟩, count, content⟩ := Option.bind_eq_some_iff.mp block
  exact (blockContent_length content).trans (blockCount_length count)

/-- The output with the bytes `vs` added. -/
def appendBytes (out : BitBuffer) (vs : Bytes) : BitBuffer := { out with data := out.data ++ vs }

theorem appendBytes_appendBytes (out : BitBuffer) (us vs : Bytes) :
    appendBytes (appendBytes out us) vs = appendBytes out (us ++ vs) := by
  simp [appendBytes]

/-- What the loop adds to its output is told by the bytes left alone: not by the fuel, if it is enough for them, nor by
the output so far. -/
theorem exists_rleDecodeLoop_eq (rest : Bytes) :
    ∃ r : Except FaultCode Bytes, ∀ (fuel : Nat) (inp out : BitBuffer), HasLeft inp rest → rest.length ≤ fuel →
      out.npend = 0 → rleDecodeLoop fuel inp out = r.map (appendBytes out) := by
  induction hn : rest.length using Nat.strong_induction_on generalizing rest with
  | _ n ih =>
    cases rest with
    | nil =>
      refine ⟨.ok [], fun fuel inp out left _ _ => ?_⟩
      rw [rleDecodeLoop_end left]
      simp [Except.map, appendBytes]
    | cons h rest =>
      rw [List.length_cons] at hn
      cases block : blockOf h rest with
      | none =>
        refine ⟨.error .outOfData, fun fuel inp out left enough _ => ?_⟩
        obtain ⟨fuel, rfl⟩ := Nat.exists_eq_add_of_le' (Nat.one_le_of_lt (hn.trans_le enough : rest.length < _))
        rw [rleDecodeLoop_cut left block]
        rfl
      | some result =>
        obtain ⟨vs, rest'⟩ := result
        have shorter := blockOf_length block
        obtain ⟨r, hr⟩ := ih rest'.length (by omega) rest' rfl
        refine ⟨r.map (vs ++ ·), fun fuel inp out left enough aligned => ?_⟩
        obtain ⟨fuel, rfl⟩ : ∃ k, fuel = k + 1 := ⟨fuel - 1, by omega⟩
        obtain ⟨inp', left', step⟩ := rleDecodeLoop_block (fuel := fuel) (out := out) left block
        have written : bbWriteBytes out vs = appendBytes out vs := bbWriteBytes_aligned vs aligned
        rw [step, written, hr fuel inp' (appendBytes out vs) left' (by omega) aligned]
        cases r with
        | error x => rfl
        | ok us => exact congrArg Except.ok (appendBytes_appendBytes out vs us)

/-- The loop decodes what is left. -/
theorem rleDecodeLoop_eq {fuel : Nat} {inp out : BitBuffer} {rest : Bytes} (left : HasLeft inp rest)
    (enough : rest.length ≤ fuel) (aligned : out.npend = 0) :
    rleDecodeLoop fuel inp out = (rleDecode rest).map (appendBytes out) := by
  obtain ⟨r, hr⟩ := exists_rleDecodeLoop_eq rest
  have whole := hr rest.length (preloaded rest) BitBuffer.empty (hasLeft_preloaded rest) le_rfl rfl
  have decoded : rleDecode rest = r := by
    rw [rleDecode, whole]
    cases r <;> rfl
  rw [decoded]
  exact hr fuel inp out left enough aligned

theorem rleDecode_nil : rleDecode [] = .ok [] := rfl

/-- A whole block decodes to its bytes, and then the rest is decoded. -/
theorem rleDecode_block {h : Byte} {rest vs rest' : Bytes} (block : blockOf h rest = some (vs, rest')) :
    rleDecode (h :: rest) = (rleDecode rest').map (vs ++ ·) := by
  obtain ⟨inp, left, step⟩ :=
    rleDecodeLoop_block (fuel := rest.length) (out := BitBuffer.empty) (hasLeft_preloaded (h :: rest)) block
  rw [bbWriteBytes_aligned vs rfl, rleDecodeLoop_eq left (blockOf_length block) rfl] at step
  rw [rleDecode, List.length_cons, step]
  cases rleDecode rest' <;> rfl

theorem rleDecode_cut {h : Byte} {rest : Bytes} (cut : blockOf h rest = none) :
    rleDecode (h :: rest) = .error .outOfData := by
  rw [rleDecode, List.length_cons, rleDecodeLoop_cut (hasLeft_preloaded _) cut]

/-! The headers (45_rle R240). -/

/-- The bits of a header byte: the repeat flag, the size flag and six bits of the count. -/
theorem header_bits (rep large : Bool) {k : Nat} (hk : k < 64) :
    let h := BitVec.ofNat 8 ((if rep then 128 else 0) + (if large then 64 else 0) + k)
    h.getLsbD 7 = rep ∧ h.getLsbD 6 = large ∧ (h.extractLsb' 0 6).toNat = k := by
  revert rep large k
  decide

/-- A small header holds its count. -/
theorem blockOf_small (rep : Bool) {c : Nat} (hc : c ≤ 63) (rest : Bytes) :
    blockOf (BitVec.ofNat 8 ((if rep then 128 else 0) + c)) rest = blockContent rep c rest := by
  obtain ⟨flag, size, count⟩ := header_bits rep false (Nat.lt_succ_of_le hc)
  simp only [Bool.false_eq_true, if_false, Nat.add_zero] at flag size count
  simp only [blockOf, blockCount, flag, size, count, Bool.false_eq_true, if_false, Option.bind_some]

/-- A large header holds the high bits of its count, and the next byte the low ones. -/
theorem blockOf_large (rep : Bool) {c : Nat} (hc : c ≤ 16383) (rest : Bytes) :
    blockOf (BitVec.ofNat 8 ((if rep then 128 else 0) + 64 + c / 256)) (BitVec.ofNat 8 c :: rest) =
      blockContent rep c rest := by
  obtain ⟨flag, size, count⟩ := header_bits rep true (k := c / 256) (by omega)
  simp only [if_true] at flag size count
  have whole : c / 256 * 256 + (BitVec.ofNat 8 c).toNat = c := by
    rw [BitVec.toNat_ofNat]
    omega
  simp only [blockOf, blockCount, flag, size, count, if_true, whole, Option.bind_some]

theorem blockContent_literal (lits rest : Bytes) :
    blockContent false lits.length (lits ++ rest) = some (lits, rest) := by
  simp [blockContent]

theorem blockContent_short {c : Nat} {lits : Bytes} (short : lits.length < c) : blockContent false c lits = none := by
  simp [blockContent, short]

theorem blockContent_repeat (c : Nat) (v : Byte) (rest : Bytes) :
    blockContent true c (v :: rest) = some (List.replicate c v, rest) := rfl

theorem blockContent_repeat_nil (c : Nat) : blockContent true c [] = none := rfl

theorem flags_of_le {h : Byte} (large : 192 ≤ h.toNat) : h.getLsbD 7 = true ∧ h.getLsbD 6 = true := by
  revert h
  decide

theorem eq_zero_of_header {h : Byte} (flag : h.getLsbD 7 = false) (size : h.getLsbD 6 = false)
    (count : (h.extractLsb' 0 6).toNat = 0) : h = 0 := by
  revert h
  decide

/-- Only the header 0, a literal of no bytes, is a whole block of its own. -/
theorem blockOf_nil {h : Byte} (positive : 0 < h.toNat) : blockOf h [] = none := by
  cases size : h.getLsbD 6 with
  | true => simp only [blockOf, blockCount, size, if_true, Option.bind_none]
  | false =>
    cases flag : h.getLsbD 7 with
    | true =>
      simp only [blockOf, blockCount, size, flag, Bool.false_eq_true, if_false, Option.bind_some,
        blockContent_repeat_nil]
    | false =>
      have nonzero : (h.extractLsb' 0 6).toNat ≠ 0 := fun count => by
        rw [eq_zero_of_header flag size count] at positive
        exact absurd positive (by decide)
      simp only [blockOf, blockCount, size, flag, Bool.false_eq_true, if_false, Option.bind_some, blockContent,
        List.length_nil, Nat.le_zero, if_neg nonzero]

/-- Settles O56: a header says how many bytes its block has, and a block that has them decodes to its content. -/
theorem rledDecodesBlockByBlock : Obligations.RledDecodesBlockByBlock := by
  unfold Obligations.RledDecodesBlockByBlock
  refine ⟨rleDecode_nil, fun c lits rest hc length => ?smallLiteral, fun c lits rest hc length => ?largeLiteral,
    fun c v rest hc => ?smallRepeat, fun c v rest hc => ?largeRepeat, fun c lits hc short => ?smallCut,
    fun c lits hc short => ?largeCut, fun h positive => rleDecode_cut (blockOf_nil positive),
    fun h c large => ?noByte⟩
  case smallLiteral =>
    subst length
    have block := blockOf_small false hc (lits ++ rest)
    rw [blockContent_literal] at block
    exact rleDecode_block (by simpa using block)
  case largeLiteral =>
    subst length
    have block := blockOf_large false hc (lits ++ rest)
    rw [blockContent_literal] at block
    exact rleDecode_block (by simpa using block)
  case smallRepeat => exact rleDecode_block (blockOf_small true hc (v :: rest))
  case largeRepeat => exact rleDecode_block (blockOf_large true hc (v :: rest))
  case smallCut =>
    have block := blockOf_small false hc lits
    rw [blockContent_short short] at block
    exact rleDecode_cut (by simpa using block)
  case largeCut =>
    have block := blockOf_large false hc lits
    rw [blockContent_short short] at block
    exact rleDecode_cut (by simpa using block)
  case noByte =>
    obtain ⟨flag, size⟩ := flags_of_le large
    exact rleDecode_cut (by simp [blockOf, blockCount, size, flag, blockContent])

/-- Settles O55: OUT_OF_DATA is the only fault of the decoder. -/
theorem rledWritesDecodedBytes : Obligations.RledWritesDecodedBytes := by
  unfold Obligations.RledWritesDecodedBytes
  intro a b s ready ha hb
  have taken : Takes Config.params (.rled a b) s := TakenTransforms.takes_of_slotPair ready rfl ha hb
  have body : bodyOf (.rled a b) s = transformBody rleDecode a b s := rfl
  rw [exec_eq_execFor, Frames.execFor_transform taken body ha, ← faultStatus_outOfData, ← faultStatus_capacity]
  cases answer : rleDecode (s.slot b.toNat).data with
  | ok out => rfl
  | error x =>
    obtain rfl := ReadLaws.rleDecode_error answer
    rfl

/-! The round trip (45_rle, section 3). -/

/-- The bytes of the input that a span or a block covers. -/
def covered (x : Bytes) (sp : RleSpan) : Bytes := (x.drop sp.start).take sp.count

/-- A header that a block's count fits, with the block's content after it, is one block. -/
theorem rleDecode_headerBytes {c : Nat} {rep : Bool} {content vs rest : Bytes} (hc : c ≤ 16383)
    (block : blockContent rep c (content ++ rest) = some (vs, rest)) :
    rleDecode (headerBytes c rep ++ content ++ rest) = (rleDecode rest).map (vs ++ ·) := by
  rw [List.append_assoc, headerBytes]
  split
  · next small => exact rleDecode_block ((blockOf_small rep small _).trans block)
  · exact rleDecode_block ((blockOf_large rep hc _).trans block)

/-- A block of the encoder: not too long, inside the input, and of equal bytes if it repeats. -/
structure BlockOk (x : Bytes) (blk : RleSpan) : Prop where
  small : blk.count ≤ 16383
  inside : blk.start + blk.count ≤ x.length
  same : blk.rep = true → covered x blk = List.replicate blk.count (x.getD blk.start 0)

theorem covered_length {x : Bytes} {sp : RleSpan} (inside : sp.start + sp.count ≤ x.length) :
    (covered x sp).length = sp.count := by
  rw [covered, List.length_take, List.length_drop]
  omega

/-- A block decodes to the bytes it covers. -/
theorem rleDecode_blockBytes {x : Bytes} {blk : RleSpan} (ok : BlockOk x blk) (rest : Bytes) :
    rleDecode (blockBytes x blk ++ rest) = (rleDecode rest).map (covered x blk ++ ·) := by
  rw [blockBytes]
  cases rep : blk.rep with
  | true =>
    rw [ok.same rep]
    exact rleDecode_headerBytes ok.small (blockContent_repeat _ _ rest)
  | false =>
    have literal := blockContent_literal (covered x blk) rest
    rw [covered_length ok.inside] at literal
    exact rleDecode_headerBytes ok.small literal

/-- Blocks one after the other decode to what they cover. -/
theorem rleDecode_blocks {x : Bytes} {blks : List RleSpan} (ok : ∀ blk ∈ blks, BlockOk x blk) :
    rleDecode (blks.flatMap (blockBytes x)) = .ok (blks.flatMap (covered x)) := by
  induction blks with
  | nil => exact rleDecode_nil
  | cons blk blks ih =>
    obtain ⟨first, others⟩ := List.forall_mem_cons.mp ok
    rw [List.flatMap_cons, rleDecode_blockBytes first, ih others, List.flatMap_cons]
    rfl

/-- A stretch of equal bytes is that byte repeated. -/
theorem covered_eq_replicate {x : Bytes} {sp : RleSpan} {v : Byte} (inside : sp.start + sp.count ≤ x.length)
    (same : ∀ j, sp.start ≤ j → j < sp.start + sp.count → x[j]? = some v) :
    covered x sp = List.replicate sp.count v := by
  refine List.eq_replicate_iff.mpr ⟨covered_length inside, fun u mem => ?_⟩
  obtain ⟨k, hk, rfl⟩ := List.mem_iff_getElem.mp mem
  have hk' : k < sp.count := covered_length inside ▸ hk
  have byte := same (sp.start + k) (by omega) (by omega)
  obtain ⟨_, byte⟩ := List.getElem?_eq_some_iff.mp byte
  simpa [covered] using byte

/-- The blocks that the encoder cuts are as `BlockOk` asks. -/
theorem blockOk_of_mem_rleBlocks {x : Bytes} {blk : RleSpan} (mem : blk ∈ rleBlocks x) : BlockOk x blk := by
  obtain ⟨sp, hsp, hblk⟩ := List.mem_flatMap.mp mem
  obtain ⟨k, hk, rfl⟩ := List.mem_map.mp hblk
  have inside := block_inside mem
  refine ⟨Nat.min_le_left _ _, inside, fun rep => ?_⟩
  obtain ⟨-, v, same, -⟩ := ((rleSpans_rleGroups x).spanOk hsp).1 rep
  simp only [List.mem_range, rleMaxBlock] at hk
  have sameHere (j : Nat) (lo : sp.start + rleMaxBlock * k ≤ j)
      (hi : j < sp.start + rleMaxBlock * k + min rleMaxBlock (sp.count - rleMaxBlock * k)) : x[j]? = some v := by
    simp only [rleMaxBlock] at lo hi
    exact same j (by omega) (by omega)
  have first := sameHere _ le_rfl (by simp only [rleMaxBlock]; omega)
  rw [covered_eq_replicate inside sameHere, List.getD_eq_getElem?_getD, first, Option.getD_some]

/-- Pieces of `m` bytes, one after the other, make up the first of a sequence. -/
theorem flatMap_pieces (y : Bytes) (m n : Nat) :
    ((List.range n).flatMap fun k => (y.drop (m * k)).take m) = y.take (m * n) := by
  induction n with
  | zero => simp
  | succ n ih => rw [List.range_succ, List.flatMap_append, ih, List.flatMap_singleton, Nat.mul_succ, List.take_add]

/-- The blocks of a span cover what the span covers. -/
theorem rleSplit_covered (x : Bytes) (sp : RleSpan) : (rleSplit sp).flatMap (covered x) = covered x sp := by
  have piece (k : Nat) : covered x ⟨sp.start + 16383 * k, min 16383 (sp.count - 16383 * k), sp.rep⟩ =
      ((covered x sp).drop (16383 * k)).take 16383 := by
    simp only [covered]
    rw [List.drop_take, List.take_take, List.drop_drop]
  have whole : (covered x sp).length ≤ 16383 * ((sp.count + 16382) / 16383) := by
    have short : (covered x sp).length ≤ sp.count := List.length_take_le _ _
    omega
  simp only [rleSplit, rleMaxBlock, List.flatMap_map, piece]
  rw [flatMap_pieces, List.take_of_length_le whole]

/-- The spans cover the input, from where they start. -/
theorem spans_covered {x : Bytes} {p : Nat} {spans : List RleSpan} (h : SpansFrom x p spans) :
    spans.flatMap (covered x) = x.drop p := by
  induction h with
  | nil => simp
  | @cons sp sps ok apart rest ih =>
    rw [List.flatMap_cons, ih, covered, ← List.drop_drop, List.take_append_drop]

/-- Settles O58: the blocks decode to what they cover, and they cover the input. -/
theorem rleRoundTrip : Obligations.RleRoundTrip := by
  unfold Obligations.RleRoundTrip
  intro x
  have spans : (rleSpans (rleGroups 0 x)).flatMap (covered x) = x := spans_covered (rleSpans_rleGroups x)
  rw [rleEncode_eq, rleDecode_blocks fun _ => blockOk_of_mem_rleBlocks, rleBlocks, List.flatMap_assoc]
  simp only [rleSplit_covered, spans]

end Sys2Proof.Proofs.RunLengthDecode
end

section
/-! The round trip of the Burrows-Wheeler transform (spec/42_bwt.md, section 2). Moving the last byte of every rotation
to its front permutes the rotations, and the inverse's table lists the moved rotations in sorted order. So the row the
reconstruction is at always holds the input rotated by the number of bytes emitted, tied rotations or not. -/

namespace Sys2Proof.Proofs.BwtRoundTrip

open Sys2Proof Sys2Proof.Machine Sys2Proof.Proofs.ForwardBwt Sys2Proof.Proofs.InverseBwt

/-! Rotations by one less than the length: the last byte comes to the front. -/

/-- The last byte of the rotation that starts at `o` (42_bwt R154). -/
def lastByte (x : Bytes) (o : Nat) : Byte := x.getD ((o + x.length - 1) % x.length) 0

/-- The offset of the rotation with its last byte moved to the front. -/
def before (x : Bytes) (o : Nat) : Nat := o + (x.length - 1)

theorem rotate_add_length (x : Bytes) (o : Nat) : x.rotate (o + x.length) = x.rotate o := by
  rw [← List.rotate_mod, Nat.add_mod_right, List.rotate_mod]

theorem rotate_before_add_one {x : Bytes} (nonempty : 0 < x.length) (o : Nat) :
    (x.rotate (before x o)).rotate 1 = x.rotate o := by
  have turn : before x o + 1 = o + x.length := by
    rw [before]
    omega
  rw [List.rotate_rotate, turn, rotate_add_length]

/-- A rotation and the one before it: the byte that is last in the one is first in the other. -/
theorem exists_rotate_before {x : Bytes} (nonempty : 0 < x.length) (o : Nat) :
    ∃ t, x.rotate (before x o) = lastByte x o :: t ∧ x.rotate o = t ++ [lastByte x o] := by
  have hasHead : 0 < (x.rotate (before x o)).length := by rwa [List.length_rotate]
  have inside : (o + x.length - 1) % x.length < x.length := Nat.mod_lt _ nonempty
  have head : (x.rotate (before x o))[0] = lastByte x o := by
    have index : 0 + before x o = o + x.length - 1 := by
      rw [before]
      omega
    simp only [List.getElem_rotate, lastByte, index, List.getD_eq_getElem _ _ inside]
  have turned := rotate_before_add_one nonempty o
  cases cons : x.rotate (before x o) with
  | nil => simp [cons] at hasHead
  | cons c t =>
    simp only [cons, List.getElem_cons_zero] at head
    subst head
    rw [cons, List.rotate_cons_succ, List.rotate_zero] at turned
    exact ⟨t, rfl, turned.symm⟩

/-- A common last byte does not decide the order. -/
theorem le_of_append_le {us vs : Bytes} {c : Byte} (length : us.length = vs.length) (h : us ++ [c] ≤ vs ++ [c]) :
    us ≤ vs := by
  induction us generalizing vs with
  | nil => simp
  | cons u us ih =>
    cases vs with
    | nil => simp at length
    | cons v vs =>
      rw [List.cons_append, List.cons_append, List.cons_le_cons_iff] at h
      rw [List.cons_le_cons_iff]
      exact h.imp_right fun ⟨same, tail⟩ => ⟨same, ih (by simpa using length) tail⟩

/-- A lesser last byte comes to the front as a lesser first byte. -/
theorem rotate_before_le_of_lt {x : Bytes} (nonempty : 0 < x.length) {o p : Nat}
    (lt : (lastByte x o).toNat < (lastByte x p).toNat) : x.rotate (before x o) ≤ x.rotate (before x p) := by
  obtain ⟨t, moved, -⟩ := exists_rotate_before nonempty o
  obtain ⟨u, moved', -⟩ := exists_rotate_before nonempty p
  rw [moved, moved', List.cons_le_cons_iff]
  exact .inl lt

/-- Rotations with the same last byte keep their order when it comes to the front. -/
theorem rotate_before_le_of_eq {x : Bytes} (nonempty : 0 < x.length) {o p : Nat} (same : lastByte x o = lastByte x p)
    (le : x.rotate o ≤ x.rotate p) : x.rotate (before x o) ≤ x.rotate (before x p) := by
  obtain ⟨t, moved, rotated⟩ := exists_rotate_before nonempty o
  obtain ⟨u, moved', rotated'⟩ := exists_rotate_before nonempty p
  have length : t.length = u.length := by
    have lengths := congrArg List.length rotated
    have lengths' := congrArg List.length rotated'
    simp only [List.length_rotate, List.length_append, List.length_singleton] at lengths lengths'
    omega
  rw [rotated, rotated', same] at le
  rw [moved, moved', same, List.cons_le_cons_iff]
  exact .inr ⟨rfl, le_of_append_le length le⟩

/-- Moving the last byte to the front permutes the rotations. -/
theorem rotations_before_perm (x : Bytes) :
    ((List.range x.length).map fun o => x.rotate (before x o)).Perm ((List.range x.length).map x.rotate) := by
  have turned : ((List.range x.length).map fun o => x.rotate (before x o)) =
      ((List.range x.length).map x.rotate).rotate (x.length - 1) := by
    refine List.ext_getElem (by simp) fun k hk _ => ?_
    simp [List.getElem_rotate, before, List.rotate_mod]
  rw [turned]
  exact List.rotate_perm _ _

/-! The sorted rows (42_bwt R150). -/

theorem bwtOrder_length (x : Bytes) : (bwtOrder x).length = x.length := by
  rw [(bwtOrder_perm x).length_eq, List.length_range]

/-- The offset of the rotation in row `j`. -/
def rowOffset (x : Bytes) (j : Nat) : Nat := (bwtOrder x).getD j 0

theorem map_rowOffset (x : Bytes) : (List.range x.length).map (rowOffset x) = bwtOrder x := by
  refine List.ext_getElem (by simp [bwtOrder_length]) fun k hk hk' => ?_
  rw [List.getElem_map, List.getElem_range, rowOffset, List.getD_eq_getElem _ _ hk']

/-- The rotations in sorted order. -/
theorem rows_sorted (x : Bytes) : ((bwtOrder x).map x.rotate).Pairwise (· ≤ ·) := by
  rw [List.pairwise_map]
  refine (bwtOrder_pairwise x).imp fun {o p} order => List.le_iff_lt_or_eq.mpr ?_
  exact order.imp_right And.left

theorem rows_le {x : Bytes} {i j : Nat} (hij : i < j) (hj : j < x.length) :
    x.rotate (rowOffset x i) ≤ x.rotate (rowOffset x j) := by
  have hj' : j < (bwtOrder x).length := by rwa [bwtOrder_length]
  have hi' : i < (bwtOrder x).length := hij.trans hj'
  have sorted := List.pairwise_iff_getElem.mp (List.pairwise_map.mp (rows_sorted x)) i j hi' hj' hij
  rwa [rowOffset, rowOffset, List.getD_eq_getElem _ _ hi', List.getD_eq_getElem _ _ hj']

/-- The column holds the last bytes of the rows (42_bwt R154). -/
theorem bwtColumn_getElem? {x : Bytes} {j : Nat} (hj : j < x.length) :
    (bwtColumn x)[j]? = some (lastByte x (rowOffset x j)) := by
  have hj' : j < (bwtOrder x).length := by rwa [bwtOrder_length]
  rw [bwtColumn, List.getElem?_map, List.getElem?_eq_getElem hj', Option.map_some, lastByte, rowOffset,
    List.getD_eq_getElem _ _ hj']

/-! The table of the inverse (42_bwt R157). -/

/-- An entry of the table is a row and its last byte. -/
theorem of_mem_ibwtSorted {x : Bytes} {p : Nat × Byte} (mem : p ∈ ibwtSorted (bwtColumn x)) :
    p.1 < x.length ∧ p.2 = lastByte x (rowOffset x p.1) := by
  have row : p.1 < x.length := (pos_lt_of_mem_ibwtSorted mem).trans_eq (bwtColumn_length x)
  have read : p ∈ ibwtPairs (bwtColumn x) := (ibwtSorted_perm _).mem_iff.mp mem
  obtain ⟨q, hq, rfl⟩ := List.mem_map.mp read
  have entry : (bwtColumn x)[q.2]? = some q.1 := List.mem_zipIdx_iff_getElem?.mp hq
  rw [bwtColumn_getElem? row] at entry
  exact ⟨row, (Option.some.inj entry).symm⟩

/-- The rotations that the table lists: of each entry's row, with the last byte moved to the front. -/
def tableRotations (x : Bytes) : List Bytes :=
  (ibwtSorted (bwtColumn x)).map fun p => x.rotate (before x (rowOffset x p.1))

theorem tableRotations_sorted {x : Bytes} (nonempty : 0 < x.length) : (tableRotations x).Pairwise (· ≤ ·) := by
  rw [tableRotations, List.pairwise_map]
  refine (ibwtSorted_pairwise (bwtColumn x)).imp_of_mem fun {p q} hp hq order => ?_
  obtain ⟨-, byte⟩ := of_mem_ibwtSorted hp
  obtain ⟨row', byte'⟩ := of_mem_ibwtSorted hq
  rw [byte, byte'] at order
  obtain lt | ⟨same, earlier⟩ := order
  · exact rotate_before_le_of_lt nonempty lt
  · exact rotate_before_le_of_eq nonempty same (rows_le earlier row')

theorem tableRotations_perm (x : Bytes) : (tableRotations x).Perm ((bwtOrder x).map x.rotate) := by
  have readOrder : ((ibwtPairs (bwtColumn x)).map fun p => x.rotate (before x (rowOffset x p.1))) =
      (bwtOrder x).map fun o => x.rotate (before x o) := by
    rw [← map_rowOffset x, ← bwtColumn_length, ← ibwtPairs_map_fst, List.map_map, List.map_map]
    rfl
  have table : (tableRotations x).Perm ((bwtOrder x).map fun o => x.rotate (before x o)) :=
    readOrder ▸ (ibwtSorted_perm (bwtColumn x)).map fun p : Nat × Byte => x.rotate (before x (rowOffset x p.1))
  exact table.trans (((bwtOrder_perm x).map _).trans
    ((rotations_before_perm x).trans ((bwtOrder_perm x).map _).symm))

/-- The table lists the rows themselves, in their order. -/
theorem tableRotations_eq {x : Bytes} (nonempty : 0 < x.length) : tableRotations x = (bwtOrder x).map x.rotate :=
  (tableRotations_perm x).eq_of_pairwise (fun _ _ _ _ => List.le_antisymm) (tableRotations_sorted nonempty)
    (rows_sorted x)

/-- So row `j` is the rotation before the row that entry `j` points to. -/
theorem rotate_before_ibwtNext {x : Bytes} {j : Nat} (hj : j < x.length) :
    x.rotate (before x (rowOffset x (ibwtNext (ibwtSorted (bwtColumn x)) j))) = x.rotate (rowOffset x j) := by
  have inTable : j < (ibwtSorted (bwtColumn x)).length := by simpa using hj
  have inOrder : j < (bwtOrder x).length := by rwa [bwtOrder_length]
  have entry := congrArg (fun rows => rows[j]?) (tableRotations_eq (Nat.zero_lt_of_lt hj))
  simp only [tableRotations, List.getElem?_map, List.getElem?_eq_getElem inTable, List.getElem?_eq_getElem inOrder,
    Option.map_some, Option.some.injEq] at entry
  rw [ibwtNext, List.getD_eq_getElem _ _ inTable, entry, rowOffset, List.getD_eq_getElem _ _ inOrder]

/-! The reconstruction (42_bwt R158). -/

theorem rowOffset_bwtStart {x : Bytes} (nonempty : 0 < x.length) : rowOffset x (bwtStart x) = 0 := by
  have mem : 0 ∈ bwtOrder x := (bwtOrder_perm x).mem_iff.mpr (List.mem_range.mpr nonempty)
  rw [rowOffset, bwtStart, List.getD_eq_getElem _ _ (List.idxOf_lt_length_of_mem mem), List.getElem_idxOf]

theorem bwtStart_lt {x : Bytes} (nonempty : 0 < x.length) : bwtStart x < x.length := by
  have mem : 0 ∈ bwtOrder x := (bwtOrder_perm x).mem_iff.mpr (List.mem_range.mpr nonempty)
  exact (List.idxOf_lt_length_of_mem mem).trans_eq (bwtOrder_length x)

/-- After `k` steps the row holds the input rotated by `k`. -/
theorem rotate_ibwtRow {x : Bytes} (nonempty : 0 < x.length) (k : Nat) :
    ibwtRow (ibwtSorted (bwtColumn x)) (bwtStart x) k < x.length ∧
      x.rotate (rowOffset x (ibwtRow (ibwtSorted (bwtColumn x)) (bwtStart x) k)) = x.rotate k := by
  have inTable (k : Nat) : ibwtRow (ibwtSorted (bwtColumn x)) (bwtStart x) k < x.length :=
    (ibwtRow_lt (by simpa using bwtStart_lt nonempty) k).trans_eq (bwtColumn_length x)
  refine ⟨inTable k, ?_⟩
  induction k with
  | zero => rw [ibwtRow_zero, rowOffset_bwtStart nonempty]
  | succ k ih =>
    have turned := congrArg (fun y => y.rotate 1) (rotate_before_ibwtNext (inTable k))
    simp only [rotate_before_add_one nonempty, ih, List.rotate_rotate] at turned
    rw [ibwtRow_succ, turned]

/-- The chain emits the input: each row's entry holds the first byte of the row. -/
theorem ibwtChase_bwtColumn {x : Bytes} (nonempty : 0 < x.length) :
    ibwtChase (ibwtSorted (bwtColumn x)) x.length (bwtStart x) = x := by
  refine List.ext_getElem? fun k => ?_
  by_cases hk : k < x.length
  · obtain ⟨row, rotated⟩ := rotate_ibwtRow nonempty k
    generalize hj : ibwtRow (ibwtSorted (bwtColumn x)) (bwtStart x) k = j at row rotated
    have inTable : j < (ibwtSorted (bwtColumn x)).length := by simpa using row
    obtain ⟨-, byte⟩ := of_mem_ibwtSorted (List.getElem_mem inTable)
    obtain ⟨t, moved, -⟩ := exists_rotate_before nonempty (rowOffset x (ibwtNext (ibwtSorted (bwtColumn x)) j))
    have head := congrArg List.head? (moved.symm.trans ((rotate_before_ibwtNext row).trans rotated))
    rw [List.head?_cons, List.head?_rotate hk, ibwtNext, List.getD_eq_getElem _ _ inTable, ← byte] at head
    rw [ibwtChase_getElem? _ _ hk, hj, List.getD_eq_getElem _ _ inTable, head]
  · rw [List.getElem?_eq_none (by simpa using hk), List.getElem?_eq_none (by simpa using hk)]

/-! The function `ibwt` on the output of `bwt` (42_bwt R156). -/

theorem leadingInt_wordBytes {n : Nat} (h : n < 2 ^ 31) (rest : Bytes) :
    ByteReads.leadingInt (wordBytes (BitVec.ofNat 32 n) ++ rest) = n := by
  have word : ByteReads.leadingInt (wordBytes (BitVec.ofNat 32 n) ++ rest) =
      asI32 (wordOfBytes ((BitVec.ofNat 32 n).extractLsb' 24 8) ((BitVec.ofNat 32 n).extractLsb' 16 8)
        ((BitVec.ofNat 32 n).extractLsb' 8 8) ((BitVec.ofNat 32 n).extractLsb' 0 8)) := rfl
  rw [word, wordOfBytes_wordBytes, asI32_ofNat h]

theorem ibwt_bwt {x : Bytes} (short : x.length < 2 ^ 31) : ibwt (bwt x) = .ok x := by
  have length := bwt_length x
  by_cases empty : x.length = 0
  · rw [ibwt_of_eq (by omega), List.length_eq_zero_iff.mp empty]
  · have nonempty : 0 < x.length := Nat.pos_of_ne_zero empty
    have start := bwtStart_lt nonempty
    have output : bwt x = wordBytes (BitVec.ofNat 32 (bwtStart x)) ++ bwtColumn x := by
      rw [bwt_eq, if_neg empty, if_neg empty]
    have header : ByteReads.leadingInt (bwt x) = bwtStart x := by
      rw [output]
      exact leadingInt_wordBytes (start.trans short) _
    have table : (bwt x).drop 4 = bwtColumn x := by
      rw [output]
      rfl
    have rows : (bwt x).length - 4 = x.length := by omega
    rw [ibwt_of_gt (by omega), header, table, rows, Int.toNat_natCast, ibwtChase_bwtColumn nonempty, if_neg (by omega)]

/-- Settles O59: what a slot can hold is shorter than 2^31, so the start survives as an `i32`. -/
theorem bwtRoundTrip : Obligations.BwtRoundTrip := by
  unfold Obligations.BwtRoundTrip
  intro x short
  have maxLen : Config.MAX_LEN < 2 ^ 31 := by decide
  exact ibwt_bwt (short.trans_lt maxLen)

end Sys2Proof.Proofs.BwtRoundTrip
end

section
/-! The Huffman tree and its codes (spec/44_huffman.md, section 1). -/

namespace Sys2Proof.Proofs.HuffmanTree

open Sys2Proof Sys2Proof.Machine

/-! The least entry of the queue (44_huffman R203). -/

theorem hufTakeLeast_eq_none_iff {tie : TieOrder} {q : List QEntry} : hufTakeLeast tie q = none ↔ q = [] := by
  cases q with
  | nil => simp [hufTakeLeast]
  | cons e es =>
    refine iff_of_false (fun none => ?_) (List.cons_ne_nil e es)
    unfold hufTakeLeast at none
    split at none
    · cases none
    · split at none <;> cases none

/-- A non-empty queue has an entry to take. -/
theorem exists_hufTakeLeast (tie : TieOrder) {q : List QEntry} (nonempty : q ≠ []) :
    ∃ e rest, hufTakeLeast tie q = some (e, rest) := by
  obtain ⟨⟨e, rest⟩, taken⟩ := Option.ne_none_iff_exists'.mp (mt (hufTakeLeast_eq_none_iff (tie := tie)).mp nonempty)
  exact ⟨e, rest, taken⟩

/-- Taking an entry is taking it out of the queue, under every tie order. -/
theorem hufTakeLeast_perm {tie : TieOrder} {q rest : List QEntry} {m : QEntry}
    (h : hufTakeLeast tie q = some (m, rest)) : q.Perm (m :: rest) := by
  induction q generalizing m rest with
  | nil => cases h
  | cons e es ih =>
    unfold hufTakeLeast at h
    split at h
    · next alone =>
      cases h
      rw [hufTakeLeast_eq_none_iff.mp alone]
    · next m' rest' least =>
      split at h
      · cases h
        exact ((ih least).cons e).trans (.swap m e rest')
      · cases h
        exact .refl _

/-- `m` leaves no later than `e`: the lesser frequency, then no greater seq. -/
def NoLater (m e : QEntry) : Prop := m.freq < e.freq ∨ (m.freq = e.freq ∧ m.seq ≤ e.seq)

theorem NoLater.trans {a b c : QEntry} (h : NoLater a b) (h' : NoLater b c) : NoLater a c := by
  unfold NoLater at *
  omega

theorem hufBefore_iff {m e : QEntry} : hufBefore Config.hufTieOrder m e = true ↔ hufPrecedes m e := by
  simp [hufBefore, Config.hufTieOrder, hufPrecedes]

theorem noLater_of_hufBefore {m e : QEntry} (h : hufBefore Config.hufTieOrder m e = true) : NoLater m e := by
  have precedes := hufBefore_iff.mp h
  unfold hufPrecedes at precedes
  unfold NoLater
  omega

theorem noLater_of_not_hufBefore {m e : QEntry} (h : ¬hufBefore Config.hufTieOrder m e = true) : NoLater e m := by
  rw [hufBefore_iff] at h
  unfold hufPrecedes at h
  unfold NoLater
  omega

/-- What leaves this hardware's queue is its least entry. -/
theorem hufTakeLeast_noLater {q rest : List QEntry} {m : QEntry}
    (h : hufTakeLeast Config.hufTieOrder q = some (m, rest)) : ∀ e ∈ rest, NoLater m e := by
  induction q generalizing m rest with
  | nil => cases h
  | cons e es ih =>
    unfold hufTakeLeast at h
    split at h
    · cases h
      exact nofun
    · next m' rest' least =>
      have others := ih least
      split at h
      · next first =>
        cases h
        exact List.forall_mem_cons.mpr ⟨noLater_of_hufBefore first, others⟩
      · next notFirst =>
        cases h
        have le : NoLater e m' := noLater_of_not_hufBefore notFirst
        intro e' mem
        obtain rfl | mem := List.mem_cons.mp ((hufTakeLeast_perm least).mem_iff.mp mem)
        · exact le
        · exact le.trans (others e' mem)

/-! The building loop (44_huffman R203). -/

/-- The queue's entries have different seqs, all below the next one. -/
structure SeqsOk (nextSeq : Nat) (q : List QEntry) : Prop where
  distinct : (q.map QEntry.seq).Nodup
  below : ∀ e ∈ q, e.seq < nextSeq

theorem SeqsOk.perm {nextSeq : Nat} {q q' : List QEntry} (ok : SeqsOk nextSeq q) (perm : q.Perm q') :
    SeqsOk nextSeq q' :=
  ⟨(perm.map _).nodup_iff.mp ok.distinct, fun e mem => ok.below e (perm.mem_iff.mpr mem)⟩

theorem SeqsOk.tail {nextSeq : Nat} {e : QEntry} {q : List QEntry} (ok : SeqsOk nextSeq (e :: q)) : SeqsOk nextSeq q :=
  ⟨(List.nodup_cons.mp ok.distinct).2, fun e' mem => ok.below e' (.tail _ mem)⟩

/-- The parent enters with a seq that no entry has. -/
theorem SeqsOk.enqueue {nextSeq : Nat} {e : QEntry} {q : List QEntry} (ok : SeqsOk nextSeq q) (seq : e.seq = nextSeq) :
    SeqsOk (nextSeq + 1) (e :: q) := by
  refine ⟨List.nodup_cons.mpr ⟨fun mem => ?_, ok.distinct⟩, List.forall_mem_cons.mpr ⟨by omega, fun e' mem => ?_⟩⟩
  · obtain ⟨e', mem', same⟩ := List.mem_map.mp mem
    have := ok.below e' mem'
    omega
  · exact Nat.lt_succ_of_lt (ok.below e' mem)

/-- With different seqs the least entry is strictly the first to leave. -/
theorem SeqsOk.precedes {nextSeq : Nat} {m : QEntry} {rest : List QEntry} (ok : SeqsOk nextSeq (m :: rest))
    (least : ∀ e ∈ rest, NoLater m e) : ∀ e ∈ rest, hufPrecedes m e := by
  intro e mem
  obtain ⟨differs, -⟩ := List.nodup_cons.mp ok.distinct
  have otherSeq : m.seq ≠ e.seq := fun same => differs (List.mem_map.mpr ⟨e, mem, same.symm⟩)
  have noLater := least e mem
  unfold NoLater at noLater
  unfold hufPrecedes
  omega

/-- The relation does not read the order in which the queue is listed. -/
theorem HufBuilds.perm {seq : Nat} {q q' : List QEntry} {root : HufTree} (builds : HufBuilds seq q root)
    (perm : q'.Perm q) : HufBuilds seq q' root := by
  cases builds with
  | done _ e => exact List.perm_singleton.mp perm ▸ .done seq e
  | merge _ _ rest n1 n2 _ hq h1 h2 hr => exact .merge seq q' rest n1 n2 root (perm.trans hq) h1 h2 hr

/-- The loop ends with a tree whose leaves are those of the queue's nodes, under every tie order: each round takes one
entry off the queue. -/
theorem exists_hufMerge (tie : TieOrder) {fuel nextSeq : Nat} {q : List QEntry} (nonempty : q ≠ [])
    (enough : q.length ≤ fuel) :
    ∃ root, hufMerge tie fuel nextSeq q = some root ∧
      (leafValues root).Perm (q.flatMap fun e => leafValues e.node) := by
  induction fuel generalizing nextSeq q with
  | zero => exact absurd (List.length_eq_zero_iff.mp (Nat.le_zero.mp enough)) nonempty
  | succ fuel ih =>
    obtain ⟨n1, q1, first⟩ := exists_hufTakeLeast tie nonempty
    have perm1 := hufTakeLeast_perm first
    cases second : hufTakeLeast tie q1 with
    | none =>
      rw [hufTakeLeast_eq_none_iff.mp second] at perm1
      refine ⟨n1.node, by simp only [hufMerge, first, second], ?_⟩
      rw [List.perm_singleton.mp perm1, List.flatMap_singleton]
    | some taken =>
      obtain ⟨n2, q2⟩ := taken
      have perm2 := hufTakeLeast_perm second
      have perm := perm1.trans (perm2.cons n1)
      have length := perm.length_eq
      simp only [List.length_cons] at length
      obtain ⟨root, merges, leaves⟩ := ih (nextSeq := nextSeq + 1) (q := q2 ++ [hufParent tie n1 n2 nextSeq])
        (by simp) (by rw [List.length_append, List.length_singleton]; omega)
      refine ⟨root, by simpa only [hufMerge, first, second] using merges, leaves.trans ?_⟩
      have parent :
          (leafValues (hufParent tie n1 n2 nextSeq).node).Perm (leafValues n1.node ++ leafValues n2.node) := by
        unfold hufParent
        split
        · exact .refl _
        · exact List.perm_append_comm
      have after : (q2 ++ [hufParent tie n1 n2 nextSeq]).flatMap (fun e => leafValues e.node) =
          (q2.flatMap fun e => leafValues e.node) ++ leafValues (hufParent tie n1 n2 nextSeq).node := by
        rw [List.flatMap_append, List.flatMap_singleton]
      have before : (q.flatMap fun e => leafValues e.node).Perm
          (leafValues n1.node ++ leafValues n2.node ++ q2.flatMap fun e => leafValues e.node) := by
        have moved := perm.flatMap_right fun e => leafValues e.node
        rwa [List.flatMap_cons, List.flatMap_cons, ← List.append_assoc] at moved
      rw [after]
      exact (List.perm_append_comm.trans (parent.append_right _)).trans before.symm

/-- This hardware's loop builds the tree of the relation. -/
theorem hufMerge_builds {fuel nextSeq : Nat} {q : List QEntry} {root : HufTree} (ok : SeqsOk nextSeq q)
    (h : hufMerge Config.hufTieOrder fuel nextSeq q = some root) : HufBuilds nextSeq q root := by
  induction fuel generalizing nextSeq q with
  | zero => cases h
  | succ fuel ih =>
    unfold hufMerge at h
    split at h
    · cases h
    · next n1 q1 first =>
      have perm1 := hufTakeLeast_perm first
      have ok1 := ok.perm perm1
      split at h
      · next alone =>
        cases h
        rw [hufTakeLeast_eq_none_iff.mp alone] at perm1
        exact HufBuilds.perm (.done nextSeq n1) perm1
      · next n2 q2 second =>
        have perm2 := hufTakeLeast_perm second
        have ok2 := ok1.tail.perm perm2
        have precedes1 := ok1.precedes (hufTakeLeast_noLater first)
        have precedes2 := ok2.precedes (hufTakeLeast_noLater second)
        have enqueued : SeqsOk (nextSeq + 1) (hufParent Config.hufTieOrder n1 n2 nextSeq :: q2) := ok2.tail.enqueue rfl
        have last : (hufParent Config.hufTieOrder n1 n2 nextSeq :: q2).Perm
            (q2 ++ [hufParent Config.hufTieOrder n1 n2 nextSeq]) := (List.perm_append_singleton _ _).symm
        exact .merge nextSeq q q2 n1 n2 root (perm1.trans (perm2.cons n1))
          (fun e mem => precedes1 e (perm2.mem_iff.mpr mem)) precedes2 (HufBuilds.perm (ih (enqueued.perm last) h) last)

/-! The leaves (44_huffman R201 to R203). -/

theorem mem_hufAlphabet {x : Bytes} {v : Byte} : v ∈ hufAlphabet x ↔ v ∈ x := by
  have byte : v ∈ (List.range 256).map (BitVec.ofNat 8) := MoveToFront.mem_mtfIdentity v
  simp only [hufAlphabet, List.mem_filter, byte, true_and, decide_eq_true_eq, hufFreq, List.count_pos_iff]

theorem hufAlphabet_pairwise (x : Bytes) : (hufAlphabet x).Pairwise fun u v => u.toNat < v.toNat := by
  refine List.Pairwise.filter _ (List.pairwise_map.mpr ?_)
  refine List.pairwise_lt_range.imp_of_mem fun {i j} hi hj lt => ?_
  rw [List.mem_range] at hi hj
  rwa [BitVec.toNat_ofNat, BitVec.toNat_ofNat, Nat.mod_eq_of_lt hi, Nat.mod_eq_of_lt hj]

theorem hufAlphabet_nodup (x : Bytes) : (hufAlphabet x).Nodup :=
  (hufAlphabet_pairwise x).imp fun {u v} lt same => absurd lt (by rw [same]; exact Nat.lt_irrefl _)

theorem hufLeaves_ne_nil {x : Bytes} (nonempty : x ≠ []) : hufLeaves x ≠ [] := by
  obtain ⟨v, mem⟩ := List.exists_mem_of_ne_nil x nonempty
  have alphabet : hufAlphabet x ≠ [] := List.ne_nil_of_mem (mem_hufAlphabet.mpr mem)
  simpa [hufLeaves] using alphabet

theorem hufLeaves_flatMap (x : Bytes) : ((hufLeaves x).flatMap fun e => leafValues e.node) = hufAlphabet x := by
  have values : ((hufAlphabet x).zipIdx.map Prod.fst) = hufAlphabet x := List.zipIdx_map_fst 0 _
  calc (hufLeaves x).flatMap (fun e => leafValues e.node)
    _ = (hufAlphabet x).zipIdx.flatMap fun p => [p.1] := by
      rw [hufLeaves, List.flatMap_map]
      rfl
    _ = (hufAlphabet x).zipIdx.map Prod.fst := List.map_eq_flatMap.symm
    _ = hufAlphabet x := values

/-- The leaves enter with the seqs 0, 1, 2, …. -/
theorem hufLeaves_seqsOk (x : Bytes) : SeqsOk (hufLeaves x).length (hufLeaves x) := by
  have seqs : (hufLeaves x).map QEntry.seq = List.range (hufLeaves x).length := by
    rw [hufLeaves, List.map_map, List.length_map, List.length_zipIdx, List.range_eq_range',
      ← List.zipIdx_map_snd 0 (hufAlphabet x)]
    rfl
  refine ⟨seqs ▸ List.nodup_range, fun e mem => ?_⟩
  have seq := List.mem_map_of_mem (f := QEntry.seq) mem
  rwa [seqs, List.mem_range] at seq

/-- Under every tie order a non-empty input has a tree, whose leaves are the alphabet. -/
theorem exists_hufBuild (tie : TieOrder) {x : Bytes} (nonempty : x ≠ []) :
    ∃ root, hufBuild tie x = some root ∧ (leafValues root).Perm (hufAlphabet x) := by
  obtain ⟨root, builds, leaves⟩ :=
    exists_hufMerge tie (nextSeq := (hufLeaves x).length) (hufLeaves_ne_nil nonempty) le_rfl
  exact ⟨root, builds, hufLeaves_flatMap x ▸ leaves⟩

/-- This hardware's tree is the one of the queue. -/
theorem isHufTreeOf_of_hufBuild {x : Bytes} {root : HufTree} (h : hufBuild Config.hufTieOrder x = some root) :
    IsHufTreeOf x root := by
  have builds := hufMerge_builds (hufLeaves_seqsOk x) h
  have length : (hufLeaves x).length = (hufAlphabet x).length := by simp [hufLeaves]
  rw [length] at builds
  exact ⟨hufAlphabet x, hufAlphabet_pairwise x, fun v => mem_hufAlphabet, builds⟩

/-! The codes (44_huffman R205). -/

/-- The codes below a path are the codes of the subtree, after the path. -/
theorem hufCodes_append (t : HufTree) (p s : Bits) :
    hufCodes t (p ++ s) = (hufCodes t s).map fun q => (q.1, p ++ q.2) := by
  induction t generalizing s with
  | leaf v => rfl
  | internal l r ihl ihr =>
    rw [hufCodes, hufCodes, List.map_append, List.append_assoc, List.append_assoc, ihl, ihr]

/-- A code of a subtree is a code of the tree after the bit that leads there. -/
theorem hufCodes_internal (l r : HufTree) :
    hufCodes (.internal l r) [] = ((hufCodes l []).map fun q => (q.1, false :: q.2)) ++
      (hufCodes r []).map fun q => (q.1, true :: q.2) := by
  have left := hufCodes_append l [false] []
  have right := hufCodes_append r [true] []
  rw [hufCodes]
  exact congrArg₂ (· ++ ·) left right

theorem hufCodes_map_fst (t : HufTree) : (hufCodes t []).map Prod.fst = leafValues t := by
  induction t with
  | leaf v => rfl
  | internal l r ihl ihr =>
    rw [hufCodes_internal, List.map_append, List.map_map, List.map_map, leafValues, ← ihl, ← ihr]
    rfl

/-- The code of a leaf is the path to it. -/
theorem mem_hufCodes_iff {t : HufTree} {v : Byte} {bits : Bits} :
    (v, bits) ∈ hufCodes t [] ↔ hufWalk t bits = some (.leaf v) := by
  induction t generalizing bits with
  | leaf u =>
    cases bits with
    | nil => simp [hufCodes, hufWalk, eq_comm]
    | cons b bits => simp [hufCodes, hufWalk]
  | internal l r ihl ihr =>
    rw [hufCodes_internal, List.mem_append, List.mem_map, List.mem_map]
    cases bits with
    | nil => simp [hufWalk]
    | cons b bits => cases b <;> simp [hufWalk, ihl, ihr]

theorem hufWalk_append (t : HufTree) (p s : Bits) : hufWalk t (p ++ s) = (hufWalk t p).bind fun u => hufWalk u s := by
  induction p generalizing t with
  | nil => cases t <;> rfl
  | cons b p ih =>
    cases t with
    | leaf v => rfl
    | internal l r => exact ih _

/-- Nothing is below a leaf. -/
theorem eq_nil_of_hufWalk_leaf {v : Byte} {s : Bits} {t : HufTree} (h : hufWalk (.leaf v) s = some t) : s = [] := by
  cases s with
  | nil => rfl
  | cons b s => cases h

theorem eq_of_prefix_of_hufWalk {t : HufTree} {u v : Byte} {p q : Bits} (hp : hufWalk t p = some (.leaf u))
    (hq : hufWalk t q = some (.leaf v)) (h : p <+: q) : p = q := by
  obtain ⟨s, rfl⟩ := h
  rw [hufWalk_append, hp, Option.bind_some] at hq
  rw [eq_nil_of_hufWalk_leaf hq, List.append_nil]

/-- Different leaves have different codes: they part at some node. -/
theorem hufCodes_map_snd_nodup (t : HufTree) : ((hufCodes t []).map Prod.snd).Nodup := by
  induction t with
  | leaf v => exact List.nodup_singleton _
  | internal l r ihl ihr =>
    have under (b : Bool) (cs : List (Byte × Bits)) :
        (cs.map fun q => (q.1, b :: q.2)).map Prod.snd = (cs.map Prod.snd).map (b :: ·) := by simp
    rw [hufCodes_internal, List.map_append, under, under]
    refine List.Nodup.append (ihl.map List.cons_injective) (ihr.map List.cons_injective) fun bits left right => ?_
    obtain ⟨_, -, rfl⟩ := List.mem_map.mp left
    obtain ⟨_, -, parted⟩ := List.mem_map.mp right
    cases parted

/-- No code begins another (44_huffman R205). -/
theorem hufCodes_prefixFree {t : HufTree} {j k : Nat} {p q : Byte × Bits} (hp : (hufCodes t [])[j]? = some p)
    (hq : (hufCodes t [])[k]? = some q) (h : p.2 <+: q.2) : j = k := by
  have walkP : hufWalk t p.2 = some (.leaf p.1) := mem_hufCodes_iff.mp (List.mem_of_getElem? hp)
  have walkQ : hufWalk t q.2 = some (.leaf q.1) := mem_hufCodes_iff.mp (List.mem_of_getElem? hq)
  have same := eq_of_prefix_of_hufWalk walkP walkQ h
  obtain ⟨hj, -⟩ := List.getElem?_eq_some_iff.mp hp
  refine (List.getElem?_inj (by simpa using hj) (hufCodes_map_snd_nodup t)).mp ?_
  rw [List.getElem?_map, List.getElem?_map, hp, hq, Option.map_some, Option.map_some, same]

/-- Settles O53: what leaves the queue is its least entry, each round keeps the leaves and the order of the seqs, and
two codes part at the node where their leaves do. -/
theorem huffmanTreeAndCodes : Obligations.HuffmanTreeAndCodes := by
  unfold Obligations.HuffmanTreeAndCodes
  refine ⟨fun q rest e taken => ⟨hufTakeLeast_perm taken, hufTakeLeast_noLater taken⟩, fun x nonempty => ?built,
    fun tie x nonempty => ?leaves, fun root v bits => mem_hufCodes_iff, fun root j k p q => hufCodes_prefixFree⟩
  case built =>
    obtain ⟨root, builds, -⟩ := exists_hufBuild Config.hufTieOrder nonempty
    exact ⟨root, builds, isHufTreeOf_of_hufBuild builds⟩
  case leaves =>
    obtain ⟨root, builds, leaves⟩ := exists_hufBuild tie nonempty
    exact ⟨root, builds, leaves.nodup_iff.mpr (hufAlphabet_nodup x),
      fun v => leaves.mem_iff.trans mem_hufAlphabet⟩

end Sys2Proof.Proofs.HuffmanTree
end

section
/-! Huffman compression (spec/44_huffman.md, sections 1 to 3): the bits of the output. -/

namespace Sys2Proof.Proofs.HuffmanCompress

open Sys2Proof Sys2Proof.Machine Sys2Proof.Proofs.TakenCommands Sys2Proof.Proofs.HuffmanTree

/-! Serialization and the code bits (44_huffman R204, R208). -/

theorem hufSerialize_keeps (out : BitBuffer) (t : HufTree) : WriteKeeps out (hufSerialize out t) := by
  induction t generalizing out with
  | leaf v => exact (bbWriteBit_keeps out true).trans (bbWriteByte_keeps _ v)
  | internal l r ihl ihr => exact ((bbWriteBit_keeps out false).trans (ihl _)).trans (ihr _)

/-- Serializing a tree adds its bits to the stream. -/
theorem hufSerialize_stream {out : BitBuffer} (t : HufTree) (ok : EncodeOk out) :
    streamBits (hufSerialize out t) = streamBits out ++ hufTreeBits t := by
  induction t generalizing out with
  | leaf v =>
    have flag := bbWriteBit_keeps out true
    rw [hufSerialize, bbWriteByte_stream v (flag.ok ok), bbWriteBit_stream true ok, hufTreeBits, List.append_assoc,
      List.singleton_append]
  | internal l r ihl ihr =>
    have flag := bbWriteBit_keeps out false
    have left := flag.trans (hufSerialize_keeps _ l)
    rw [hufSerialize, ihr (left.ok ok), ihl (flag.ok ok), bbWriteBit_stream false ok, hufTreeBits]
    simp only [List.append_assoc, List.cons_append, List.nil_append]

theorem foldl_writeBits_keeps (code : Byte → Bits) (x : Bytes) (out : BitBuffer) :
    WriteKeeps out (x.foldl (fun out v => bbWriteBits out (code v)) out) := by
  induction x generalizing out with
  | nil => exact WriteKeeps.refl out
  | cons v vs ih => exact (bbWriteBits_keeps out _).trans (ih _)

/-- The code bits of the input are added in order. -/
theorem foldl_writeBits_stream (code : Byte → Bits) (x : Bytes) {out : BitBuffer} (ok : EncodeOk out) :
    streamBits (x.foldl (fun out v => bbWriteBits out (code v)) out) = streamBits out ++ x.flatMap code := by
  induction x generalizing out with
  | nil => simp
  | cons v vs ih =>
    rw [List.foldl_cons, ih ((bbWriteBits_keeps out _).ok ok), bbWriteBits_stream _ ok, List.flatMap_cons,
      List.append_assoc]

/-! The code table (44_huffman R205). -/

theorem exists_lookup {v : Byte} {cs : List (Byte × Bits)} (h : v ∈ cs.map Prod.fst) :
    ∃ c, cs.lookup v = some c ∧ (v, c) ∈ cs := by
  induction cs with
  | nil => cases h
  | cons q cs ih =>
    obtain ⟨u, c⟩ := q
    by_cases same : v = u
    · subst same
      exact ⟨c, by simp, .head _⟩
    · have later : v ∈ cs.map Prod.fst := (List.mem_cons.mp h).resolve_left same
      obtain ⟨c', found, mem⟩ := ih later
      have differs : (v == u) = false := beq_eq_false_iff_ne.mpr same
      exact ⟨c', by rw [List.lookup_cons, differs, found], .tail _ mem⟩

/-- The code of a value at a leaf leads to a leaf with that value. -/
theorem hufWalk_hufCode {root : HufTree} {v : Byte} (h : v ∈ leafValues root) :
    hufWalk root (hufCode root v) = some (.leaf v) := by
  obtain ⟨c, found, mem⟩ := exists_lookup (hufCodes_map_fst root ▸ h)
  rw [hufCode, found, Option.getD_some]
  exact mem_hufCodes_iff.mp mem

/-! The output (44_huffman R208, R209). -/

theorem hufCompress_nil (tie : TieOrder) : hufCompress [] tie = [0, 0, 0, 0] := by
  have noLeaves : hufLeaves [] = [] := by simp [hufLeaves, hufAlphabet, hufFreq]
  have noTree : hufBuild tie [] = none := by rw [hufBuild, noLeaves]; rfl
  have header := flush_writeInt_writeBytes_empty 0 []
  rw [hufCompress, noTree]
  exact header

/-- Bytes that go on after other bytes hold the bits that go on after theirs. -/
theorem exists_append_of_prefix {us vs : Bytes} {tail : Bits} (h : us <+: vs)
    (bits : vs.flatMap byteBits = us.flatMap byteBits ++ tail) : ∃ ws, vs = us ++ ws ∧ ws.flatMap byteBits = tail := by
  obtain ⟨ws, rfl⟩ := h
  rw [List.flatMap_append] at bits
  exact ⟨ws, rfl, List.append_cancel_left bits⟩

/-- The output after its header holds the tree, then the code of each byte, then fewer than 8 zeros. -/
theorem exists_hufCompress_eq (tie : TieOrder) {x : Bytes} (nonempty : x ≠ []) :
    ∃ root pad body, hufBuild tie x = some root ∧ (∀ v ∈ x, hufWalk root (hufCode root v) = some (.leaf v)) ∧
      pad < 8 ∧ hufCompress x tie = wordBytes (BitVec.ofNat 32 x.length) ++ body ∧
      body.flatMap byteBits = hufTreeBits root ++ x.flatMap (hufCode root) ++ List.replicate pad false := by
  obtain ⟨root, builds, leaves⟩ := exists_hufBuild tie nonempty
  have header := bbWriteInt_keeps BitBuffer.empty (BitVec.ofNat 32 x.length)
  have headerOk := header.ok encodeOk_empty
  have tree := hufSerialize_keeps (bbWriteInt BitBuffer.empty (BitVec.ofNat 32 x.length)) root
  have codes := foldl_writeBits_keeps (hufCode root) x
    (hufSerialize (bbWriteInt BitBuffer.empty (BitVec.ofNat 32 x.length)) root)
  have headerData : (bbWriteInt BitBuffer.empty (BitVec.ofNat 32 x.length)).data =
      wordBytes (BitVec.ofNat 32 x.length) := by
    rw [bbWriteInt, bbWriteBytes_aligned _ empty_npend]
    rfl
  have output : hufCompress x tie = (bbFlush (x.foldl (fun out v => bbWriteBits out (hufCode root v))
      (hufSerialize (bbWriteInt BitBuffer.empty (BitVec.ofNat 32 x.length)) root))).data := by
    rw [hufCompress, builds]
  have starts : wordBytes (BitVec.ofNat 32 x.length) <+: hufCompress x tie := by
    rw [output, ← headerData]
    exact ((tree.trans codes).trans (bbFlush_keeps _)).data
  obtain ⟨pad, few, bits⟩ := BitStreams.exists_padding ((tree.trans codes).ok headerOk)
  rw [← output, foldl_writeBits_stream _ _ (tree.ok headerOk), hufSerialize_stream root headerOk,
    bbWriteInt_stream _ encodeOk_empty, show streamBits BitBuffer.empty = [] from rfl, List.nil_append,
    List.append_assoc, List.append_assoc] at bits
  obtain ⟨body, whole, bodyBits⟩ := exists_append_of_prefix starts bits
  refine ⟨root, pad, body, builds, fun v mem => ?_, few, whole, by rw [bodyBits, List.append_assoc]⟩
  exact hufWalk_hufCode (leaves.mem_iff.mpr (mem_hufAlphabet.mpr mem))

/-- Settles O51: the output's bits are those of the writes, in order. -/
theorem hufcWritesTreeAndCodes : Obligations.HufcWritesTreeAndCodes := by
  unfold Obligations.HufcWritesTreeAndCodes
  intro a b s ready ha hb x
  have taken : Takes Config.params (.hufc a b) s := TakenTransforms.takes_of_slotPair ready rfl ha hb
  have body : bodyOf (.hufc a b) s = transformBody (fun x => .ok (hufCompress x)) a b s := rfl
  refine ⟨hufCompress x, ?_, fun empty => ?_, fun nonempty => ?_⟩
  · rw [exec_eq_execFor, Frames.execFor_transform taken body ha, ← faultStatus_capacity]
    rfl
  · rw [empty, hufCompress_nil]
  · obtain ⟨root, pad, body, builds, walks, few, whole, bits⟩ := exists_hufCompress_eq Config.hufTieOrder nonempty
    refine ⟨root, pad, builds, isHufTreeOf_of_hufBuild builds, walks, few, ?_⟩
    rw [whole, List.flatMap_append, bits]
    simp only [List.append_assoc]

end Sys2Proof.Proofs.HuffmanCompress
end

section
/-! Huffman expansion (spec/44_huffman.md, sections 1 and 2), by the bits that are left to read, and the round trip. -/

namespace Sys2Proof.Proofs.HuffmanExpand

open Sys2Proof Sys2Proof.Machine Sys2Proof.Proofs.TakenCommands Sys2Proof.Proofs.ReadLaws

/-! A reader at a place in a sequence of bits. -/

/-- The reader's next bits are `bits`. -/
structure Reads (st : BitBuffer) (bits : Bits) : Prop where
  rem : st.rem ≤ 7
  unread : unreadBits st = bits

theorem Reads.readBit {st : BitBuffer} {b : Bool} {rest : Bits} (h : Reads st (b :: rest)) :
    ∃ st', bbReadBit st = .ok (st', b) ∧ Reads st' rest := by
  have spec := bbReadBit_spec h.rem
  rw [h.unread] at spec
  obtain ⟨st', read, unread⟩ := spec
  exact ⟨st', read, (bbReadBit_keeps read).rem h.rem, unread⟩

theorem Reads.readByte {st : BitBuffer} {v : Byte} {rest : Bits} (h : Reads st (byteBits v ++ rest)) :
    ∃ st', bbReadByte st = .ok (st', v) ∧ Reads st' rest := by
  have enough : 8 ≤ (unreadBits st).length := by
    rw [h.unread, List.length_append, byteBits_length]
    exact Nat.le_add_right _ _
  have spec := bbReadByte_spec h.rem
  rw [if_pos enough, h.unread] at spec
  obtain ⟨st', u, read, bits, unread, keeps⟩ := spec
  rw [List.take_left' (byteBits_length v)] at bits
  rw [List.drop_left' (byteBits_length v)] at unread
  obtain rfl := byteBits_inj bits
  exact ⟨st', read, keeps.rem h.rem, unread⟩

/-- What a bit read returned was the next bit. -/
theorem unreadBits_of_readBit {st st' : BitBuffer} {b : Bool} (rem : st.rem ≤ 7) (h : bbReadBit st = .ok (st', b)) :
    unreadBits st = b :: unreadBits st' := by
  have spec := bbReadBit_spec rem
  split at spec
  · rw [spec] at h
    cases h
  · next c rest bits =>
    obtain ⟨st1, read, unread⟩ := spec
    rw [read] at h
    cases h
    rw [bits, unread]

/-- What a byte read returned were the next eight bits. -/
theorem unreadBits_of_readByte {st st' : BitBuffer} {v : Byte} (rem : st.rem ≤ 7) (h : bbReadByte st = .ok (st', v)) :
    unreadBits st = byteBits v ++ unreadBits st' := by
  have spec := bbReadByte_spec rem
  split at spec
  · obtain ⟨st1, u, read, bits, unread, -⟩ := spec
    rw [read] at h
    cases h
    rw [bits, unread, List.take_append_drop]
  · rw [spec] at h
    cases h

/-! The parse (44_huffman R206). -/

/-- A serialized tree parses back, whatever follows it: its bits are more than the depth of its parse. -/
theorem hufParse_of_reads {t : HufTree} {fuel : Nat} {st : BitBuffer} {rest : Bits}
    (h : Reads st (hufTreeBits t ++ rest)) (enough : (hufTreeBits t).length ≤ fuel) :
    ∃ st', hufParse fuel st = .ok (st', t) ∧ Reads st' rest := by
  induction t generalizing fuel st rest with
  | leaf v =>
    obtain ⟨fuel, rfl⟩ : ∃ k, fuel = k + 1 := ⟨fuel - 1, by simp [hufTreeBits] at enough; omega⟩
    obtain ⟨st1, flag, reads1⟩ := h.readBit
    obtain ⟨st2, value, reads2⟩ := reads1.readByte
    exact ⟨st2, by simp only [hufParse, flag, value], reads2⟩
  | internal l r ihl ihr =>
    simp only [hufTreeBits, List.length_cons, List.length_append] at enough
    obtain ⟨fuel, rfl⟩ : ∃ k, fuel = k + 1 := ⟨fuel - 1, by omega⟩
    obtain ⟨st1, flag, reads1⟩ := h.readBit
    rw [List.append_eq, List.append_assoc] at reads1
    obtain ⟨st2, left, reads2⟩ := ihl reads1 (fuel := fuel) (by omega)
    obtain ⟨st3, right, reads3⟩ := ihr reads2 (fuel := fuel) (by omega)
    exact ⟨st3, by simp only [hufParse, flag, left, right], reads3⟩

/-- What was parsed were the bits of the tree. -/
theorem unreadBits_of_hufParse {fuel : Nat} {st st' : BitBuffer} {t : HufTree} (rem : st.rem ≤ 7)
    (h : hufParse fuel st = .ok (st', t)) : unreadBits st = hufTreeBits t ++ unreadBits st' := by
  induction fuel generalizing st st' t with
  | zero => cases h
  | succ fuel ih =>
    unfold hufParse at h
    split at h
    · cases h
    · next st1 flag =>
      have rem1 := (bbReadBit_keeps flag).rem rem
      split at h
      · cases h
      · next st2 v value =>
        cases h
        rw [unreadBits_of_readBit rem flag, unreadBits_of_readByte rem1 value]
        rfl
    · next st1 flag =>
      have rem1 := (bbReadBit_keeps flag).rem rem
      split at h
      · cases h
      · next st2 l left =>
        have rem2 := ((hufParse_answers fuel st1).keeps left).rem rem1
        split at h
        · cases h
        · next st3 r right =>
          cases h
          rw [unreadBits_of_readBit rem flag, ih rem1 left, ih rem2 right, hufTreeBits, List.cons_append,
            List.append_assoc]

/-! A symbol (44_huffman R207). -/

/-- The path to a leaf decodes to the leaf's value. -/
theorem hufDecodeSymbol_of_reads {t : HufTree} {code : Bits} {v : Byte} {st : BitBuffer} {rest : Bits}
    (h : Reads st (code ++ rest)) (walk : hufWalk t code = some (.leaf v)) :
    ∃ st', hufDecodeSymbol t st = .ok (st', v) ∧ Reads st' rest := by
  induction t generalizing code st with
  | leaf u =>
    obtain rfl := HuffmanTree.eq_nil_of_hufWalk_leaf walk
    cases walk
    exact ⟨st, rfl, h⟩
  | internal l r ihl ihr =>
    cases code with
    | nil => cases walk
    | cons b code =>
      obtain ⟨st1, bit, reads1⟩ := h.readBit
      cases b with
      | false =>
        obtain ⟨st2, symbol, reads2⟩ := ihl reads1 walk
        exact ⟨st2, by simpa only [hufDecodeSymbol, bit, Bool.false_eq_true, if_false] using symbol, reads2⟩
      | true =>
        obtain ⟨st2, symbol, reads2⟩ := ihr reads1 walk
        exact ⟨st2, by simpa only [hufDecodeSymbol, bit, if_true] using symbol, reads2⟩

/-- What was decoded was the path to a leaf with the symbol. -/
theorem exists_code_of_hufDecodeSymbol {t : HufTree} {st st' : BitBuffer} {v : Byte} (rem : st.rem ≤ 7)
    (h : hufDecodeSymbol t st = .ok (st', v)) :
    ∃ code, hufWalk t code = some (.leaf v) ∧ unreadBits st = code ++ unreadBits st' := by
  induction t generalizing st with
  | leaf u =>
    cases h
    exact ⟨[], rfl, rfl⟩
  | internal l r ihl ihr =>
    unfold hufDecodeSymbol at h
    split at h
    · cases h
    · next st1 b bit =>
      have rem1 := (bbReadBit_keeps bit).rem rem
      have unread := unreadBits_of_readBit rem bit
      cases b with
      | false =>
        obtain ⟨code, walk, rest⟩ := ihl rem1 h
        exact ⟨false :: code, walk, by rw [unread, rest, List.cons_append]⟩
      | true =>
        obtain ⟨code, walk, rest⟩ := ihr rem1 h
        exact ⟨true :: code, walk, by rw [unread, rest, List.cons_append]⟩

/-! The symbol loop (44_huffman R212). -/

/-- The symbols are leaves of the tree, each with its path. -/
def AreSymbols (root : HufTree) (symbols : List (Byte × Bits)) : Prop :=
  ∀ q ∈ symbols, hufWalk root q.2 = some (.leaf q.1)

/-- The bits of the symbols' paths, in order. -/
def symbolBits (symbols : List (Byte × Bits)) : Bits := symbols.flatMap fun q => q.2

/-- As many paths as the loop has rounds decode to their leaves' values, whatever follows. -/
theorem hufDecodeLoop_of_reads {root : HufTree} {symbols : List (Byte × Bits)} {inp out : BitBuffer} {rest : Bits}
    (h : Reads inp (symbolBits symbols ++ rest)) (walks : AreSymbols root symbols) :
    hufDecodeLoop root symbols.length inp out = .ok (bbWriteBytes out (symbols.map fun q => q.1)) := by
  induction symbols generalizing inp out with
  | nil => rfl
  | cons q symbols ih =>
    obtain ⟨walk, walks⟩ := List.forall_mem_cons.mp walks
    rw [symbolBits, List.flatMap_cons, List.append_assoc] at h
    obtain ⟨inp1, symbol, reads⟩ := hufDecodeSymbol_of_reads h walk
    rw [List.length_cons]
    simp only [hufDecodeLoop, symbol]
    rw [ih reads walks]
    rfl

/-- A loop that ends has decoded as many paths as it has rounds. -/
theorem exists_symbols_of_hufDecodeLoop {root : HufTree} {k : Nat} {inp out out' : BitBuffer} (rem : inp.rem ≤ 7)
    (h : hufDecodeLoop root k inp out = .ok out') :
    ∃ symbols rest, symbols.length = k ∧ AreSymbols root symbols ∧ unreadBits inp = symbolBits symbols ++ rest := by
  induction k generalizing inp out with
  | zero => exact ⟨[], unreadBits inp, rfl, nofun, rfl⟩
  | succ k ih =>
    unfold hufDecodeLoop at h
    split at h
    · cases h
    · next inp1 v symbol =>
      obtain ⟨code, walk, unread⟩ := exists_code_of_hufDecodeSymbol rem symbol
      have rem1 := ((hufDecodeSymbol_answers root inp).keeps symbol).rem rem
      obtain ⟨symbols, rest, length, walks, unread1⟩ := ih rem1 h
      refine ⟨(v, code) :: symbols, rest, congrArg Nat.succ length, List.forall_mem_cons.mpr ⟨walk, walks⟩, ?_⟩
      rw [unread, unread1, symbolBits, symbolBits, List.flatMap_cons, List.append_assoc]

/-! The function `hufExpand`, a case at a time (44_huffman R212, R213). -/

/-- After the header the stream holds a tree and as many code words as the header says. -/
def Holds (bs : Bytes) (root : HufTree) (symbols : List (Byte × Bits)) (tail : Bits) : Prop :=
  (symbols.length : Int) = ByteReads.leadingInt bs ∧ AreSymbols root symbols ∧
    (bs.drop 4).flatMap byteBits = hufTreeBits root ++ symbolBits symbols ++ tail

variable {bs : Bytes}

theorem hufExpand_of_lt (h : bs.length < 4) : hufExpand bs = .error .outOfData := by
  rw [hufExpand, bbReadInt_preloaded_short h]

theorem hufExpand_of_neg (h : 4 ≤ bs.length) (neg : ByteReads.leadingInt bs < 0) : hufExpand bs = .error .format := by
  simp only [hufExpand, InverseBwt.bbReadInt_preloaded_of_le h, if_pos neg]

theorem hufExpand_of_zero (h : 4 ≤ bs.length) (zero : ByteReads.leadingInt bs = 0) : hufExpand bs = .ok [] := by
  simp [hufExpand, InverseBwt.bbReadInt_preloaded_of_le h, zero]

/-- The reader after the header. -/
def afterHeader (bs : Bytes) : BitBuffer := { preloaded bs with cursor := 4 }

theorem bbReadInt_afterHeader (h : 4 ≤ bs.length) :
    bbReadInt (preloaded bs) = .ok (afterHeader bs, ByteReads.leadingInt bs) :=
  InverseBwt.bbReadInt_preloaded_of_le h

theorem reads_afterHeader (bs : Bytes) : Reads (afterHeader bs) ((bs.drop 4).flatMap byteBits) :=
  ⟨Nat.zero_le _, rfl⟩

/-- A stream with a positive length whose parse and symbol loop answer expands to what the loop wrote. -/
theorem hufExpand_of_steps {inp inp1 out : BitBuffer} {n : Int} {root : HufTree}
    (header : bbReadInt (preloaded bs) = .ok (inp, n)) (pos : 0 < n)
    (parse : hufParse (hufParseFuel bs) inp = .ok (inp1, root))
    (loop : hufDecodeLoop root n.toNat inp1 BitBuffer.empty = .ok out) : hufExpand bs = .ok (bbFlush out).data := by
  simp only [hufExpand, header, if_neg pos.not_gt, if_neg pos.ne', parse, loop]

/-- A stream with a positive length expands only if its parse and its symbol loop answer. -/
theorem exists_steps_of_hufExpand {inp : BitBuffer} {n : Int} {out : Bytes}
    (header : bbReadInt (preloaded bs) = .ok (inp, n)) (pos : 0 < n) (expands : hufExpand bs = .ok out) :
    ∃ inp1 root out', hufParse (hufParseFuel bs) inp = .ok (inp1, root) ∧
      hufDecodeLoop root n.toNat inp1 BitBuffer.empty = .ok out' := by
  simp only [hufExpand, header, if_neg pos.not_gt, if_neg pos.ne'] at expands
  split at expands
  · cases expands
  · next inp1 root parse =>
    split at expands
    · cases expands
    · next out' loop => exact ⟨inp1, root, out', parse, loop⟩

/-- A tree that the stream holds is not deeper than the parse goes (notes/assumptions/13). -/
theorem hufTreeBits_length_le {t : HufTree} {tail : Bits}
    (bits : (bs.drop 4).flatMap byteBits = hufTreeBits t ++ tail) :
    (hufTreeBits t).length ≤ hufParseFuel bs := by
  have length := congrArg List.length bits
  rw [BitStreams.flatMap_byteBits_length, List.length_append, List.length_drop] at length
  rw [hufParseFuel]
  omega

/-- A stream that holds a tree and code words expands to the leaves' values. -/
theorem hufExpand_of_holds {root : HufTree} {symbols : List (Byte × Bits)} {tail : Bits} (h : 4 ≤ bs.length)
    (pos : 0 < ByteReads.leadingInt bs) (holds : Holds bs root symbols tail) :
    hufExpand bs = .ok (symbols.map fun q => q.1) := by
  obtain ⟨count, walks, bits⟩ := holds
  have reads := reads_afterHeader bs
  rw [List.append_assoc] at bits
  rw [bits] at reads
  obtain ⟨inp1, parse, reads1⟩ := hufParse_of_reads reads (hufTreeBits_length_le bits)
  have loop := hufDecodeLoop_of_reads (out := BitBuffer.empty) reads1 walks
  have header := bbReadInt_afterHeader h
  rw [← count] at header pos
  rw [hufExpand_of_steps header pos parse loop, flush_writeBytes_empty]

/-- A stream that expands holds a tree and code words. -/
theorem exists_holds_of_hufExpand {out : Bytes} (h : 4 ≤ bs.length) (pos : 0 < ByteReads.leadingInt bs)
    (expands : hufExpand bs = .ok out) : ∃ root symbols tail, Holds bs root symbols tail := by
  obtain ⟨inp1, root, out', parse, loop⟩ := exists_steps_of_hufExpand (bbReadInt_afterHeader h) pos expands
  have rem := (reads_afterHeader bs).rem
  have rem1 := ((hufParse_answers _ _).keeps parse).rem rem
  obtain ⟨symbols, tail, length, walks, unread⟩ := exists_symbols_of_hufDecodeLoop rem1 loop
  refine ⟨root, symbols, tail, by rw [length, Int.toNat_of_nonneg pos.le], walks, ?_⟩
  rw [← (reads_afterHeader bs).unread, unreadBits_of_hufParse rem parse, unread, List.append_assoc]

/-- A stream with a positive length that does not expand runs out of data: its parse or its symbol loop did. -/
theorem eq_outOfData_of_hufExpand_error {inp : BitBuffer} {n : Int} {x : FaultCode}
    (header : bbReadInt (preloaded bs) = .ok (inp, n)) (pos : 0 < n) (faults : hufExpand bs = .error x) :
    x = .outOfData := by
  simp only [hufExpand, header, if_neg pos.not_gt, if_neg pos.ne'] at faults
  split at faults
  · next parse =>
    cases faults
    exact (hufParse_answers _ _).outOfData parse
  · split at faults
    · next loop =>
      cases faults
      exact hufDecodeLoop_error loop
    · cases faults

/-- A stream with a positive length that holds no tree and code words runs out of data. -/
theorem hufExpand_of_not_holds (h : 4 ≤ bs.length) (pos : 0 < ByteReads.leadingInt bs)
    (none : ¬∃ root symbols tail, Holds bs root symbols tail) : hufExpand bs = .error .outOfData := by
  cases expands : hufExpand bs with
  | ok out => exact absurd (exists_holds_of_hufExpand h pos expands) none
  | error x => rw [eq_outOfData_of_hufExpand_error (bbReadInt_afterHeader h) pos expands]

/-- Settles O52: the header decides three clauses, and the bits after it the other two. -/
theorem hufxDecodesCodeWords : Obligations.HufxDecodesCodeWords := by
  unfold Obligations.HufxDecodesCodeWords
  intro a b s ready ha hb bs length holds
  have taken : Takes Config.params (.hufx a b) s := TakenTransforms.takes_of_slotPair ready rfl ha hb
  have body : bodyOf (.hufx a b) s = transformBody hufExpand a b s := rfl
  have header : ByteReads.leadingInt bs = length := InverseBwt.leadingInt_eq_toInt bs
  have same (root : HufTree) (symbols : List (Byte × Bits)) (tail : Bits) :
      holds root symbols tail ↔ Holds bs root symbols tail := by
    rw [Holds, header]
    rfl
  have commits {out : Bytes} (answer : hufExpand bs = .ok out) :=
    TakenTransforms.transform_commits taken body answer (FaultSources.hufExpand_length answer)
  rw [exec_eq_execFor, ← faultStatus_outOfData, ← TakenTransforms.faultStatus_format]
  simp only [same]
  rw [← header]
  exact ⟨fun short => TakenTransforms.transform_faults taken body (hufExpand_of_lt short),
    fun long neg => TakenTransforms.transform_faults taken body (hufExpand_of_neg long neg),
    fun long zero => commits (hufExpand_of_zero long zero),
    fun root symbols tail long pos h => commits (hufExpand_of_holds long pos h),
    fun long pos none => TakenTransforms.transform_faults taken body (hufExpand_of_not_holds long pos none)⟩

/-! The round trip (44_huffman, section 3). -/

theorem hufExpand_hufCompress (tie : TieOrder) {x : Bytes} (short : x.length < 2 ^ 31) :
    hufExpand (hufCompress x tie) = .ok x := by
  by_cases empty : x = []
  · subst empty
    have zero : ByteReads.leadingInt [0, 0, 0, 0] = 0 := by decide
    rw [HuffmanCompress.hufCompress_nil, hufExpand_of_zero (by decide) zero]
  · obtain ⟨root, pad, body, -, walks, -, whole, bits⟩ := HuffmanCompress.exists_hufCompress_eq tie empty
    have header : ByteReads.leadingInt (hufCompress x tie) = x.length := by
      rw [whole]
      exact BwtRoundTrip.leadingInt_wordBytes short body
    have after : (hufCompress x tie).drop 4 = body := by
      rw [whole]
      rfl
    have long : 4 ≤ (hufCompress x tie).length := by
      rw [whole, List.length_append]
      exact Nat.le_add_right _ _
    have pos : 0 < ByteReads.leadingInt (hufCompress x tie) := by
      rw [header]
      exact Int.natCast_pos.mpr (List.length_pos_of_ne_nil empty)
    have holds : Holds (hufCompress x tie) root (x.map fun v => (v, hufCode root v)) (List.replicate pad false) := by
      refine ⟨by rw [header, List.length_map], fun q mem => ?_, ?_⟩
      · obtain ⟨v, hv, rfl⟩ := List.mem_map.mp mem
        exact walks v hv
      · rw [after, bits, symbolBits, List.flatMap_map]
    rw [hufExpand_of_holds long pos holds, List.map_map]
    exact congrArg Except.ok (List.map_id x)

/-- Settles O60: the output holds the tree that the code words are of, whatever the tie order made it. -/
theorem huffmanRoundTripUnderEveryTieOrder : Obligations.HuffmanRoundTripUnderEveryTieOrder := by
  unfold Obligations.HuffmanRoundTripUnderEveryTieOrder
  intro tie x short
  have maxLen : Config.MAX_LEN < 2 ^ 31 := by decide
  exact hufExpand_hufCompress tie (short.trans_lt maxLen)

end Sys2Proof.Proofs.HuffmanExpand
end
